-- ==== Sys2Proof/Word.lean ====
section
/-! DEFINITION. The two word types of the spec (00_scope.md R8): a byte is 8 bits, a word is 16 bits
(one device register). -/

namespace Sys2Proof

/-- A byte: the unit of the serial line (R8, R69). -/
abbrev Byte := BitVec 8

/-- A word: one device register, or one 16-bit field of a frame (R8, R61). -/
abbrev Word := BitVec 16

end Sys2Proof
end

