-- ==== Sys2Proof/Config.lean ====
section
/-! DEFINITION. What an implementation fixes: the parameters of 00_scope.md R7. The rows that are not the source's
are the fields of `Config` with R7's values as defaults, so that a statement about every state holds for every value of
them (log 1). The rows that are the source's are constants. -/

namespace Sys2Proof

/-- The semantic register names of the map (42_register_rom.md R220, R221; the spellings are the spec's, D21). -/
inductive RegName
  | tempCurrent
  | fanRunning
  | busAddr
  | manualSpeed
  | tempCombined
  | workMode
  | fanCount
  | fan1Speed
  | fan2Speed
  | fan3Speed
  | fan4Speed
  | pwmFreq
  | tempLow
  | tempHigh
  | fanFault
  | resetCmd
deriving DecidableEq, Repr

/-- All the names, in the order of R221's table, which is the order of their addresses. -/
def RegName.all : List RegName :=
  [.tempCurrent, .fanRunning, .busAddr, .manualSpeed, .tempCombined, .workMode, .fanCount, .fan1Speed,
   .fan2Speed, .fan3Speed, .fan4Speed, .pwmFreq, .tempLow, .tempHigh, .fanFault, .resetCmd]

/-- The parameters of the block (R7; 92_eei_decisions.md, "Open parameters, collected"). Plain data, held in State and
changed by no step. -/
structure Config where
  /-- `FN_READ`, the function code of a read (R92, D2). -/
  fnRead : Byte
  /-- `FN_WRITE`, the function code of a write (R92, D2). -/
  fnWrite : Byte
  /-- `MAX_READ_COUNT`, the largest register count of one read (D15). -/
  maxReadCount : Nat
  /-- `RX_MAX`, the size of the receive buffer in bytes (R7, R27). -/
  rxMax : Nat
  /-- `TICK_HZ`, ticks per second (D9). -/
  tickHz : Nat
  /-- `ROM_ENFORCE_ACCESS` (R226, D20): `OPEN`, no default. -/
  romEnforceAccess : Bool
  /-- `TX_GUARD_TICKS` (D32): silent interval kept before a request is sent. -/
  txGuardTicks : BitVec 32
  /-- The tie rule completion-before-expiry (R190 (b), D12), an optional switch: which of the two comes first
  when the completing byte and the expiring tick fall together. -/
  completionFirst : Bool
  /-- `CRC_XOROUT` (R7, D4): the final exclusive-or of the checksum. -/
  crcXorOut : Word
  /-- Width of the function code field in bits (R7, D3). R91 and the frames of R93 to R97 give it one byte (log 3). -/
  fnWidth : Nat
  /-- Width of the byte-count field in bits (R7, D3), likewise one byte. -/
  byteCountWidth : Nat
  /-- Width of the exception code field in bits (R7, D3), likewise one byte. -/
  excWidth : Nat
  /-- `TIMEOUT_WIDTH` (R7, D9): the bits that `TIMEOUT` holds of `SETTO`'s operand (log 3). -/
  timeoutWidth : Nat
  /-- Bit order on the serial line (R7, D5): data bits least significant first. The byte is the atom of the line, and no rule depends
  on the order (R69, log 19). -/
  serialLsbFirst : Bool
  /-- CRC bit direction (R7, D4): least significant bit first with a right-shifting register, as R130 has it, or most
  significant bit first with a left-shifting one (log 3). -/
  crcLsbFirst : Bool
  /-- ROM index numbering (R7, R221, D21): the names in the order of their indices. -/
  romOrder : List RegName
deriving DecidableEq, Repr

/-- What the spec requires of the parameters: `FN_READ` and `FN_WRITE` distinct with bit 7 = 0 (R92), a read
count of 1 to 127 (R7, R96), a receive buffer of 5 + 2 × `MAX_READ_COUNT` bytes (R7), fields of one byte (R91), a `TIMEOUT` of at most the 32 bits of its command and result (R178,
R179) that holds the reset value of 10 seconds (R21), and a numbering of the ROM that gives every name one of the 16 indices
(R221). -/
def Config.wf (c : Config) : Bool :=
  c.fnRead != c.fnWrite && !c.fnRead.msb && !c.fnWrite.msb
    && decide (1 ≤ c.maxReadCount) && decide (c.maxReadCount ≤ 127)
    && c.rxMax == 5 + 2 * c.maxReadCount
    && c.fnWidth == 8 && c.byteCountWidth == 8 && c.excWidth == 8
    && decide (c.timeoutWidth ≤ 32) && decide (0 < c.tickHz) && decide (10 * c.tickHz < 2 ^ c.timeoutWidth)
    && c.romOrder.length == 16 && RegName.all.all c.romOrder.contains

/-- The defaults of R7, for either value of the one parameter that has no default. -/
def Config.standard (enforce : Bool) : Config where
  fnRead := 0x03
  fnWrite := 0x06
  maxReadCount := 125
  rxMax := 255
  tickHz := 1000
  romEnforceAccess := enforce
  txGuardTicks := 0
  completionFirst := true
  fnWidth := 8
  byteCountWidth := 8
  excWidth := 8
  timeoutWidth := 32
  serialLsbFirst := true
  crcXorOut := 0
  crcLsbFirst := true
  romOrder := RegName.all

/-- FREE VALUE (log 2). What `ROM_ENFORCE_ACCESS` is on the machine that comes out of reset: R226 leaves it
open and gives no default, so nothing in Lean can tell which. -/
opaque Config.enforceAtReset : Bool

/-- The parameters of the machine that comes out of reset: R7's defaults, the open one left open. -/
def Config.atReset : Config := Config.standard Config.enforceAtReset

/-- FREE VALUE (log 21). Which values of the work mode register make the Controller Status's `eco mode` true: R258 says that
it is not in the source. -/
opaque Config.ecoMode : Word → Bool

/-- `CRC_POLY` (R7, source §4.2). -/
def Config.crcPoly : Word := 0xA001

/-- `CRC_INIT` (R7, source §4.2). -/
def Config.crcInit : Word := 0xFFFF

/-- `EXC_BIT`, or-ed into the function code of an exception response (R7, R92). -/
def Config.excBit : Byte := 0x80

end Sys2Proof
end

