-- ==== Sys2Proof/Syntax.lean ====
section
/-! DEFINITION. The two languages of the block (00_scope.md R2) as ONE inductive, one constructor for each row of
spec/opcode_table.json: the ten host commands (30_encoding.md R102) and the six wire frame shapes (R93 to R98).
Operands are the fields the table gives the row. -/

namespace Sys2Proof

/-- What an exchange does: `CUR_OP` (10_state.md R24), also the request context of the codec (R138, R139). -/
inductive Op
  | read
  | write
deriving DecidableEq, Repr

/-- The instructions: host commands, then wire frames. -/
inductive Instr
  /-- `RDHR addr, count` (R172). -/
  | rdhr (addr count : Word)
  /-- `WRSR addr, value` (R173). -/
  | wrsr (addr value : Word)
  /-- `RDREG idx, count` (R174). -/
  | rdreg (idx : BitVec 4) (count : Word)
  /-- `WRREG idx, value` (R175). -/
  | wrreg (idx : BitVec 4) (value : Word)
  /-- `SETTO ticks` (R178). -/
  | setto (ticks : BitVec 32)
  /-- `GETTO` (R179). -/
  | getto
  /-- `SETSA sa` (R176). -/
  | setsa (sa : Byte)
  /-- `GETSA` (R177). -/
  | getsa
  /-- `LOOKUP idx` (R222). -/
  | lookup (idx : BitVec 4)
  /-- `FANREG i` (R223). -/
  | fanreg (i : Byte)
  /-- Read request frame (R93): bus address, start register, count, checksum as carried. -/
  | frameRdreq (sa : Byte) (reg count crc : Word)
  /-- Write request frame (R94): bus address, register, value, checksum as carried. -/
  | frameWrreq (sa : Byte) (reg value crc : Word)
  /-- Read response frame (R95): bus address, byte-count as carried, values, checksum as carried. -/
  | frameRdrsp (sa byteCount : Byte) (values : List Word) (crc : Word)
  /-- Write response frame (R98): bus address, echoed register and value, checksum as carried. -/
  | frameWrrsp (sa : Byte) (reg value crc : Word)
  /-- Exception response to a read (R97): bus address, exception code, checksum as carried. -/
  | frameExcrspRd (sa code : Byte) (crc : Word)
  /-- Exception response to a write (R97): bus address, exception code, checksum as carried. -/
  | frameExcrspWr (sa code : Byte) (crc : Word)
deriving DecidableEq, Repr

end Sys2Proof
end

