-- ==== Sys2Proof/Machine/Operands.lean ====
section
/-! DEFINITION. Operand forms: how a 16-bit field is split and assembled (00_scope.md R8, 30_encoding.md R99,
20_memory.md R67, R68), how bytes are cut from a number, and the exception form of a function code (R92). -/

namespace Sys2Proof.Machine

/-- `hi8(w)` (R8). -/
def hi8 (w : Word) : Byte := w.extractLsb' 8 8

/-- `lo8(w)` (R8). -/
def lo8 (w : Word) : Byte := w.extractLsb' 0 8

/-- `be16(w)`, the big-endian image of a word (R8, R67). -/
def be16 (w : Word) : List Byte := [hi8 w, lo8 w]

/-- `le16(w)`, the little-endian image of a word, used by the checksum alone (R8, R68). -/
def le16 (w : Word) : List Byte := [lo8 w, hi8 w]

/-- `from_be16(b0, b1)` (R8). -/
def fromBe16 (b0 b1 : Byte) : Word := b0 ++ b1

/-- `from_le16(b0, b1)` (R8). -/
def fromLe16 (b0 b1 : Byte) : Word := b1 ++ b0

/-- The big-endian images of the words, in order: the data field of a read response (R95). -/
def wordsBytes (ws : List Word) : List Byte := ws.flatMap be16

/-- The words whose big-endian images the bytes are, two bytes a word, in order (R140). -/
def bytesWords : List Byte → List Word
  | b0 :: b1 :: rest => fromBe16 b0 b1 :: bytesWords rest
  | _ => []

/-- The bits of `SETTO`'s operand that `TIMEOUT` holds: all of them with the default `TIMEOUT_WIDTH` of 32 (R21, R178). DESIGN CHOICE
(log 3): a narrower `TIMEOUT` holds the low ones. -/
def timeoutBits (c : Config) (ticks : BitVec 32) : BitVec 32 := (ticks.setWidth c.timeoutWidth).setWidth 32

/-- The `k` low bytes of a number, the most significant first (the numbering of opcode_table.json: the first byte on
the wire is the most significant). -/
def bytesOfNat : (k w : Nat) → List Byte
  | 0, _ => []
  | k + 1, w => BitVec.ofNat 8 (w >>> (8 * k)) :: bytesOfNat k w

/-- The function code of an operation (R92). -/
def fnOf (c : Config) : Op → Byte
  | .read => c.fnRead
  | .write => c.fnWrite

/-- The exception form `f | 0x80` of a function code (R92, R97). -/
def excFn (f : Byte) : Byte := f ||| Config.excBit

end Sys2Proof.Machine
end

