-- ==== Sys2Proof/Machine/Codec.lean ====
section
/-! DEFINITION. The Frame Codec (40_frame_codec.md): checksum generator, request builder, response length, response
parser, exception parser. All pure: the codec keeps no state between uses (10_state.md R36). -/

namespace Sys2Proof.Machine

/-- The polynomial for a register that takes the most significant bit first: `CRC_POLY` bit-reversed (D4: 0xA001 is the reflected
form of 0x8005). -/
def crcPolyMirror : Word := 0x8005

/-- One of the eight shift steps: R130's where the bits go least significant first. DESIGN CHOICE (log 3): where they do not it is the
mirror of R130's, left-shifting with the bit-reversed polynomial; the spec gives no procedure for that direction. -/
def crcBit (c : Config) (r : Word) : Word :=
  if c.crcLsbFirst then (if r.getLsbD 0 then (r >>> 1) ^^^ Config.crcPoly else r >>> 1)
  else if r.msb then (r <<< 1) ^^^ crcPolyMirror else r <<< 1

/-- A byte at the end of the register where its bits enter: the low one (R130), in the other direction the high one (log 3). -/
def crcAlign (c : Config) (x : Byte) : Word := if c.crcLsbFirst then x.setWidth 16 else x ++ 0#8

/-- The working register after one byte (R130). -/
def crcByte (c : Config) (r : Word) (x : Byte) : Word :=
  crcBit c (crcBit c (crcBit c (crcBit c (crcBit c (crcBit c (crcBit c (crcBit c (r ^^^ crcAlign c x))))))))

/-- The working register after a byte sequence, from any start value (R130). -/
def crcFrom (c : Config) (r : Word) : List Byte → Word
  | [] => r
  | x :: xs => crcFrom c (crcByte c r x) xs

/-- `CRC16` (R130): initial value 0xFFFF; the final exclusive-or is a parameter whose default is none. -/
def crc16 (c : Config) (s : List Byte) : Word := crcFrom c Config.crcInit s ^^^ c.crcXorOut

/-- `TRAILER` (R131): the body followed by its checksum, low byte first. -/
def trailer (c : Config) (s : List Byte) : List Byte := s ++ le16 (crc16 c s)

/-- The checksum a frame carries in its last two bytes, low byte first (R99, R132). -/
def carriedCrc (s : List Byte) : Word :=
  fromLe16 (s.getD (s.length - 2) 0) (s.getD (s.length - 1) 0)

/-- `VERIFY` (R132), for a sequence of at least two bytes. -/
def verify (c : Config) (s : List Byte) : Bool := crc16 c (s.take (s.length - 2)) == carriedCrc s

/-- `ENC.RD` (R134). -/
def encRd (c : Config) (sa : Byte) (reg n : Word) : List Byte :=
  trailer c ([sa, c.fnRead] ++ be16 reg ++ be16 n)

/-- `ENC.WR` (R135). -/
def encWr (c : Config) (sa : Byte) (reg v : Word) : List Byte :=
  trailer c ([sa, c.fnWrite] ++ be16 reg ++ be16 v)

/-- The request frame of an exchange: `ENC.RD` or `ENC.WR` (R181). -/
def encRequest (c : Config) (op : Op) (sa : Byte) (reg arg : Word) : List Byte :=
  match op with
  | .read => encRd c sa reg arg
  | .write => encWr c sa reg arg

/-- `EXPLEN` (R138): the number of bytes the response must have, from bit 7 of its second byte. -/
def explen (op : Op) (n : Word) (f : Byte) : Nat :=
  if f.getLsbD 7 then 5 else
    match op with
    | .read => 5 + 2 * n.toNat
    | .write => 8

/-- The sub-reasons of the error kind `Frame` (60_exceptions.md R292). -/
inductive FrameSub
  | length
  | crc
  | address
  | function
  | byteCount
deriving DecidableEq, Repr

/-- The result of `DEC` (R139). -/
inductive DecResult
  /-- `Ok(values)`, of a read. -/
  | okRead (values : List Word)
  /-- `Ok()`, of a write. -/
  | okWrite
  /-- `Err(Frame, sub)`. -/
  | frame (sub : FrameSub)
  /-- `Err(DeviceException, code)`. -/
  | deviceException (code : Byte)
  /-- `Err(EchoMismatch)`. -/
  | echoMismatch
deriving DecidableEq, Repr

/-- `DEC.RD` (R140). -/
def decRd (n : Word) (s : List Byte) : DecResult :=
  if (s.getD 2 0).toNat ≠ 2 * n.toNat then .frame .byteCount
  else .okRead (bytesWords ((s.drop 3).take (2 * n.toNat)))

/-- `DEC.WR` (R141): both echoed fields are compared (90_conflicts.md C6). -/
def decWr (reg v : Word) (s : List Byte) : DecResult :=
  if fromBe16 (s.getD 2 0) (s.getD 3 0) ≠ reg ∨ fromBe16 (s.getD 4 0) (s.getD 5 0) ≠ v then .echoMismatch
  else .okWrite

/-- `DEC.EXC` (R142): the code is passed through unchanged. -/
def decExc (s : List Byte) : DecResult := .deviceException (s.getD 2 0)

/-- The last check of `DEC`, by the kind of request (R139). -/
def decData (op : Op) (reg arg : Word) (s : List Byte) : DecResult :=
  match op with
  | .read => decRd arg s
  | .write => decWr reg arg s

/-- `DEC` (R139), total on every byte sequence; the first check that fails decides. -/
def dec (c : Config) (op : Op) (sa : Byte) (reg arg : Word) (s : List Byte) : DecResult :=
  if s.length < 5 ∨ s.length ≠ explen op arg (s.getD 1 0) then .frame .length
  else if !verify c s then .frame .crc
  else if s.getD 0 0 ≠ sa then .frame .address
  else if s.getD 1 0 = excFn (fnOf c op) then decExc s
  else if s.getD 1 0 ≠ fnOf c op then .frame .function
  else decData op reg arg s

end Sys2Proof.Machine
end

