-- ==== Sys2Proof/Machine/Memory.lean ====
section
/-! DEFINITION. The register table of a device: the address space S1 of 20_memory.md R60 and R61 (16-bit addresses, each
naming one 16-bit register; the unit of address is the register). A list of (address, value) pairs in one canonical
form: addresses strictly rising and below 65536, no entry equal to what an unlisted address reads as (log 14). -/

namespace Sys2Proof.Machine

/-- Device registers: (address, value) pairs. -/
abbrev Memory := List (Nat × Word)

/-- What an unlisted register reads as (log 14, DESIGN CHOICE). -/
def Memory.unlisted : Word := 0

/-- The canonical form, for a list all of whose addresses must be at least `lo`. -/
def Memory.wfFrom (lo : Nat) : Memory → Bool
  | [] => true
  | (a, v) :: rest =>
    decide (lo ≤ a) && decide (a < 65536) && v != Memory.unlisted && Memory.wfFrom (a + 1) rest

/-- The canonical form. -/
def Memory.wf (m : Memory) : Bool := Memory.wfFrom 0 m

/-- The value of one register. -/
def Memory.read (m : Memory) (a : Nat) : Word :=
  match m with
  | [] => Memory.unlisted
  | (b, v) :: rest => if b = a then v else Memory.read rest a

/-- The entry for one register, put where it belongs; nothing where the value is what an unlisted register reads as. -/
def Memory.entry (a : Nat) (v : Word) : Memory := if v = Memory.unlisted then [] else [(a, v)]

/-- Store one register; the canonical form is kept. -/
def Memory.write (m : Memory) (a : Nat) (v : Word) : Memory :=
  match m with
  | [] => Memory.entry a v
  | (b, w) :: rest =>
    if a < b then Memory.entry a v ++ (b, w) :: rest
    else if a = b then Memory.entry a v ++ rest
    else (b, w) :: Memory.write rest a v

/-- The values of `n` consecutive registers (R61). -/
def Memory.readMany (m : Memory) (a n : Nat) : List Word := (List.range n).map (fun i => m.read (a + i))

end Sys2Proof.Machine
end

