-- ==== Sys2Proof/Machine/Rom.lean ====
section
/-! DEFINITION. The register map, the register-address ROM and the fan-index function (42_register_rom.md R220 to R224;
20_memory.md R62). The ROM is constant (10_state.md R35): no step changes it. -/

namespace Sys2Proof.Machine

/-- Access mode of a register (R220). -/
inductive Access
  /-- read-only, 0 -/
  | r
  /-- read-write, 1 -/
  | rw
  /-- write-only, 2 -/
  | w
deriving DecidableEq, Repr

/-- The two-bit code of an access mode (R220); 3 is unused. -/
def Access.code : Access → BitVec 2
  | .r => 0
  | .rw => 1
  | .w => 2

/-- One ROM entry (R35): a 16-bit address and an access mode. -/
structure RomEntry where
  addr : Word
  access : Access
deriving DecidableEq, Repr

/-- The map entry of a name (R221, R62): 7 names are read-only, 8 read-write and 1 write-only. DEDUCED (log 24): R224 counts 6, 9
and 1, which neither table bears out, and 90_conflicts.md does not name the point; the model follows the tables. -/
def registerEntry : RegName → RomEntry
  | .tempCurrent => ⟨0x0000, .r⟩
  | .fanRunning => ⟨0x0001, .r⟩
  | .busAddr => ⟨0x0002, .rw⟩
  | .manualSpeed => ⟨0x0003, .rw⟩
  | .tempCombined => ⟨0x0004, .rw⟩
  | .workMode => ⟨0x0005, .rw⟩
  | .fanCount => ⟨0x0006, .rw⟩
  | .fan1Speed => ⟨0x0007, .r⟩
  | .fan2Speed => ⟨0x0008, .r⟩
  | .fan3Speed => ⟨0x0009, .r⟩
  | .fan4Speed => ⟨0x000A, .r⟩
  | .pwmFreq => ⟨0x000B, .rw⟩
  | .tempLow => ⟨0x000C, .rw⟩
  | .tempHigh => ⟨0x000D, .rw⟩
  | .fanFault => ⟨0x000E, .r⟩
  | .resetCmd => ⟨0x0020, .w⟩

/-- `ROM[idx]` (R221), in the numbering the parameters give: every 4-bit index is valid. -/
def romEntry (c : Config) (idx : BitVec 4) : RomEntry := registerEntry (c.romOrder.getD idx.toNat .tempCurrent)

/-- The index of a name (R221; R108: a command may give the index by its name). -/
def romIndex (c : Config) (n : RegName) : BitVec 4 := BitVec.ofNat 4 (c.romOrder.idxOf n)

/-- The access mode the register map gives an address, if it is in the map (20_memory.md R62, R63). -/
def mapAccess (a : Nat) : Option Access :=
  (RegName.all.find? (fun n => (registerEntry n).addr.toNat == a)).map (fun n => (registerEntry n).access)

/-- The fan-index function (R223): fan 1 to 4 at 0x0006 + i, absent outside this set. -/
def fanRegister (i : Byte) : Option Word :=
  if 1 ≤ i.toNat ∧ i.toNat ≤ 4 then some (0x0006 + i.setWidth 16) else none

end Sys2Proof.Machine
end

