-- ==== Sys2Proof/Machine/Device.lean ====
section
/-! DEFINITION. The reference device of 20_memory.md R76, the spec's own test fixture: what a simple device does with a
complete request frame. It says nothing about the real fan controller (log 13). -/

namespace Sys2Proof.Machine

/-- State of the reference device (R76): its own bus address `DA` and its register table `DEV`. -/
structure Device where
  addr : Byte
  regs : Memory
deriving DecidableEq, Repr

/-- May the register at `a` be read: in the map with access R or RW (R76). -/
def deviceReadable (a : Nat) : Bool :=
  match mapAccess a with
  | some .r | some .rw => true
  | some .w | none => false

/-- May the register at `a` be written: in the map with access RW or W (R76). -/
def deviceWritable (a : Nat) : Bool :=
  match mapAccess a with
  | some .rw | some .w => true
  | some .r | none => false

/-- A read response from bus address `sa` carrying the values (R95). -/
def readResponse (c : Config) (sa : Byte) (vs : List Word) : List Byte :=
  trailer c ([sa, c.fnRead, BitVec.ofNat 8 (2 * vs.length)] ++ wordsBytes vs)

/-- An exception response from bus address `sa` to function `f` (R97). -/
def exceptionResponse (c : Config) (sa f code : Byte) : List Byte := trailer c [sa, excFn f, code]

/-- A good read request, answered (R76): the values, or exception code 0x02. -/
def Device.onRead (c : Config) (d : Device) (a n : Nat) : Device × List Byte :=
  if 1 ≤ n ∧ n ≤ 125 ∧ (List.range n).all (fun i => deviceReadable (a + i)) then
    (d, readResponse c d.addr (d.regs.readMany a n))
  else (d, exceptionResponse c d.addr c.fnRead 0x02)

/-- A good write request, answered (R76): the echo from `DA` as it was before the write, or exception code 0x02. A write
to the bus-address register then changes `DA`. -/
def Device.onWrite (c : Config) (d : Device) (a v : Word) : Device × List Byte :=
  if deviceWritable a.toNat then
    ({ addr := if a = 0x0002 then lo8 v else d.addr, regs := d.regs.write a.toNat v }, encWr c d.addr a v)
  else (d, exceptionResponse c d.addr c.fnWrite 0x02)

/-- What the reference device does on receiving a complete 8-byte request frame `q` (R76): its new state and the bytes
it sends. -/
def Device.onRequest (c : Config) (d : Device) (q : List Byte) : Device × List Byte :=
  let field := fun k => fromBe16 (q.getD k 0) (q.getD (k + 1) 0)
  if !verify c q || q.getD 0 0 != d.addr then (d, [])
  else if q.getD 1 0 = c.fnRead then d.onRead c (field 2).toNat (field 4).toNat
  else if q.getD 1 0 = c.fnWrite then d.onWrite c (field 2) (field 4)
  else (d, exceptionResponse c d.addr (q.getD 1 0) 0x01)

/-- The device of the worked programs (95_test_vectors.md Part 3): the scenario's register values, bus address 1. -/
def Device.scenario : Device where
  addr := 1
  regs :=
    [(0x00, 0x0047), (0x01, 0x000F), (0x02, 0x0001), (0x03, 0xFFFF), (0x04, 0x465A), (0x05, 0x0001), (0x06, 0x0004),
     (0x07, 0x0578), (0x08, 0x0578), (0x09, 0x0578), (0x0A, 0x0578), (0x0B, 0x0005), (0x0C, 0x0046), (0x0D, 0x005A),
     (0x0E, 0x000F)]

end Sys2Proof.Machine
end

