-- ==== Sys2Proof/Machine/State.lean ====
section
/-! DEFINITION. The state (10_state.md), the ways a step can stop, and the state after reset (R40). All plain data. -/

namespace Sys2Proof.Machine

/-- `PHASE` (R23). Its value 3 is never reached and has no name. -/
inductive Phase
  /-- 0: no exchange running, the command port is ready. -/
  | idle
  /-- 1: a request frame is being sent. -/
  | tx
  /-- 2: the request has been sent, response bytes are awaited. -/
  | rx
deriving DecidableEq, Repr

/-- Why a step stops with a fault. -/
inductive Fault
  /-- Raised by the host's read of result register `number` while it holds no value (R41, D23). SAFE: the spec says that
  such a read is a fault of the host program and never a value (R41, D23; 93_implementation_defined.md, the last paragraph of
Part 1), whatever the element held before. -/
  | noValue (number : Nat)
deriving DecidableEq, Repr

/-- Why a step is refused. -/
inductive Refusal
  /-- An instruction without a meaning, named as the table spells it. SAFE. No arm of `exec` answers so. -/
  | notModelled (mnemonic : String)
  /-- Raised by the host's read or write of a number that R38 gives it no such access to: "not a move the host has". SAFE. -/
  | noHostRegister (number : Nat)
deriving DecidableEq, Repr

/-- A request, or the first bytes of one, that has gone out on the line (R37 (b), 20_memory.md R78). -/
structure Request where
  /-- The bytes handed to the transmitter, in order. -/
  bytes : List Byte
  /-- Whether the device has acted on it: it does so zero or one time (R78). -/
  acted : Bool
deriving DecidableEq, Repr

/-- One move of an agent outside the sequencer (00_scope.md R11), the unit in which the machine is driven (log 4). -/
inductive Input
  /-- The host presents a word at a register number (R38); number 0 is `CMD`. -/
  | hostWrite (number : Nat) (word : BitVec 40)
  /-- The host reads a register number (R38). -/
  | hostRead (number : Nat)
  /-- The transmitter can take a byte (R182). -/
  | txReady
  /-- The transmitter takes the rest of the request frame, byte after byte, with no other move between (log 10). -/
  | txFrame
  /-- The receiver delivers a byte (R185, R186): any byte, whatever sent it (R74, R84). -/
  | rx (b : Byte)
  /-- The receiver delivers these bytes, one after another, with no other move between (log 10). -/
  | rxFrame (bytes : List Byte)
  /-- One tick of the timeout engine (R188). -/
  | tick
  /-- A byte and a tick that fall together (R190 (b), D12); the parameter `completionFirst` orders them (log 16). -/
  | rxTick (b : Byte)
  /-- The serial port reports a fault with an opaque cause (R189). -/
  | linkfault (cause : Byte)
  /-- Reset (70_reset_and_hazards.md R330). -/
  | reset
  /-- The reference device acts on the `k`-th request on the line, counted from the newest (20_memory.md R76, R78). -/
  | deviceAct (k : Nat)
  /-- The receiver delivers the oldest byte in flight (R37 (c)). -/
  | rxLine
  /-- The oldest byte in flight is lost on the line. -/
  | lineLoses
  /-- A register of the device changes by itself, or by an abandoned request (R72, R78, R339). -/
  | deviceChange (addr value : Word)
  /-- The bus address the device answers to changes by itself, or by an abandoned request (R72, R343). -/
  | deviceReaddress (sa : Byte)
deriving DecidableEq, Repr

/-- The machine's state: the block's tuple of R20, the environment's state of R37, and the model's own fields. -/
structure State where
  /-- The parameters (00_scope.md R7); no step changes them. -/
  cfg : Config
  /-- `TIMEOUT` (R21). -/
  timeout : BitVec 32
  /-- `SLAVE_ADDR` (R22); no value until `saValid`. -/
  slaveAddr : Byte
  /-- `SA_VALID` (R22). -/
  saValid : Bool
  /-- `PHASE` (R23). -/
  phase : Phase
  /-- `CUR_OP` (R24). -/
  curOp : Op
  /-- `CUR_SA` (R24). -/
  curSa : Byte
  /-- `CUR_REG` (R24), read by the host as `CTX_REG`. -/
  curReg : Word
  /-- `CUR_ARG` (R24), read by the host as `CTX_VAL`. -/
  curArg : Word
  /-- `CUR_TO` (R24). -/
  curTo : BitVec 32
  /-- The model's own: an exchange command has been accepted since reset, so the operand latches hold a value (R41). -/
  ctxValid : Bool
  /-- `ELAPSED` (R25). -/
  elapsed : BitVec 32
  /-- `TXBUF` (R26), eight bytes. -/
  txbuf : List Byte
  /-- `TXIDX` (R26). -/
  txidx : BitVec 4
  /-- `RXBUF` (R27): the bytes held; `RXLEN` is their number. -/
  rxbuf : List Byte
  /-- `DONE` (R28), also the output line `done` (R302). -/
  done : Bool
  /-- `ERRF` (R28). -/
  errf : Bool
  /-- `ERR` (R29). -/
  err : Byte
  /-- `SUB` (R29). -/
  sub : Byte
  /-- `EXC` (R30). -/
  exc : Byte
  /-- `LINK_CAUSE` (R31). -/
  linkCause : Byte
  /-- `RDATA` (R32): the entries that hold a value; `RCOUNT` is their number. -/
  rdata : List Word
  /-- `RVAL` (R33); no value unless `rvalValid`. -/
  rval : BitVec 32
  /-- The model's own: `RVAL` holds a value (R33, R41). -/
  rvalValid : Bool
  /-- `RINFO` (R33). -/
  rinfo : BitVec 3
  /-- The model's own: what the host's last register read returned. -/
  hostData : BitVec 32
  /-- The reference device (R37 (a), R76). -/
  device : Device
  /-- The requests put on the line, newest first (R37 (b)). -/
  sent : List Request
  /-- Bytes on their way to the block (R37 (c)). -/
  inFlight : List Byte
  /-- The model's own: the moves still to come, oldest first (log 4). -/
  inputs : List Input
deriving DecidableEq, Repr

/-- The state after reset (R40) of a block with these parameters, beside this device. Where R40 says "no value", the
field holds zero (log 6). DESIGN CHOICE (log 17): no request is on the line and no byte in flight, which neither R37 nor R40
says. -/
def State.powerOn (c : Config) (d : Device) : State where
  cfg := c
  timeout := BitVec.ofNat 32 (10 * c.tickHz)
  slaveAddr := 0
  saValid := false
  phase := .idle
  curOp := .read
  curSa := 0
  curReg := 0
  curArg := 0
  curTo := 0
  ctxValid := false
  elapsed := 0
  txbuf := [0, 0, 0, 0, 0, 0, 0, 0]
  txidx := 0
  rxbuf := []
  done := false
  errf := false
  err := 0
  sub := 0
  exc := 0
  linkCause := 0
  rdata := []
  rval := 0
  rvalValid := false
  rinfo := 0
  hostData := 0
  device := d
  sent := []
  inFlight := []
  inputs := []

/-- The machine right after reset (R40), with R7's parameters; the device beside it is the one of
95_test_vectors.md Part 3 (log 13). Nothing is scheduled: the block waits for a command. -/
def State.reset : State := State.powerOn Config.atReset Device.scenario

end Sys2Proof.Machine
end

