-- ==== Sys2Proof/Machine/Flags.lean ====
section
/-! DEFINITION. Flags, status and error codes: `STATUS` (10_state.md R28), the count views `RXLEN` and `RCOUNT` (R27, R32),
and the `ERR` and `SUB` numbers (60_exceptions.md R291, R292). -/

namespace Sys2Proof.Machine

/-- `BUSY` (R28): not a register of its own. -/
def State.busy (s : State) : Bool := s.phase != .idle

/-- `RXLEN` (R27). -/
def State.rxlen (s : State) : Nat := s.rxbuf.length

/-- `RCOUNT` (R32), 8 bits. -/
def State.rcount (s : State) : Byte := BitVec.ofNat 8 s.rdata.length

/-- `STATUS` (R28): bit 0 `BUSY`, bit 1 `DONE`, bit 2 `ERRF`, bit 3 `SA_VALID`, bits 7 to 4 read as 0. -/
def State.status (s : State) : Byte :=
  0#4 ++ BitVec.ofBool s.saValid ++ BitVec.ofBool s.errf ++ BitVec.ofBool s.done ++ BitVec.ofBool s.busy

/-- The reasons a command word is refused at the port (R292). -/
inductive BadCommand
  | illegalOpcode
  | reservedBits
  | notConfigured
  | badCount
  | accessDenied
deriving DecidableEq, Repr

/-- The ways a command can end in an error (R291). -/
inductive Error
  | link (cause : Byte)
  | timeout
  | frame (sub : FrameSub)
  | deviceException (code : Byte)
  | echoMismatch
  | badCommand (why : BadCommand)
deriving DecidableEq, Repr

/-- `SUB` of the error kind `Frame` (R292). -/
def FrameSub.code : FrameSub → Byte
  | .length => 1
  | .crc => 2
  | .address => 3
  | .function => 4
  | .byteCount => 5

/-- `SUB` of the error kind `BadCommand` (R292). -/
def BadCommand.code : BadCommand → Byte
  | .illegalOpcode => 1
  | .reservedBits => 2
  | .notConfigured => 3
  | .badCount => 4
  | .accessDenied => 5

/-- `ERR` (R291). -/
def Error.code : Error → Byte
  | .link _ => 1
  | .timeout => 2
  | .frame _ => 3
  | .deviceException _ => 4
  | .echoMismatch => 5
  | .badCommand _ => 6

/-- `SUB` after an error (R29, R292): 0 for the kinds that have no sub-reason. -/
def Error.subCode : Error → Byte
  | .frame sub => sub.code
  | .badCommand why => why.code
  | .link _ | .timeout | .deviceException _ | .echoMismatch => 0

/-- `EXC` after an error (R30). -/
def Error.excCode : Error → Byte
  | .deviceException code => code
  | .link _ | .timeout | .frame _ | .echoMismatch | .badCommand _ => 0

/-- `LINK_CAUSE` after an error (R31). -/
def Error.linkCode : Error → Byte
  | .link cause => cause
  | .timeout | .frame _ | .deviceException _ | .echoMismatch | .badCommand _ => 0

end Sys2Proof.Machine
end

