-- ==== Sys2Proof/Machine/Ops.lean ====
section
/-! DEFINITION. The shared operations over State: command acceptance and error completion (the block's return from and
entry to an error, 60_exceptions.md R296, R300), and the steps of an exchange (41_transport.md R181 to R189). -/

namespace Sys2Proof.Machine

/-- These moves still to come. -/
def State.withInputs (l : List Input) (s : State) : State := { s with inputs := l }

/-- The result registers cleared at acceptance of any command (R171): also the recovery from an error (R300). `RDATA`
and `RVAL` hold no value afterwards. -/
def State.cleared (s : State) : State :=
  { s with
    done := false, errf := false, err := 0, sub := 0, exc := 0, linkCause := 0, rdata := [], rvalValid := false,
    rinfo := 0 }

/-- ERROR COMPLETION (R296), the block's trap entry: the result registers say why (R291, R292), `ERRF` and `DONE` rise,
no register value is left in `RDATA`, the sequencer is idle. Nothing else changes. -/
def State.raise (e : Error) (s : State) : State :=
  { s with
    err := e.code, sub := e.subCode, exc := e.excCode, linkCause := e.linkCode, errf := true, done := true, rdata := [],
    phase := .idle }

/-- Completion without error: `ERR <- 0`, `ERRF <- 0`, `DONE <- 1`, with these values in `RDATA` (R187, R28). -/
def State.succeed (values : List Word) (s : State) : State :=
  { s with err := 0, errf := false, done := true, rdata := values, phase := .idle }

/-- Completion with a scalar result (R33). -/
def State.answer (v : BitVec 32) (info : BitVec 3) (s : State) : State :=
  { s with rval := v, rvalValid := true, rinfo := info, done := true }

/-- `refuse R` (R171): the command is not executed, no byte is sent. -/
def State.refuse (why : BadCommand) (s : State) : State := s.raise (.badCommand why)

/-- Step `START` (R181). -/
def State.start (op : Op) (reg arg : Word) (s : State) : State :=
  { s with
    curOp := op, curSa := s.slaveAddr, curReg := reg, curArg := arg, curTo := s.timeout, ctxValid := true,
    elapsed := 0, txidx := 0, rxbuf := [], txbuf := encRequest s.cfg op s.slaveAddr reg arg, phase := .tx }

/-- Acceptance (R171): the port is ready exactly in `IDLE`; there the result registers are cleared and the command runs;
otherwise the host waits and nothing changes. -/
def atPort (run : State → State) (s : State) : Host.Outcome State Fault Refusal :=
  if s.phase = .idle then .next (run s.cleared) else .next s

/-- The check `NotConfigured` (R172 to R175, R177). -/
def configured (run : State → State) (s : State) : State :=
  if s.saValid then run s else s.refuse .notConfigured

/-- The check `BadCount` (R172, R174, D15). -/
def countInRange (count : Word) (run : State → State) (s : State) : State :=
  if 1 ≤ count.toNat ∧ count.toNat ≤ s.cfg.maxReadCount then run s else s.refuse .badCount

/-- The check `AccessDenied` (R174, R175, R226): made only where `ROM_ENFORCE_ACCESS`. -/
def accessAllowed (idx : BitVec 4) (forbidden : Access) (run : State → State) (s : State) : State :=
  if (romEntry s.cfg idx).access = forbidden ∧ s.cfg.romEnforceAccess = true then s.refuse .accessDenied else run s

/-- A byte put on the line: it opens a new request, or continues the newest (R37 (b)). -/
def putByte (fresh : Bool) (b : Byte) (l : List Request) : List Request :=
  if fresh then ⟨[b], false⟩ :: l else
    match l with
    | [] => [⟨[b], false⟩]
    | r :: rest => { r with bytes := r.bytes ++ [b] } :: rest

/-- The transmit side moved on: what is on the line, `TXIDX`, `PHASE` (R182). -/
def State.sentTo (sent : List Request) (idx : BitVec 4) (phase : Phase) (s : State) : State :=
  { s with sent := sent, txidx := idx, phase := phase }

/-- Step `TXBYTE` (R182), when the transmitter can take a byte: nothing where it is not enabled. -/
def State.txByte (s : State) : State :=
  if s.phase = .tx ∧ s.cfg.txGuardTicks ≤ s.elapsed then
    s.sentTo (putByte (s.txidx == 0) (s.txbuf.getD s.txidx.toNat 0) s.sent) (s.txidx + 1)
      (if s.txidx + 1 = 8 then .rx else .tx)
  else s

/-- `TXBYTE` steps, one after another. -/
def State.txBytes : Nat → State → State
  | 0, s => s
  | n + 1, s => State.txBytes n s.txByte

/-- The rest of a request frame put on the line: eight readinesses of the transmitter, of which those beyond the eighth
byte find nothing to send. -/
def State.txFrame (s : State) : State := s.txBytes 8

/-- The block puts this request frame on the line, where it is the frame it has built (R75, R105: it never sends
another). -/
def State.sendRequest (frame : List Byte) (s : State) : State := if s.txbuf = frame then s.txFrame else s

/-- Step `COMPLETE` (R187). -/
def State.complete (s : State) : State :=
  match dec s.cfg s.curOp s.curSa s.curReg s.curArg s.rxbuf with
  | .okRead values => s.succeed values
  | .okWrite => s.succeed []
  | .frame sub => s.raise (.frame sub)
  | .deviceException code => s.raise (.deviceException code)
  | .echoMismatch => s.raise .echoMismatch

/-- The condition under which `RXBYTE` completes the response (R185). -/
def State.responseComplete (s : State) : Bool :=
  decide (2 ≤ s.rxbuf.length) && s.rxbuf.length == explen s.curOp s.curArg (s.rxbuf.getD 1 0)

/-- `RXBUF` holding these bytes. -/
def State.withRx (bytes : List Byte) (s : State) : State := { s with rxbuf := bytes }

/-- A received byte put into `RXBUF`, `RXLEN` one more, without a condition, as R185 has it. DESIGN CHOICE (log 23): that holds also where
`RX_MAX` is smaller than a write response (`MAX_READ_COUNT` 1: 7 bytes against 8) or `RXLEN` too narrow for the count (126, 127); for
2 to 125 every response fits both. -/
def State.store (b : Byte) (s : State) : State := s.withRx (s.rxbuf ++ [b])

/-- Steps `RXBYTE` (R185) and `RXDROP` (R186): a byte the receiver delivers. -/
def State.rxByte (b : Byte) (s : State) : State :=
  if s.phase = .rx then (if (s.store b).responseComplete then (s.store b).complete else s.store b) else s

/-- Bytes the receiver delivers, in order. -/
def State.rxBytes : List Byte → State → State
  | [], s => s
  | b :: bs, s => State.rxBytes bs (s.rxByte b)

/-- `ELAPSED <- ELAPSED + 1` (R188). -/
def State.count (s : State) : State := { s with elapsed := s.elapsed + 1 }

/-- Step `TICK` (R188): expiry is evaluated after the increment. -/
def State.tick (s : State) : State :=
  if s.phase = .idle then s else if s.curTo ≤ s.elapsed + 1 then s.count.raise .timeout else s.count

/-- A byte and a tick that fall together (R190 (b), D12). -/
def State.rxTick (b : Byte) (s : State) : State :=
  if s.cfg.completionFirst then (s.rxByte b).tick else s.tick.rxByte b

/-- Step `LINKFAULT` (R189). -/
def State.linkFault (cause : Byte) (s : State) : State :=
  if s.phase = .idle then s else s.raise (.link cause)

/-- Reset (R330, R40): the block's own state returns to its reset values, without any result being reported. The
parameters, the device, what is on the line, what the host last read and the moves to come are not the block's. -/
def State.resetBlock (s : State) : State :=
  { State.powerOn s.cfg s.device with
    hostData := s.hostData, sent := s.sent, inFlight := s.inFlight, inputs := s.inputs }

/-- The `k`-th request marked as acted on. -/
def markActed : Nat → List Request → List Request
  | _, [] => []
  | 0, r :: rest => { r with acted := true } :: rest
  | k + 1, r :: rest => r :: markActed k rest

/-- The reference device acts on the `k`-th request, counted from the newest (R76, R78): on a complete one, and once.
Its answer is in flight afterwards. -/
def State.deviceAct (k : Nat) (s : State) : State :=
  match s.sent[k]? with
  | some r =>
    if r.bytes.length = 8 ∧ r.acted = false then
      let (d, answer) := s.device.onRequest s.cfg r.bytes
      { s with device := d, sent := markActed k s.sent, inFlight := s.inFlight ++ answer }
    else s
  | none => s

/-- The receiver delivers the oldest byte in flight (R37 (c)). -/
def State.rxLine (s : State) : State :=
  match s.inFlight with
  | [] => s
  | b :: rest => State.rxByte b { s with inFlight := rest }

/-- The oldest byte in flight is lost. -/
def State.lineLoses (s : State) : State := { s with inFlight := s.inFlight.drop 1 }

/-- A register of the device changes by itself (R72, R339). DESIGN CHOICE (log 13): the bus address the device answers to stays,
also where the register is 0x0002; it changes by `deviceReaddress`. -/
def State.deviceChange (addr value : Word) (s : State) : State :=
  { s with device := { s.device with regs := s.device.regs.write addr.toNat value } }

/-- The device answers to another bus address from now on, by itself: after its own reset (R343) or an abandoned write (R78).
DESIGN CHOICE (log 13): its register 0x0002 stays. -/
def State.deviceReaddress (sa : Byte) (s : State) : State := { s with device := { s.device with addr := sa } }

end Sys2Proof.Machine
end

