-- ==== Sys2Proof/Machine/Exchange.lean ====
section
/-! DEFINITION. The exchange commands (41_transport.md R172 to R175). Each checks in the order of 60_exceptions.md R297 and
then starts its exchange; what follows are the steps of Ops. -/

namespace Sys2Proof.Machine

/-- `RDHR addr, count` (R172). -/
def execRdhr (addr count : Word) (s : State) : Host.Outcome State Fault Refusal :=
  atPort (configured (countInRange count (State.start .read addr count))) s

/-- `WRSR addr, value` (R173). -/
def execWrsr (addr value : Word) (s : State) : Host.Outcome State Fault Refusal :=
  atPort (configured (State.start .write addr value)) s

/-- `RDREG idx, count` (R174). -/
def execRdreg (idx : BitVec 4) (count : Word) (s : State) : Host.Outcome State Fault Refusal :=
  atPort (configured (countInRange count (accessAllowed idx .w (State.start .read (romEntry s.cfg idx).addr count)))) s

/-- `WRREG idx, value` (R175). -/
def execWrreg (idx : BitVec 4) (value : Word) (s : State) : Host.Outcome State Fault Refusal :=
  atPort (configured (accessAllowed idx .r (State.start .write (romEntry s.cfg idx).addr value))) s

end Sys2Proof.Machine
end

