-- ==== Sys2Proof/WellFormed.lean ====
section
/-! DEFINITION. Which terms are instructions of the table. Every operand of a fixed-length row has exactly the width of
its field, so only the read response needs a check: it carries `N` values, `1 ≤ N ≤ MAX_READ_COUNT` (opcode_table.json
row FRAME.RDRSP; 30_encoding.md R95, R96). A frame's checksum and byte-count are operands like any other: what is wrong
with a frame that carries the wrong ones is judged by the parser (R139), not by its shape. -/

namespace Sys2Proof

/-- The terms that stand for a command word or for a frame shape of R93 to R98. -/
def Instr.wf (c : Config) : Instr → Bool
  | .frameRdrsp _ _ values _ => decide (1 ≤ values.length) && decide (values.length ≤ c.maxReadCount)
  | .rdhr _ _ | .wrsr _ _ | .rdreg _ _ | .wrreg _ _ | .setto _ | .getto | .setsa _ | .getsa
  | .lookup _ | .fanreg _ | .frameRdreq _ _ _ _ | .frameWrreq _ _ _ _ | .frameWrrsp _ _ _ _
  | .frameExcrspRd _ _ _ | .frameExcrspWr _ _ _ => true

end Sys2Proof
end

