-- ==== Sys2Proof/Decode.lean ====
section
/-! DEFINITION. Decoding and encoding (30_encoding.md). A code is a 40-bit command word, the bytes of a frame on its way to
the device, or the bytes of a frame on its way to the block: the two directions are kept apart because a write request
and its echo are the same bytes (R98). -/

namespace Sys2Proof

open Sys2Proof.Machine

/-- An encoded instruction, with the language and direction it belongs to. -/
inductive Code
  /-- A word written to `CMD` (R101). -/
  | word (w : BitVec 40)
  /-- A frame from the block to the device (R93, R94). -/
  | request (bytes : List Byte)
  /-- A frame from the device to the block (R95, R97, R98). -/
  | response (bytes : List Byte)
deriving DecidableEq, Repr

/-- Why a code is not an instruction. -/
inductive DecodeError
  /-- The opcode names no command (R103). -/
  | illegalOpcode
  /-- A 1 in a bit the table says is zero (R103). -/
  | reservedBits
  /-- The number of bytes is that of no frame of this function code (R96). -/
  | badLength
  /-- The function byte is that of no frame in this direction (R104, R105). -/
  | unknownFunction
deriving DecidableEq, Repr

/-- Field `op` of a command word (R101). -/
def cmdOp (w : BitVec 40) : Byte := w.extractLsb' 32 8

/-- Field `a` of a command word (R101). -/
def cmdA (w : BitVec 40) : Word := w.extractLsb' 16 16

/-- Field `b` of a command word (R101). -/
def cmdB (w : BitVec 40) : Word := w.extractLsb' 0 16

/-- Field `arg32` of a command word (R101). -/
def cmdArg32 (w : BitVec 40) : BitVec 32 := w.extractLsb' 0 32

/-- The command word with these fields (R101). -/
def cmdWord (op : Byte) (a b : Word) : BitVec 40 := op ++ a ++ b

/-- An instruction where the bits that carry no operand are zero (R103, D27). -/
def unlessReserved (zero : Bool) (i : Instr) : Except DecodeError Instr := if zero then .ok i else .error .reservedBits

/-- Decode a command word (R102, R103). -/
def decodeWord (w : BitVec 40) : Except DecodeError Instr :=
  let a := cmdA w
  let b := cmdB w
  let idx : BitVec 4 := a.extractLsb' 0 4
  match (cmdOp w).toNat with
  | 0x01 => .ok (.rdhr a b)
  | 0x02 => .ok (.wrsr a b)
  | 0x03 => unlessReserved (a.extractLsb' 4 12 == 0) (.rdreg idx b)
  | 0x04 => unlessReserved (a.extractLsb' 4 12 == 0) (.wrreg idx b)
  | 0x05 => .ok (.setto (cmdArg32 w))
  | 0x06 => unlessReserved (a == 0 && b == 0) .getto
  | 0x07 => unlessReserved (a == 0 && hi8 b == 0) (.setsa (lo8 b))
  | 0x08 => unlessReserved (a == 0 && b == 0) .getsa
  | 0x09 => unlessReserved (a.extractLsb' 4 12 == 0 && b == 0) (.lookup idx)
  | 0x0A => unlessReserved (a == 0 && hi8 b == 0) (.fanreg (lo8 b))
  | _ => .error .illegalOpcode

/-- Decode a frame from the block to the device (R93, R94, R105). -/
def decodeRequest (c : Config) : List Byte → Except DecodeError Instr
  | [sa, f, r1, r0, v1, v0, c0, c1] =>
    if f = c.fnRead then .ok (.frameRdreq sa (fromBe16 r1 r0) (fromBe16 v1 v0) (fromLe16 c0 c1))
    else if f = c.fnWrite then .ok (.frameWrreq sa (fromBe16 r1 r0) (fromBe16 v1 v0) (fromLe16 c0 c1))
    else .error .unknownFunction
  | _ => .error .badLength

/-- Decode the bytes of a read response after its function byte (R95): byte-count, `N` values, checksum. -/
def decodeReadResponse (c : Config) (sa : Byte) : List Byte → Except DecodeError Instr
  | bc :: rest =>
    let n := (rest.length - 2) / 2
    if rest.length = 2 * n + 2 ∧ 1 ≤ n ∧ n ≤ c.maxReadCount then
      .ok (.frameRdrsp sa bc (bytesWords (rest.take (2 * n)))
        (fromLe16 (rest.getD (2 * n) 0) (rest.getD (2 * n + 1) 0)))
    else .error .badLength
  | [] => .error .badLength

/-- Decode the bytes of an exception response after its function byte (R97). -/
def decodeException (make : Byte → Word → Instr) : List Byte → Except DecodeError Instr
  | [e, c0, c1] => .ok (make e (fromLe16 c0 c1))
  | _ => .error .badLength

/-- Decode the bytes of a write response after its function byte (R98). -/
def decodeWriteResponse (sa : Byte) : List Byte → Except DecodeError Instr
  | [r1, r0, v1, v0, c0, c1] =>
    .ok (.frameWrrsp sa (fromBe16 r1 r0) (fromBe16 v1 v0) (fromLe16 c0 c1))
  | _ => .error .badLength

/-- Decode a frame from the device to the block (R95, R97, R98, R104): the function byte says which shape. -/
def decodeResponse (c : Config) : List Byte → Except DecodeError Instr
  | sa :: f :: rest =>
    if f = c.fnRead then decodeReadResponse c sa rest
    else if f = c.fnWrite then decodeWriteResponse sa rest
    else if f = excFn c.fnRead then decodeException (.frameExcrspRd sa) rest
    else if f = excFn c.fnWrite then decodeException (.frameExcrspWr sa) rest
    else .error .unknownFunction
  | _ => .error .badLength

/-- Decode any code: total, rejecting by name. -/
def decode (c : Config) : Code → Except DecodeError Instr
  | .word w => decodeWord w
  | .request bytes => decodeRequest c bytes
  | .response bytes => decodeResponse c bytes

/-- The code of an instruction, from the same tables (R93 to R98, R101, R102). -/
def encode (c : Config) : Instr → Code
  | .rdhr addr count => .word (cmdWord 0x01 addr count)
  | .wrsr addr value => .word (cmdWord 0x02 addr value)
  | .rdreg idx count => .word (cmdWord 0x03 (idx.setWidth 16) count)
  | .wrreg idx value => .word (cmdWord 0x04 (idx.setWidth 16) value)
  | .setto ticks => .word (0x05#8 ++ ticks)
  | .getto => .word (cmdWord 0x06 0 0)
  | .setsa sa => .word (cmdWord 0x07 0 (sa.setWidth 16))
  | .getsa => .word (cmdWord 0x08 0 0)
  | .lookup idx => .word (cmdWord 0x09 (idx.setWidth 16) 0)
  | .fanreg i => .word (cmdWord 0x0A 0 (i.setWidth 16))
  | .frameRdreq sa reg count crc => .request ([sa, c.fnRead] ++ be16 reg ++ be16 count ++ le16 crc)
  | .frameWrreq sa reg value crc => .request ([sa, c.fnWrite] ++ be16 reg ++ be16 value ++ le16 crc)
  | .frameRdrsp sa byteCount values crc => .response ([sa, c.fnRead, byteCount] ++ wordsBytes values ++ le16 crc)
  | .frameWrrsp sa reg value crc => .response ([sa, c.fnWrite] ++ be16 reg ++ be16 value ++ le16 crc)
  | .frameExcrspRd sa code crc => .response ([sa, excFn c.fnRead, code] ++ le16 crc)
  | .frameExcrspWr sa code crc => .response ([sa, excFn c.fnWrite, code] ++ le16 crc)

/-- The bytes of a code, in the order they are stored or sent (a word's most significant byte first, R108). -/
def Code.bytes : Code → List Byte
  | .word w => bytesOfNat 5 w.toNat
  | .request bytes => bytes
  | .response bytes => bytes

/-- The bytes of an encoded instruction. -/
def encodeBytes (c : Config) (i : Instr) : List Byte := (encode c i).bytes

/-- Does this code decode. -/
def decodes (c : Config) (k : Code) : Bool :=
  match decode c k with
  | .ok _ => true
  | .error _ => false

/-- The code that an instruction of `nbits` bits `w` of opcode_table.json stands for (log 11). The table numbers a frame's
bits with the first byte on top. 40 bits are an exception response where the second byte says so, else a command word
where the opcode says so; 64 bits a request. The row of a read response fixes its first two bytes only: what is too short
for one is taken with zeros up to the shortest, which carries one value. -/
def tableCode (nbits w : Nat) : Code :=
  let bytes := bytesOfNat (nbits / 8) w
  let padded := bytes ++ List.replicate (7 - bytes.length) 0
  let reads := decodes (Config.standard false)
  if nbits = 40 then
    if reads (.response bytes) then .response bytes
    else if reads (.word (BitVec.ofNat 40 w)) || !reads (.response padded) then .word (BitVec.ofNat 40 w)
    else .response padded
  else if reads (.request bytes) then .request bytes
  else if reads (.response bytes) then .response bytes
  else .response padded

/-- The instruction the decoder reads from `nbits` bits `w`, numbered as opcode_table.json numbers them, with the default
function codes of R7 (log 11). -/
def decodeTableWord (nbits w : Nat) : Option Instr := (decode (Config.standard false) (tableCode nbits w)).toOption

end Sys2Proof
end

