-- ==== Sys2Proof/Machine/Frames.lean ====
section
/-! DEFINITION. The wire frames as instructions (opcode_table.json, space `wire`; log 10). A request frame is what the
sequencer fetches from `TXBUF`: it goes out by `TXBYTE` steps (41_transport.md R182). A response frame is delivered by the
receiver: every byte is an `RXBYTE` or an `RXDROP`, and the byte that completes the expected length parses (R185 to R187). -/

namespace Sys2Proof.Machine

/-- A read request goes out (R134, R182). -/
def execFrameRdreq (sa : Byte) (reg count crc : Word) (s : State) : Host.Outcome State Fault Refusal :=
  .next (s.sendRequest (encodeBytes s.cfg (.frameRdreq sa reg count crc)))

/-- A write request goes out (R135, R182). -/
def execFrameWrreq (sa : Byte) (reg value crc : Word) (s : State) : Host.Outcome State Fault Refusal :=
  .next (s.sendRequest (encodeBytes s.cfg (.frameWrreq sa reg value crc)))

/-- A read response is received (R140, R185). -/
def execFrameRdrsp (sa byteCount : Byte) (values : List Word) (crc : Word) (s : State) :
    Host.Outcome State Fault Refusal :=
  .next (s.rxBytes (encodeBytes s.cfg (.frameRdrsp sa byteCount values crc)))

/-- A write response is received (R141, R185). -/
def execFrameWrrsp (sa : Byte) (reg value crc : Word) (s : State) : Host.Outcome State Fault Refusal :=
  .next (s.rxBytes (encodeBytes s.cfg (.frameWrrsp sa reg value crc)))

/-- An exception response to a read is received (R142, R185). -/
def execFrameExcrspRd (sa code : Byte) (crc : Word) (s : State) : Host.Outcome State Fault Refusal :=
  .next (s.rxBytes (encodeBytes s.cfg (.frameExcrspRd sa code crc)))

/-- An exception response to a write is received (R142, R185). -/
def execFrameExcrspWr (sa code : Byte) (crc : Word) (s : State) : Host.Outcome State Fault Refusal :=
  .next (s.rxBytes (encodeBytes s.cfg (.frameExcrspWr sa code crc)))

end Sys2Proof.Machine
end

