-- ==== Sys2Proof/Machine/RomCommands.lean ====
section
/-! DEFINITION. The ROM commands (42_register_rom.md R222, R223): no I/O, no dependence on `SLAVE_ADDR`. -/

namespace Sys2Proof.Machine

/-- `RINFO` of a lookup that yields an address (R33): bit 2 `PRESENT`, bits 1:0 the access mode. -/
def presentInfo (m : Access) : BitVec 3 := 1#1 ++ m.code

/-- `LOOKUP idx` (R222). -/
def execLookup (idx : BitVec 4) (s : State) : Host.Outcome State Fault Refusal :=
  atPort (fun t => t.answer ((romEntry s.cfg idx).addr.setWidth 32) (presentInfo (romEntry s.cfg idx).access)) s

/-- `FANREG i` (R223): absent outside 1 to 4, and then `RVAL` holds no value. -/
def execFanreg (i : Byte) (s : State) : Host.Outcome State Fault Refusal :=
  atPort (fun t =>
    match fanRegister i with
    | some a => t.answer (a.setWidth 32) (presentInfo .r)
    | none => { t with rinfo := 0, done := true }) s

end Sys2Proof.Machine
end

