-- ==== Sys2Proof/Machine/Session.lean ====
section
/-! DEFINITION. The session commands (41_transport.md R176 to R179): no I/O. -/

namespace Sys2Proof.Machine

/-- `SETTO ticks` (R178). -/
def execSetto (ticks : BitVec 32) (s : State) : Host.Outcome State Fault Refusal :=
  atPort (fun t => { t with timeout := timeoutBits t.cfg ticks, done := true }) s

/-- `GETTO` (R179). -/
def execGetto (s : State) : Host.Outcome State Fault Refusal :=
  atPort (fun t => t.answer t.timeout 0) s

/-- `SETSA sa` (R176): every value is accepted. -/
def execSetsa (sa : Byte) (s : State) : Host.Outcome State Fault Refusal :=
  atPort (fun t => { t with slaveAddr := sa, saValid := true, done := true }) s

/-- `GETSA` (R177). -/
def execGetsa (s : State) : Host.Outcome State Fault Refusal :=
  atPort (configured (fun t => t.answer (t.slaveAddr.setWidth 32) 0)) s

end Sys2Proof.Machine
end

