-- ==== Sys2Proof/Machine/Dispatch.lean ====
section
/-! DEFINITION. What each instruction does: one arm per constructor. -/

namespace Sys2Proof.Machine

def exec (i : Instr) (s : State) : Host.Outcome State Fault Refusal :=
  match i with
  | .rdhr addr count => Sys2Proof.Machine.execRdhr addr count s
  | .wrsr addr value => Sys2Proof.Machine.execWrsr addr value s
  | .rdreg idx count => Sys2Proof.Machine.execRdreg idx count s
  | .wrreg idx value => Sys2Proof.Machine.execWrreg idx value s
  | .setto ticks => Sys2Proof.Machine.execSetto ticks s
  | .getto => Sys2Proof.Machine.execGetto s
  | .setsa sa => Sys2Proof.Machine.execSetsa sa s
  | .getsa => Sys2Proof.Machine.execGetsa s
  | .lookup idx => Sys2Proof.Machine.execLookup idx s
  | .fanreg fan => Sys2Proof.Machine.execFanreg fan s
  | .frameRdreq sa reg count crc => Sys2Proof.Machine.execFrameRdreq sa reg count crc s
  | .frameWrreq sa reg value crc => Sys2Proof.Machine.execFrameWrreq sa reg value crc s
  | .frameRdrsp sa byteCount values crc => Sys2Proof.Machine.execFrameRdrsp sa byteCount values crc s
  | .frameWrrsp sa reg value crc => Sys2Proof.Machine.execFrameWrrsp sa reg value crc s
  | .frameExcrspRd sa code crc => Sys2Proof.Machine.execFrameExcrspRd sa code crc s
  | .frameExcrspWr sa code crc => Sys2Proof.Machine.execFrameExcrspWr sa code crc s

end Sys2Proof.Machine
end

