-- ==== Sys2Proof/Machine/HostPort.lean ====
section
/-! DEFINITION. The host's reads of result registers (10_state.md R38, R41). -/

namespace Sys2Proof.Machine

/-- A read of an element that may hold no value (R41): the value, or the fault of the host program. -/
def readIf (number : Nat) (valid : Bool) (v : BitVec 32) : Host.Outcome (BitVec 32) Fault Refusal :=
  if valid then .next v else .fault (.noValue number)

/-- What a host read of a register number returns (R38), zero-extended. `CMD` is write-only. -/
def State.hostRead (number : Nat) (s : State) : Host.Outcome (BitVec 32) Fault Refusal :=
  match number with
  | 0 => .refused (.noHostRegister 0)
  | 1 => .next (s.status.setWidth 32)
  | 2 => .next (s.err.setWidth 32)
  | 3 => .next (s.sub.setWidth 32)
  | 4 => .next (s.exc.setWidth 32)
  | 5 => .next (s.linkCause.setWidth 32)
  | 6 => .next (s.rcount.setWidth 32)
  | 7 => readIf 7 s.rvalValid s.rval
  | 8 => .next (s.rinfo.setWidth 32)
  | 9 => readIf 9 s.ctxValid (s.curReg.setWidth 32)
  | 10 => readIf 10 s.ctxValid (s.curArg.setWidth 32)
  | n =>
    if 256 ≤ n ∧ n < 256 + s.cfg.maxReadCount then
      readIf n (decide (n - 256 < s.rdata.length)) ((s.rdata.getD (n - 256) 0).setWidth 32)
    else .refused (.noHostRegister n)

end Sys2Proof.Machine
end

