-- ==== Sys2Proof/Machine/Inputs.lean ====
section
/-! DEFINITION. What one move of an agent does (00_scope.md R11; 41_transport.md R195), and where the machine fetches its
instructions: command words at the port, request frames in `TXBUF`, response frames from the receiver. -/

namespace Sys2Proof.Machine

/-- The refusal of a word that does not decode (R103, R171). -/
def refuseWord (e : DecodeError) (s : State) : Host.Outcome State Fault Refusal :=
  match e with
  | .reservedBits => atPort (State.refuse .reservedBits) s
  | .illegalOpcode | .badLength | .unknownFunction => atPort (State.refuse .illegalOpcode) s

/-- A command word at the port (R171). -/
def runWord (w : BitVec 40) (s : State) : Host.Outcome State Fault Refusal :=
  match decode s.cfg (.word w) with
  | .ok i => exec i s
  | .error e => refuseWord e s

/-- The transmitter takes the request frame in `TXBUF`. Bytes that are no request frame are sent alike. -/
def runRequest (s : State) : Host.Outcome State Fault Refusal :=
  match decode s.cfg (.request s.txbuf) with
  | .ok i => exec i s
  | .error _ => .next s.txFrame

/-- The receiver delivers the bytes of a frame. Bytes that are no response frame are delivered alike (R104). -/
def runResponse (bytes : List Byte) (s : State) : Host.Outcome State Fault Refusal :=
  match decode s.cfg (.response bytes) with
  | .ok i => exec i s
  | .error _ => .next (s.rxBytes bytes)

/-- A host read: no side effect on the block (R38); the host holds the value afterwards (log 8). -/
def runHostRead (number : Nat) (s : State) : Host.Outcome State Fault Refusal :=
  match s.hostRead number with
  | .next v => .next { s with hostData := v }
  | .fault r => .fault r
  | .refused r => .refused r

/-- One move. -/
def runInput (e : Input) (s : State) : Host.Outcome State Fault Refusal :=
  match e with
  | .hostWrite number w => if number = 0 then runWord w s else .refused (.noHostRegister number)
  | .hostRead number => runHostRead number s
  | .txReady => .next s.txByte
  | .txFrame => runRequest s
  | .rx b => .next (s.rxByte b)
  | .rxFrame bytes => runResponse bytes s
  | .tick => .next s.tick
  | .rxTick b => .next (s.rxTick b)
  | .linkfault cause => .next (s.linkFault cause)
  | .reset => .next s.resetBlock
  | .deviceAct k => .next (s.deviceAct k)
  | .rxLine => .next s.rxLine
  | .lineLoses => .next s.lineLoses
  | .deviceChange addr value => .next (s.deviceChange addr value)
  | .deviceReaddress sa => .next (s.deviceReaddress sa)

/-- The next move. With none scheduled the machine waits (70_reset_and_hazards.md R331, 60_exceptions.md R315). -/
def runNext (s : State) : Host.Outcome State Fault Refusal :=
  match s.inputs with
  | [] => .next s
  | e :: rest => runInput e (s.withInputs rest)

/-- An exchange for bus address `sa` just started by step `START`. -/
def State.exchanging (op : Op) (sa : Byte) (reg arg : Word) (s : State) : State :=
  State.start op reg arg { s.cleared with slaveAddr := sa, saValid := true }

/-- A code put where the machine fetches it next (log 12): a command word at the port; a request frame in `TXBUF`, of an
exchange with the frame's fields that has just started, the guard interval over; a response frame at the receiver, in an
exchange with the frame's fields whose request has gone out. -/
def State.place (k : Code) (s : State) : State :=
  let field := fun (bytes : List Byte) j => fromBe16 (bytes.getD j 0) (bytes.getD (j + 1) 0)
  match k with
  | .word w => s.withInputs (.hostWrite 0 w :: s.inputs)
  | .request bytes =>
    let op := if bytes.getD 1 0 = s.cfg.fnWrite then Op.write else Op.read
    { s.exchanging op (bytes.getD 0 0) (field bytes 2) (field bytes 4) with
      txbuf := bytes, elapsed := s.cfg.txGuardTicks, inputs := .txFrame :: s.inputs }
  | .response bytes =>
    let isWrite := bytes.getD 1 0 = s.cfg.fnWrite ∨ bytes.getD 1 0 = excFn s.cfg.fnWrite
    let count := if bytes.length = 5 then 1 else BitVec.ofNat 16 ((bytes.length - 5) / 2)
    let t := if isWrite then s.exchanging .write (bytes.getD 0 0) (field bytes 2) (field bytes 4)
      else s.exchanging .read (bytes.getD 0 0) 0 count
    (t.sentTo (⟨t.txbuf, false⟩ :: t.sent) 8 .rx).withInputs (.rxFrame bytes :: s.inputs)

end Sys2Proof.Machine
end

