-- ==== Sys2Proof/Machine/Step.lean ====
section
/-! DEFINITION. One step: the next scheduled move, and where an instruction is put so that the next step runs it. -/

namespace Sys2Proof.Machine

/-- One step of the machine (41_transport.md R195): the oldest move in `inputs`. -/
def step (s : State) : Host.Outcome State Fault Refusal := runNext s

/-- `s` with the instruction of `nbits` bits `w` (numbered as opcode_table.json numbers them) where the next step fetches
it (log 11, log 12). -/
def State.withFetchWord (s : State) (nbits w : Nat) : State := s.place (tableCode nbits w)

end Sys2Proof.Machine
end

