-- ==== Sys2Proof/Machine/HostSoftware.lean ====
section
/-! DEFINITION. The host software outside the block (43_host_software.md): the value codec (R250 to R257) and the
controller client's validation and operations (R259 to R270), as pure functions. The block implements none of it (00_scope.md
R5); an operation is a list of commands the host presents one after another, the first error ending it (D35).
DESIGN CHOICE (log 21): temperatures and the arguments of the operations are integers without a bound, so no computation of theirs
overflows; the source does not name its integer types (R251). -/

namespace Sys2Proof.Machine

/-! ### Value codec -/

/-- `celsius_to_register` (R250): `c + 40` truncated to 16 bits. -/
def celsiusToRegister (c : Int) : Word := BitVec.ofInt 16 (c + 40)

/-- `register_to_celsius` (R251): a signed result. -/
def registerToCelsius (r : Word) : Int := r.toNat - 40

/-- `celsius_to_fahrenheit` (R252): the division truncates toward zero (D34). -/
def celsiusToFahrenheit (c : Int) : Int := Int.tdiv (c * 9) 5 + 32

/-- The unit tag of a temperature (R258). -/
inductive TemperatureUnit
  | celsius
  | fahrenheit
deriving DecidableEq, Repr

/-- Temperature (R258): a signed quantity and its unit. -/
structure Temperature where
  value : Int
  unit : TemperatureUnit
deriving DecidableEq, Repr

/-- A temperature register decoded (R251): Celsius. -/
def Temperature.ofRegister (r : Word) : Temperature := ⟨registerToCelsius r, .celsius⟩

/-- The same temperature in Fahrenheit, a derived unit that never goes on the wire (R252). -/
def Temperature.toFahrenheit (t : Temperature) : Temperature :=
  match t.unit with
  | .celsius => ⟨celsiusToFahrenheit t.value, .fahrenheit⟩
  | .fahrenheit => t

/-- `parse_fan_status_bitmap` (R253): entry `i` says whether fan `i + 1` is running. -/
def parseFanStatusBitmap (w : Word) : List Bool := (List.range 4).map w.getLsbD

/-- Operational status of a fan (R254, R258). -/
inductive FanStatus
  | normal
  | fault
deriving DecidableEq, Repr

/-- `parse_fan_fault_bitmap` (R254): a set bit means Normal. -/
def parseFanFaultBitmap (w : Word) : List FanStatus :=
  (List.range 4).map (fun i => if w.getLsbD i then .normal else .fault)

/-- `parse_combined_temperature` (R255): (low, high). -/
def parseCombinedTemperature (w : Word) : Int × Int := ((hi8 w).toNat - 40, (lo8 w).toNat - 40)

/-- `encode_combined_temperature` (R256): each encoded value is truncated to 8 bits before packing. -/
def encodeCombinedTemperature (low high : Int) : Word := BitVec.ofInt 8 (low + 40) ++ BitVec.ofInt 8 (high + 40)

/-- Operating mode, as register 0x0003 holds it (R257, 90_conflicts.md C3). -/
inductive FanMode
  /-- Temperature (automatic) mode. -/
  | temperature
  /-- Manual mode at this percent. -/
  | manual (percent : Word)
deriving DecidableEq, Repr

/-- Register 0x0003 decoded (R257, C3). -/
def FanMode.ofRegister (w : Word) : FanMode := if w = 0xFFFF then .temperature else .manual w

/-- The register value of a mode (R257): Manual is its percent, the bare mode being manual at 0. -/
def FanMode.register : FanMode → Word
  | .temperature => 0xFFFF
  | .manual p => p

/-- Work/ECO mode (R257). -/
inductive WorkMode
  | shutdown
  | minimumSpeed
deriving DecidableEq, Repr

/-- The register value of a work mode (R257). -/
def WorkMode.register : WorkMode → Word
  | .shutdown => 0
  | .minimumSpeed => 1

/-- Register 0x0005 decoded (R257); the source does not say what another value means (log 21). -/
def WorkMode.ofRegister (w : Word) : Option WorkMode :=
  if w = 0 then some .shutdown else if w = 1 then some .minimumSpeed else none

/-- The six PWM frequencies in hertz, in the order of their register indices 0 to 5 (R257). -/
def pwmFrequencies : List Nat := [500, 1000, 2000, 5000, 10000, 25000]

/-- Register 0x000B decoded (R257); the source does not say what a value above 5 means (log 21). -/
def pwmOfRegister (w : Word) : Option Nat := pwmFrequencies[w.toNat]?

/-- The register index of a PWM frequency: no other frequency is representable (R257). -/
def pwmIndex (hz : Nat) : Option Word := (pwmFrequencies.findIdx? (· == hz)).map (BitVec.ofNat 16)

/-! ### Validation (R262) -/

/-- The five categories of client-side validation failure (R262, 90_conflicts.md C2). -/
inductive ValidationError
  | address
  | fanIndex
  | speedPercent
  | threshold
  | fanCount
deriving DecidableEq, Repr

/-- A check made before any I/O (R259): the operation's commands, or the failure and no command at all. -/
def validated (ok : Bool) (e : ValidationError) (plan : List Instr) : Except ValidationError (List Instr) :=
  if ok then .ok plan else .error e

/-- Bus address in 1..=254 (R262). -/
def validAddress (v : Int) : Bool := decide (1 ≤ v) && decide (v ≤ 254)

/-- Fan index in 1..=4 (R262). -/
def validFanIndex (i : Int) : Bool := decide (1 ≤ i) && decide (i ≤ 4)

/-- Manual speed percent in 0..=100 (R262). -/
def validPercent (p : Int) : Bool := decide (0 ≤ p) && decide (p ≤ 100)

/-- Fan count in 0..=4 (R262). -/
def validFanCount (n : Int) : Bool := decide (0 ≤ n) && decide (n ≤ 4)

/-- A threshold in −20..=120 (R262). -/
def validTemperature (t : Int) : Bool := decide (-20 ≤ t) && decide (t ≤ 120)

/-- Both thresholds in range and high strictly above low (R262). -/
def validThresholds (low high : Int) : Bool := validTemperature low && validTemperature high && decide (low < high)

/-- A mode that may be written (R259, R262): the percent of manual mode is checked. -/
def FanMode.valid : FanMode → Bool
  | .temperature => true
  | .manual p => validPercent p.toNat

/-! ### What the client sees of a command -/

/-- An error as the client surfaces it: the error registers, and the register address and raw value of the last accepted exchange
where there was one (R291). -/
structure ClientError where
  err : Byte
  sub : Byte
  exc : Byte
  linkCause : Byte
  context : Option (Word × Word)
deriving DecidableEq, Repr

/-- The result of a completed command, as the result registers show it (R260, R261). -/
def State.clientResult (s : State) : Except ClientError (List Word) :=
  if s.err = 0 then .ok s.rdata
  else .error ⟨s.err, s.sub, s.exc, s.linkCause, if s.ctxValid then some (s.curReg, s.curArg) else none⟩

/-- How an operation of several commands stands. -/
inductive ClientOutcome (α : Type)
  /-- Every command has ended without error; the operation's result. -/
  | done (result : α)
  /-- A command has ended with this error, which ended the operation and is what it returns (D35). -/
  | failed (error : ClientError)
  /-- Results are still missing. -/
  | unfinished
deriving DecidableEq, Repr

/-- The results of the first `n` commands of an operation, in order: all of them, or the first error (R268, D35). -/
def collectResults : Nat → List (Except ClientError (List Word)) → ClientOutcome (List (List Word))
  | 0, _ => .done []
  | _ + 1, [] => .unfinished
  | _ + 1, .error e :: _ => .failed e
  | n + 1, .ok values :: rest =>
    match collectResults n rest with
    | .done more => .done (values :: more)
    | .failed e => .failed e
    | .unfinished => .unfinished

/-- The result of an operation from its commands' values; an error stays what it is. Values of another shape than the commands
ask for, which no successful read gives (R32), are no result. -/
def ClientOutcome.decode {α β : Type} (f : α → Option β) : ClientOutcome α → ClientOutcome β
  | .done a =>
    match f a with
    | some b => .done b
    | none => .unfinished
  | .failed e => .failed e
  | .unfinished => .unfinished

/-- The result of an operation that is one read of one register. -/
def decodeSingle {α : Type} (f : Word → α) (results : List (Except ClientError (List Word))) : ClientOutcome α :=
  (collectResults 1 results).decode fun
    | [[w]] => some (f w)
    | _ => none

/-! ### Operations of the client: lists of commands -/

/-- `read(register, count)` (R260). -/
def clientRead (c : Config) (n : RegName) (count : Word) : List Instr := [.rdreg (romIndex c n) count]

/-- `write(register, value)` (R261). -/
def clientWrite (c : Config) (n : RegName) (value : Word) : List Instr := [.wrreg (romIndex c n) value]

/-- What is left of an operation after its first command ended with this `ERR`: the rest, or nothing after an error
(R263, D35). -/
def planAfter (err : Byte) (plan : List Instr) : List Instr := if err = 0 then plan.drop 1 else []

/-- `set_addr(v)` (R263): write the address register, and only then update the cached address. -/
def setAddr (c : Config) (v : Int) : Except ValidationError (List Instr) :=
  validated (validAddress v) .address (clientWrite c .busAddr (BitVec.ofInt 16 v) ++ [.setsa (BitVec.ofInt 8 v)])

/-- `set_fan_speed(p)` (R264). -/
def setFanSpeed (c : Config) (p : Int) : Except ValidationError (List Instr) :=
  validated (validPercent p) .speedPercent (clientWrite c .manualSpeed (BitVec.ofInt 16 p))

/-- The read of one fan's speed: the index is checked before any address is derived from it (R262), `FANREG` gives the address (R223)
and that register is read. DESIGN CHOICE (log 21): the source names no operation that takes a fan index; this one, and its two
commands, are the model's. -/
def readFanSpeed (i : Int) : Except ValidationError (List Instr) :=
  validated (validFanIndex i) .fanIndex [.fanreg (BitVec.ofInt 8 i), .rdhr (0x0006 + BitVec.ofInt 16 i) 1]

/-- The speed, from what those two commands returned. -/
def fanSpeedOf (results : List (Except ClientError (List Word))) : ClientOutcome Word :=
  (collectResults 2 results).decode fun
    | [_, [rpm]] => some rpm
    | _ => none

/-- `set_temperature_threshold(low, high)` (R266). DESIGN CHOICE (log 21): the source does not say whether it writes the combined
register or the two (`combined` chooses), nor, of the two, which first (here the low one). -/
def setThresholds (c : Config) (combined : Bool) (low high : Int) : Except ValidationError (List Instr) :=
  validated (validThresholds low high) .threshold
    (if combined then clientWrite c .tempCombined (encodeCombinedTemperature low high)
     else clientWrite c .tempLow (celsiusToRegister low) ++ clientWrite c .tempHigh (celsiusToRegister high))

/-- Only the low threshold is changed (R266): what does not need the stored other one, the new value's range, is checked before any
I/O (R259), then the other one is read. DESIGN CHOICE (log 21): the source does not say from which register; `combined` chooses
between the combined one and the other threshold's own. -/
def setLowRead (c : Config) (combined : Bool) (low : Int) : Except ValidationError (List Instr) :=
  validated (validTemperature low) .threshold (clientRead c (if combined then .tempCombined else .tempHigh) 1)

/-- Only the low threshold is changed, after the read of the stored high one (R266). DESIGN CHOICE (log 21): the write goes to the
combined register where the read came from it, else to the low threshold's own; and the stored threshold is only compared with the new
one, its own range is not checked. -/
def setLowWrite (c : Config) (combined : Bool) (low : Int) (stored : Word) : Except ValidationError (List Instr) :=
  let high := if combined then (parseCombinedTemperature stored).2 else registerToCelsius stored
  validated (validTemperature low && decide (low < high)) .threshold
    (if combined then clientWrite c .tempCombined (encodeCombinedTemperature low high)
     else clientWrite c .tempLow (celsiusToRegister low))

/-- Only the high threshold is changed (R266): its range is checked before any I/O (R259), then the other one is read. DESIGN CHOICE
(log 21), as for `setLowRead`. -/
def setHighRead (c : Config) (combined : Bool) (high : Int) : Except ValidationError (List Instr) :=
  validated (validTemperature high) .threshold (clientRead c (if combined then .tempCombined else .tempLow) 1)

/-- Only the high threshold is changed, after the read of the stored low one (R266). DESIGN CHOICE (log 21), as for
`setLowWrite`. -/
def setHighWrite (c : Config) (combined : Bool) (high : Int) (stored : Word) : Except ValidationError (List Instr) :=
  let low := if combined then (parseCombinedTemperature stored).1 else registerToCelsius stored
  validated (validTemperature high && decide (low < high)) .threshold
    (if combined then clientWrite c .tempCombined (encodeCombinedTemperature low high)
     else clientWrite c .tempHigh (celsiusToRegister high))

/-- The setter of the fan count that R270 says there must be (log 21). -/
def setFanCount (c : Config) (n : Int) : Except ValidationError (List Instr) :=
  validated (validFanCount n) .fanCount (clientWrite c .fanCount (BitVec.ofInt 16 n))

/-- The setter of the operating mode that R270 says there must be (log 21); a manual percent is validated first (R259, R262). -/
def setMode (c : Config) (m : FanMode) : Except ValidationError (List Instr) :=
  validated m.valid .speedPercent (clientWrite c .manualSpeed m.register)

/-- The setter of the work mode that R270 says there must be (log 21). -/
def setWorkMode (c : Config) (m : WorkMode) : List Instr := clientWrite c .workMode m.register

/-- The setter of the PWM frequency that R270 says there must be (log 21): nothing for one that is not representable. -/
def setPwm (c : Config) (hz : Nat) : Option (List Instr) := (pwmIndex hz).map (clientWrite c .pwmFreq)

/-- The reset that R270 says there must be: 0x00AA to the reset register (R72, log 21). -/
def resetDevice (c : Config) : List Instr := clientWrite c .resetCmd 0x00AA

/-- The read of the operating mode (R270, log 21). -/
def readMode (c : Config) : List Instr := clientRead c .manualSpeed 1

/-- The operating mode, from what that read returned. -/
def modeOf (results : List (Except ClientError (List Word))) : ClientOutcome FanMode := decodeSingle FanMode.ofRegister results

/-- The read of the work mode (R270, log 21). -/
def readWorkMode (c : Config) : List Instr := clientRead c .workMode 1

/-- The work mode, from what that read returned; absent where the value is outside the enumeration (log 21). -/
def workModeOf (results : List (Except ClientError (List Word))) : ClientOutcome (Option WorkMode) :=
  decodeSingle WorkMode.ofRegister results

/-- The read of the fan count (R270, log 21). -/
def readFanCount (c : Config) : List Instr := clientRead c .fanCount 1

/-- The fan count, from what that read returned. DESIGN CHOICE (log 21): the whole 16-bit register as it stands, not checked against
0..=4; the source gives this read neither a width nor a range. -/
def fanCountOf (results : List (Except ClientError (List Word))) : ClientOutcome Nat := decodeSingle BitVec.toNat results

/-- The read of the PWM frequency (R270, log 21). -/
def readPwm (c : Config) : List Instr := clientRead c .pwmFreq 1

/-- The PWM frequency in hertz, from what that read returned; absent where the index is above 5 (log 21). -/
def pwmOf (results : List (Except ClientError (List Word))) : ClientOutcome (Option Nat) := decodeSingle pwmOfRegister results

/-- One entry of `fan_status` (R258). -/
structure FanInfo where
  /-- 1 to 4. -/
  index : Nat
  status : FanStatus
  rpm : Word
deriving DecidableEq, Repr

/-- The reads of `fan_status()` (R269), in the expansion of 95_test_vectors.md P4 (log 21). -/
def fanStatusReads (c : Config) : List Instr := clientRead c .fanFault 1 ++ clientRead c .fan1Speed 4

/-- The four entries, from the fault bitmap and the four speeds (R269, R254). -/
def fanInfos (faults : Word) (speeds : List Word) : List FanInfo :=
  List.zipWith (fun i (f, rpm) => ⟨i + 1, f, rpm⟩) (List.range 4) ((parseFanFaultBitmap faults).zip speeds)

/-- `fan_status()` from the results of its reads: the entries, or the first error (R269, D35). -/
def fanStatusOf (results : List (Except ClientError (List Word))) : ClientOutcome (List FanInfo) :=
  (collectResults 2 results).decode fun
    | [[faults], [s1, s2, s3, s4]] => some (fanInfos faults [s1, s2, s3, s4])
    | _ => none

/-- The Controller Status (R258). `eco` is a free value of the work mode register; the mode itself and the PWM frequency stand
beside it, absent where the register's value is outside the enumeration (log 21). -/
structure ControllerStatus where
  eco : Bool
  work : Option WorkMode
  busAddress : Byte
  pwmHz : Option Nat
  fanCount : Byte
  current : Temperature
  low : Temperature
  high : Temperature
  fans : List FanInfo
deriving DecidableEq, Repr

/-- The reads of `status()` (R268), in the expansion of 95_test_vectors.md P4 (log 21). -/
def statusReads (c : Config) : List Instr :=
  clientRead c .workMode 1 ++ clientRead c .busAddr 1 ++ clientRead c .pwmFreq 1 ++ clientRead c .fanCount 1 ++
    clientRead c .tempCurrent 1 ++ clientRead c .tempLow 2 ++ fanStatusReads c

/-- The Controller Status assembled from the `RDATA` of those reads, one list each (R268). DESIGN CHOICE (log 21): the bus address
and the fan count, bytes in the status, are the low bytes of their registers. -/
def assembleStatus : List (List Word) → Option ControllerStatus
  | [[work], [address], [pwm], [count], [current], [low, high], [faults], [s1, s2, s3, s4]] =>
    some {
      eco := Config.ecoMode work
      work := WorkMode.ofRegister work
      busAddress := lo8 address
      pwmHz := pwmOfRegister pwm
      fanCount := lo8 count
      current := Temperature.ofRegister current
      low := Temperature.ofRegister low
      high := Temperature.ofRegister high
      fans := fanInfos faults [s1, s2, s3, s4] }
  | _ => none

/-- `status()` from the results of its reads: the status, or the first error, which ends the operation (R268, D35). -/
def statusOf (results : List (Except ClientError (List Word))) : ClientOutcome ControllerStatus :=
  (collectResults 8 results).decode assembleStatus

end Sys2Proof.Machine
end

