-- ==== Sys2Proof/Safety.lean ====
section
/-! DEFINITION. What counts as a state of a safe run: the invariant of 10_state.md R42, and runs over scheduled moves. -/

namespace Sys2Proof.Machine

/-- The result registers agree (R28 to R33, R42): `ERRF` is 1 exactly when `ERR` is not 0; a sub-reason, an exception code
and a link cause stand only beside their error kind; `RINFO` never holds access mode 3, and says something only while `RVAL`
holds a value; a value in `RDATA` or `RVAL` means that the last command completed without error. -/
structure ResultsOk (s : State) : Prop where
  errf : s.errf = true ↔ s.err ≠ 0
  kind : s.err.toNat ≤ 6
  sub : s.sub ≠ 0 → s.err = 3 ∨ s.err = 6
  exc : s.exc ≠ 0 → s.err = 4
  link : s.linkCause ≠ 0 → s.err = 1
  info : s.rinfo.extractLsb' 0 2 ≠ 3
  present : s.rinfo ≠ 0 → s.rvalValid = true
  scalar : s.rvalValid = true → s.done = true ∧ s.err = 0
  data : s.rdata ≠ [] →
    s.done = true ∧ s.err = 0 ∧ s.curOp = .read ∧ s.rdata.length = s.curArg.toNat ∧ s.rdata.length ≤ s.cfg.maxReadCount

/-- An exchange is running (R42, R181): the session is configured and untouched since acceptance, `TXBUF` is the request of
the latched operands, the count of a read is in range, no result is shown, and the time is not up. -/
structure BusyOk (s : State) : Prop where
  configured : s.saValid = true
  latched : s.ctxValid = true ∧ s.curSa = s.slaveAddr ∧ s.curTo = s.timeout
  request : s.txbuf = encRequest s.cfg s.curOp s.curSa s.curReg s.curArg
  count : s.curOp = .read → 1 ≤ s.curArg.toNat ∧ s.curArg.toNat ≤ s.cfg.maxReadCount
  quiet : s.done = false ∧ s.err = 0 ∧ s.rdata = [] ∧ s.rvalValid = false ∧ s.rinfo = 0
  time : s.elapsed.toNat < max s.curTo.toNat 1

/-- What the newest request on the line is while an exchange runs: the bytes of `TXBUF` handed over so far (R26, R196). -/
def SentOk (s : State) : Prop :=
  0 < s.txidx.toNat → ∃ r rest, s.sent = r :: rest ∧ r.bytes = s.txbuf.take s.txidx.toNat

/-- The invariant of the machine (R42). -/
structure Inv (s : State) : Prop where
  params : s.cfg.wf = true
  buffer : s.txbuf.length = 8
  timer : s.timeout.toNat < 2 ^ s.cfg.timeoutWidth
  registers : s.device.regs.wf = true
  lines : ∀ r ∈ s.sent, r.bytes.length ≤ 8
  results : ResultsOk s
  busy : s.phase ≠ .idle → BusyOk s ∧ SentOk s
  tx : s.phase = .tx → s.txidx.toNat < 8 ∧ s.rxbuf = []
  rx : s.phase = .rx →
    s.txidx = 8 ∧ s.rxbuf.length < max 8 s.cfg.rxMax ∧
      (2 ≤ s.rxbuf.length → s.rxbuf.length < explen s.curOp s.curArg (s.rxbuf.getD 1 0))

/-- The state after these many steps, for a machine that does not stop on the way. -/
def stepsTo : Nat → State → Option State
  | 0, s => some s
  | n + 1, s =>
    match step s with
    | .next t => stepsTo n t
    | .fault _ => none
    | .refused _ => none

/-! ### Runs of the reference device (20_memory.md R76) -/

/-- Is this a complete request that the device has not acted on. -/
def Request.waiting (r : Request) : Bool := r.bytes.length == 8 && !r.acted

/-- Some complete request on the line waits for the device. -/
def State.deviceOwes (s : State) : Bool := s.sent.any Request.waiting

/-- The next move is one that the reference device allows: it acts at once on a complete request, before anything else happens,
and neither its registers nor its address change by themselves (R76, last sentences; 93_implementation_defined.md U1). -/
def State.referenceMove (s : State) : Bool :=
  match s.inputs with
  | .deviceChange _ _ :: _ | .deviceReaddress _ :: _ => false
  | .deviceAct k :: _ => !s.deviceOwes || (s.sent[k]?.map Request.waiting).getD false
  | _ => !s.deviceOwes

/-- The next steps, this many, are a run with the reference device (R76). Other runs are those of a device that answers later or never
and changes by itself (log 13). -/
def referenceRun : Nat → State → Bool
  | 0, _ => true
  | n + 1, s =>
    s.referenceMove &&
      match step s with
      | .next t => referenceRun n t
      | .fault _ => true
      | .refused _ => true

end Sys2Proof.Machine
end

