-- ==== Sys2Proof/Certificates/Slice0/Obligations.lean ====
section
/-! DEFINITION. The statements about the model, for the provers. Each docstring says which rule of spec/ it formalises.
The states a rule describes are written out here field by field, without the operations that the meanings call. -/

namespace Sys2Proof

open Sys2Proof.Machine

/-! ### States described by the rules -/

/-- The state after acceptance of any command, before its effect (R171). -/
def Claims.accepted (s : State) : State :=
  { s with
    done := false, errf := false, err := 0, sub := 0, exc := 0, linkCause := 0, rdata := [], rvalValid := false,
    rinfo := 0 }

/-- The state after `refuse R` with this `SUB` (R171). -/
def Claims.refused (sub : Byte) (s : State) : State :=
  { Claims.accepted s with err := 6, sub := sub, errf := true, done := true }

/-- The state after acceptance of an exchange command (R171, R181), the request written out (R93, R94). -/
def Claims.started (op : Op) (reg arg : Word) (s : State) : State :=
  let f := match op with
    | .read => s.cfg.fnRead
    | .write => s.cfg.fnWrite
  let body := [s.slaveAddr, f, hi8 reg, lo8 reg, hi8 arg, lo8 arg]
  { Claims.accepted s with
    curOp := op, curSa := s.slaveAddr, curReg := reg, curArg := arg, curTo := s.timeout, ctxValid := true, elapsed := 0
    txidx := 0, rxbuf := [], txbuf := body ++ [lo8 (crc16 s.cfg body), hi8 (crc16 s.cfg body)], phase := .tx }

/-- The state after an exchange has ended with an error (R296). -/
def Claims.failed (err sub exc cause : Byte) (s : State) : State :=
  { s with
    err := err, sub := sub, exc := exc, linkCause := cause, errf := true, done := true, rdata := [], phase := .idle }

/-- The state after an exchange has ended well, with these values (R187). -/
def Claims.succeeded (values : List Word) (s : State) : State :=
  { s with err := 0, errf := false, done := true, rdata := values, phase := .idle }

/-- The state after `COMPLETE` for each result of `DEC` (R187, R292). -/
def Claims.judged (r : DecResult) (s : State) : State :=
  match r with
  | .okRead values => Claims.succeeded values s
  | .okWrite => Claims.succeeded [] s
  | .frame .length => Claims.failed 3 1 0 0 s
  | .frame .crc => Claims.failed 3 2 0 0 s
  | .frame .address => Claims.failed 3 3 0 0 s
  | .frame .function => Claims.failed 3 4 0 0 s
  | .frame .byteCount => Claims.failed 3 5 0 0 s
  | .deviceException code => Claims.failed 4 0 code 0 s
  | .echoMismatch => Claims.failed 5 0 0 0 s

/-- The register map written out (R62, R221): the address of each name. -/
def Claims.address : RegName → Word
  | .tempCurrent => 0x0000
  | .fanRunning => 0x0001
  | .busAddr => 0x0002
  | .manualSpeed => 0x0003
  | .tempCombined => 0x0004
  | .workMode => 0x0005
  | .fanCount => 0x0006
  | .fan1Speed => 0x0007
  | .fan2Speed => 0x0008
  | .fan3Speed => 0x0009
  | .fan4Speed => 0x000A
  | .pwmFreq => 0x000B
  | .tempLow => 0x000C
  | .tempHigh => 0x000D
  | .fanFault => 0x000E
  | .resetCmd => 0x0020

/-- The access mode of each name (R62, R221): 0 read-only, 1 read-write, 2 write-only. -/
def Claims.access : RegName → BitVec 2
  | .tempCurrent | .fanRunning | .fan1Speed | .fan2Speed | .fan3Speed | .fan4Speed | .fanFault => 0
  | .busAddr | .manualSpeed | .tempCombined | .workMode | .fanCount | .pwmFreq | .tempLow | .tempHigh => 1
  | .resetCmd => 2

/-- The name at a ROM index, in the numbering the parameters give (R7, R221). -/
def Claims.nameAt (c : Config) (idx : BitVec 4) : RegName := c.romOrder.getD idx.toNat .tempCurrent

/-- The bits of a command word that carry no operand, by opcode (R102, opcode_table.json). -/
def Claims.reservedMask (op : Nat) : BitVec 40 :=
  match op with
  | 3 | 4 => 0x00FFF00000
  | 6 | 8 => 0x00FFFFFFFF
  | 7 | 10 => 0x00FFFFFF00
  | 9 => 0x00FFF0FFFF
  | _ => 0

/-- The length a response must have, by R138's three cases: 5 where bit 7 of its second byte is 1, else 5 + 2 × count for a read and 8 for
a write. -/
def Claims.responseLength (op : Op) (arg : Word) (second : Byte) : Nat :=
  if second.getLsbD 7 then 5 else
    match op with
    | .read => 5 + 2 * arg.toNat
    | .write => 8

/-- A frame with bit `k` (0 to 7) of byte `j` flipped. -/
def Claims.flip (s : List Byte) (j k : Nat) : List Byte := s.modify j (fun b => b ^^^ BitVec.twoPow 8 k)

/-- A move that is not a reset and that the host has in every state: not a write outside `CMD`, and no read but those of the
registers that always hold a value (R38, R41). -/
def Claims.driving : Input → Bool
  | .hostWrite n _ => n == 0
  | .hostRead n => (1 ≤ n && n ≤ 6) || n == 8
  | .reset => false
  | _ => true

/-- The number of moves that bring a tick. -/
def Claims.ticks (l : List Input) : Nat :=
  l.countP fun e => match e with
    | .tick | .rxTick _ => true
    | _ => false

end Sys2Proof

open Sys2Proof Sys2Proof.Machine

/-! ### Encoding -/

/-- No bit of an encoding is dropped (R93 to R102): decoding an encoded well-formed instruction gives it back, with every
operand at every value, for every choice of the parameters. -/
def Obligations.DecodeOfEncode : Prop :=
  ∀ (c : Config) (i : Instr), c.wf = true → i.wf c = true → decode c (encode c i) = .ok i

/-- Each code has one meaning and the decoder ignores no bit (R93 to R103): what decodes is well-formed and encodes to the
code it was read from. -/
def Obligations.EncodeOfDecode : Prop :=
  ∀ (c : Config) (k : Code) (i : Instr), decode c k = .ok i → i.wf c = true ∧ encode c i = k

/-- Words written out from R93 to R102 decode to the instructions they stand for, with the default function codes. -/
def Obligations.SampleCodesDecode : Prop :=
  decode (Config.standard true) (.word 0x01FFFE007D#40) = .ok (.rdhr 0xFFFE 125) ∧
  decode (Config.standard true) (.word 0x04000F00AA#40) = .ok (.wrreg 15 0x00AA) ∧
  decode (Config.standard true) (.word 0x05FFFFFFFE#40) = .ok (.setto 0xFFFFFFFE) ∧
  decode (Config.standard true) (.word 0x07000000FE#40) = .ok (.setsa 0xFE) ∧
  decode (Config.standard true) (.word 0x09000C0000#40) = .ok (.lookup 12) ∧
  decode (Config.standard true) (.request [0x01, 0x03, 0x00, 0x07, 0x00, 0x04, 0xF5, 0xC8]) =
    .ok (.frameRdreq 0x01 0x0007 4 0xC8F5) ∧
  decode (Config.standard true) (.response [0x01, 0x06, 0x00, 0x03, 0x00, 0x64, 0x78, 0x21]) =
    .ok (.frameWrrsp 0x01 0x0003 100 0x2178) ∧
  decode (Config.standard true) (.response [0x01, 0x83, 0x02, 0xC0, 0xF1]) = .ok (.frameExcrspRd 0x01 0x02 0xF1C0)

/-- R103: at the ready port, a word whose opcode names no command is refused with `IllegalOpcode`, and one whose opcode does
but which has a 1 in a bit the table says is zero with `ReservedBits`. It does no I/O and changes neither `TIMEOUT` nor
`SLAVE_ADDR`, nor anything but the result registers. -/
def Obligations.IllegalAndReservedWordsRefused : Prop :=
  ∀ (s : State) (w : BitVec 40) (rest : List Input),
    s.phase = .idle → s.inputs = .hostWrite 0 w :: rest →
    let op := (w >>> 32).toNat
    ((op = 0 ∨ 0x0B ≤ op) → step s = .next (Claims.refused 1 (s.withInputs rest))) ∧
    (1 ≤ op → op ≤ 0x0A → w &&& Claims.reservedMask op ≠ 0 →
      step s = .next (Claims.refused 2 (s.withInputs rest)))

/-! ### Fetching and running -/

/-- A step runs the decoded instruction, wherever the machine fetches it: a command word at the port, the request frame in
`TXBUF` when the transmitter takes it, a response frame from the receiver. The move itself is consumed; nothing else stands
around `exec`.
That a whole frame is one instruction is the model's choice (log 10). -/
def Obligations.StepRunsDecodedInstruction : Prop :=
  ∀ (s : State) (rest : List Input) (i : Instr),
    (∀ w, s.inputs = .hostWrite 0 w :: rest → decode s.cfg (.word w) = .ok i →
      step s = exec i (s.withInputs rest)) ∧
    (s.inputs = .txFrame :: rest → decode s.cfg (.request s.txbuf) = .ok i →
      step s = exec i (s.withInputs rest)) ∧
    (∀ bytes, s.inputs = .rxFrame bytes :: rest → decode s.cfg (.response bytes) = .ok i →
      step s = exec i (s.withInputs rest))

/-- R171, B25: while an exchange is running no command is accepted, whatever the word: the host waits and no state of the
machine changes.
That the presentation is consumed is the model's choice (log 5). -/
def Obligations.BusyPortLeavesStateAlone : Prop :=
  ∀ (s : State) (w : BitVec 40) (rest : List Input),
    s.phase ≠ .idle → s.inputs = .hostWrite 0 w :: rest → step s = .next (s.withInputs rest)

/-- R297: the acceptance checks are made in this order and the first that fails decides `SUB`: illegal opcode, reserved bits,
`NotConfigured`, `BadCount`, `AccessDenied`. All of them come before any I/O: a refusal changes the result registers alone. Where
none fails, no error is reported. -/
def Obligations.AcceptanceChecksInOrder : Prop :=
  ∀ (s : State) (w : BitVec 40) (rest : List Input),
    s.phase = .idle → s.inputs = .hostWrite 0 w :: rest →
    let op := (w >>> 32).toNat
    let count := (w &&& 0xFFFF).toNat
    let access := Claims.access (Claims.nameAt s.cfg ((w >>> 16).setWidth 4))
    let illegal := op = 0 ∨ 0x0B ≤ op
    let reserved := w &&& Claims.reservedMask op ≠ 0
    let unconfigured := (op ≤ 4 ∨ op = 8) ∧ s.saValid = false
    let badCount := (op = 1 ∨ op = 3) ∧ (count = 0 ∨ s.cfg.maxReadCount < count)
    let denied := s.cfg.romEnforceAccess = true ∧ ((op = 3 ∧ access = 2) ∨ (op = 4 ∧ access = 0))
    ∃ t, step s = .next t ∧
      (illegal → t = Claims.refused 1 (s.withInputs rest)) ∧
      (¬illegal → reserved → t = Claims.refused 2 (s.withInputs rest)) ∧
      (¬illegal → ¬reserved → unconfigured → t = Claims.refused 3 (s.withInputs rest)) ∧
      (¬illegal → ¬reserved → ¬unconfigured → badCount → t = Claims.refused 4 (s.withInputs rest)) ∧
      (¬illegal → ¬reserved → ¬unconfigured → ¬badCount → denied → t = Claims.refused 5 (s.withInputs rest)) ∧
      (¬illegal → ¬reserved → ¬unconfigured → ¬badCount → ¬denied → t.err = 0 ∧ t.sub = 0)

/-! ### Commands: result and frame (a whole next state: every field not named is unchanged, the device included) -/

/-- R172, R181: `RDHR` at the ready port: refused as `NotConfigured` or `BadCount`, else a read exchange starts, its request
in `TXBUF`. -/
def Obligations.RdhrOutcome : Prop :=
  ∀ (s : State) (addr count : Word), s.phase = .idle →
    exec (.rdhr addr count) s = .next (
      if s.saValid = false then Claims.refused 3 s
      else if count.toNat = 0 ∨ s.cfg.maxReadCount < count.toNat then Claims.refused 4 s
      else Claims.started .read addr count s)

/-- R173, R181: `WRSR` at the ready port: refused as `NotConfigured`, else a write exchange starts, for every address and
value. -/
def Obligations.WrsrOutcome : Prop :=
  ∀ (s : State) (addr value : Word), s.phase = .idle →
    exec (.wrsr addr value) s = .next (
      if s.saValid = false then Claims.refused 3 s else Claims.started .write addr value s)

/-- R174, R226: `RDREG` at the ready port: refused as `NotConfigured`, `BadCount`, or, where the parameter says so, as
`AccessDenied` for a write-only entry; else the read exchange of the entry's address starts. The entry is that of the name at the
index (R221); `LookupReturnsRomEntry` gives the numbering. -/
def Obligations.RdregOutcome : Prop :=
  ∀ (s : State) (idx : BitVec 4) (count : Word), s.phase = .idle →
    let name := Claims.nameAt s.cfg idx
    exec (.rdreg idx count) s = .next (
      if s.saValid = false then Claims.refused 3 s
      else if count.toNat = 0 ∨ s.cfg.maxReadCount < count.toNat then Claims.refused 4 s
      else if s.cfg.romEnforceAccess = true ∧ Claims.access name = 2 then Claims.refused 5 s
      else Claims.started .read (Claims.address name) count s)

/-- R175, R226: `WRREG` at the ready port: refused as `NotConfigured`, or, where the parameter says so, as `AccessDenied` for a
read-only entry; else the write exchange of the entry's address starts. -/
def Obligations.WrregOutcome : Prop :=
  ∀ (s : State) (idx : BitVec 4) (value : Word), s.phase = .idle →
    let name := Claims.nameAt s.cfg idx
    exec (.wrreg idx value) s = .next (
      if s.saValid = false then Claims.refused 3 s
      else if s.cfg.romEnforceAccess = true ∧ Claims.access name = 0 then Claims.refused 5 s
      else Claims.started .write (Claims.address name) value s)

/-- R178: `SETTO` stores its operand, every value of it, in `TIMEOUT`. With a `TIMEOUT` narrower than R7's default of 32 bits the low bits of
it are stored, which is the model's choice (log 3). -/
def Obligations.SettoStoresTimeout : Prop :=
  ∀ (s : State) (ticks : BitVec 32), s.phase = .idle →
    (s.cfg.timeoutWidth = 32 → exec (.setto ticks) s = .next { Claims.accepted s with timeout := ticks, done := true }) ∧
    exec (.setto ticks) s = .next { Claims.accepted s with
      timeout := BitVec.ofNat 32 (ticks.toNat % 2 ^ s.cfg.timeoutWidth), done := true }

/-- R179: `GETTO` returns `TIMEOUT` in `RVAL`. -/
def Obligations.GettoReturnsTimeout : Prop :=
  ∀ (s : State), s.phase = .idle →
    exec .getto s = .next { Claims.accepted s with rval := s.timeout, rvalValid := true, done := true }

/-- R176: `SETSA` stores its operand, every value of it, in `SLAVE_ADDR` and sets `SA_VALID`; nothing is sent. -/
def Obligations.SetsaStoresAddress : Prop :=
  ∀ (s : State) (sa : Byte), s.phase = .idle →
    exec (.setsa sa) s = .next { Claims.accepted s with slaveAddr := sa, saValid := true, done := true }

/-- R177: `GETSA` returns `SLAVE_ADDR`, zero-extended, in `RVAL`; before the first `SETSA` it is refused. -/
def Obligations.GetsaReturnsAddress : Prop :=
  ∀ (s : State), s.phase = .idle →
    exec .getsa s = .next (
      if s.saValid = false then Claims.refused 3 s
      else { Claims.accepted s with rval := 0#24 ++ s.slaveAddr, rvalValid := true, done := true })

/-- R222: `LOOKUP` returns the entry's address in `RVAL`, its access mode in `RINFO` bits 1:0 and `PRESENT` in bit 2; it does
not depend on `SLAVE_ADDR`. In R221's numbering the address is the index, but for index 15, which is 0x0020. -/
def Obligations.LookupReturnsRomEntry : Prop :=
  ∀ (s : State) (idx : BitVec 4), s.phase = .idle →
    let name := Claims.nameAt s.cfg idx
    exec (.lookup idx) s = .next { Claims.accepted s with
      rval := (Claims.address name).setWidth 32, rvalValid := true, rinfo := 1#1 ++ Claims.access name, done := true } ∧
    (s.cfg.romOrder =
        [.tempCurrent, .fanRunning, .busAddr, .manualSpeed, .tempCombined, .workMode, .fanCount, .fan1Speed, .fan2Speed,
         .fan3Speed, .fan4Speed, .pwmFreq, .tempLow, .tempHigh, .fanFault, .resetCmd] →
      exec (.lookup idx) s = .next { Claims.accepted s with
        rval := if idx = 15 then 0x20 else idx.setWidth 32
        rvalValid := true
        rinfo := if idx = 15 then 6
          else if idx.toNat ≤ 1 ∨ (7 ≤ idx.toNat ∧ idx.toNat ≤ 10) ∨ idx = 14 then 4 else 5
        done := true })

/-- R223: `FANREG` returns 0x0006 + i, read-only and present, for fan 1 to 4, and absent for every other index, without an
error; `RVAL` then holds no value. -/
def Obligations.FanregReturnsSpeedRegister : Prop :=
  ∀ (s : State) (i : Byte), s.phase = .idle →
    exec (.fanreg i) s = .next (
      if 1 ≤ i.toNat ∧ i.toNat ≤ 4 then
        { Claims.accepted s with rval := BitVec.ofNat 32 (6 + i.toNat), rvalValid := true, rinfo := 4, done := true }
      else { Claims.accepted s with done := true })

/-! ### The steps of an exchange -/

/-- R182: `TXBYTE` hands the next byte of `TXBUF` to the transmitter, and after the eighth the sequencer awaits the response.
It is enabled in `TX` once the guard interval is over, and does nothing otherwise. How the line holds what has gone out (the first byte
opens a new entry, not acted on, and later ones extend the newest) is the model's choice (log 17). -/
def Obligations.TransmitStep : Prop :=
  ∀ (s : State) (rest : List Input), s.inputs = .txReady :: rest →
    (s.phase = .tx → s.cfg.txGuardTicks.toNat ≤ s.elapsed.toNat →
      ∃ t, step s = .next t ∧ t = { s with inputs := rest, sent := t.sent, txidx := s.txidx + 1, phase := t.phase } ∧
        (t.phase = if s.txidx = 7 then .rx else .tx) ∧
        (s.txidx = 0 → t.sent = ⟨[s.txbuf.getD 0 0], false⟩ :: s.sent) ∧
        (∀ r older, s.txidx ≠ 0 → s.sent = r :: older →
          t.sent = { r with bytes := r.bytes ++ [s.txbuf.getD s.txidx.toNat 0] } :: older)) ∧
    (s.phase ≠ .tx ∨ s.elapsed.toNat < s.cfg.txGuardTicks.toNat → step s = .next (s.withInputs rest))

/-- R185, R138: in `RX` a delivered byte is appended to `RXBUF`; where the frame is not complete with it, nothing else happens. -/
def Obligations.ReceiveStoresByte : Prop :=
  ∀ (s : State) (b : Byte) (rest : List Input), s.inputs = .rx b :: rest → s.phase = .rx →
    let got := s.rxbuf ++ [b]
    (got.length < 2 ∨ got.length ≠ Claims.responseLength s.curOp s.curArg (got.getD 1 0)) →
    step s = .next { s with inputs := rest, rxbuf := got }

/-- R185, R138, R187: the byte with which the expected length is reached completes the exchange in the same step: the result of
`DEC` on `RXBUF` goes into `ERR`, `SUB`, `EXC`, `RCOUNT` and `RDATA`, `ERRF` and `DONE` follow, and the sequencer is idle.
On an error the registers beside `ERR` hold what R296 says (log 18). -/
def Obligations.CompletingByteWritesResult : Prop :=
  ∀ (s : State) (b : Byte) (rest : List Input), s.inputs = .rx b :: rest → s.phase = .rx →
    let got := s.rxbuf ++ [b]
    2 ≤ got.length → got.length = Claims.responseLength s.curOp s.curArg (got.getD 1 0) →
    step s = .next (Claims.judged (dec s.cfg s.curOp s.curSa s.curReg s.curArg got)
      { s with inputs := rest, rxbuf := got })

/-- R186: bytes the receiver delivers while `PHASE` is `IDLE` or `TX` are discarded, a byte of any origin, the oldest one in flight or a
whole frame, and no state of the block changes; so no response frame has an effect there. A whole frame in one move, and as an
instruction, is the model's choice (log 10). -/
def Obligations.BytesDroppedOutsideReception : Prop :=
  ∀ (s : State) (rest : List Input), s.phase ≠ .rx →
    (∀ b, s.inputs = .rx b :: rest → step s = .next (s.withInputs rest)) ∧
    (∀ bytes, s.inputs = .rxFrame bytes :: rest → step s = .next (s.withInputs rest)) ∧
    (s.inputs = .rxLine :: rest → step s = .next { s with inputs := rest, inFlight := s.inFlight.drop 1 }) ∧
    (∀ sa bc vs crc, exec (.frameRdrsp sa bc vs crc) s = .next s) ∧
    (∀ sa reg v crc, exec (.frameWrrsp sa reg v crc) s = .next s) ∧
    (∀ sa code crc, exec (.frameExcrspRd sa code crc) s = .next s) ∧
    (∀ sa code crc, exec (.frameExcrspWr sa code crc) s = .next s)

/-- R188: a tick in `TX` or `RX` counts; at the tick with which `ELAPSED` reaches `CUR_TO` the exchange ends in `Timeout`; in
`IDLE` a tick changes nothing.
The registers beside `ERR` hold what R296 says (log 18). -/
def Obligations.TickCountsAndExpires : Prop :=
  ∀ (s : State) (rest : List Input), s.inputs = .tick :: rest →
    (s.phase = .idle → step s = .next (s.withInputs rest)) ∧
    (s.phase ≠ .idle → (s.elapsed + 1).toNat < s.curTo.toNat →
      step s = .next { s with inputs := rest, elapsed := s.elapsed + 1 }) ∧
    (s.phase ≠ .idle → s.curTo.toNat ≤ (s.elapsed + 1).toNat →
      step s = .next (Claims.failed 2 0 0 0 { s with inputs := rest, elapsed := s.elapsed + 1 }))

/-- R189: a link fault in `TX` or `RX` ends the exchange with `ERR` = 1 and the cause in `LINK_CAUSE`; in `IDLE` the report is
dropped.
The registers beside `ERR` hold what R296 says (log 18). -/
def Obligations.LinkFaultEndsExchange : Prop :=
  ∀ (s : State) (c : Byte) (rest : List Input), s.inputs = .linkfault c :: rest →
    (s.phase = .idle → step s = .next (s.withInputs rest)) ∧
    (s.phase ≠ .idle → step s = .next (Claims.failed 1 0 0 c (s.withInputs rest)))

/-- R298: whichever ending event comes first ends the exchange; whatever bytes, ticks, link faults and readinesses of the
transmitter follow, in any number and order, find `PHASE` = `IDLE` and do nothing. -/
def Obligations.FirstEndingEventWins : Prop :=
  ∀ (s : State) (l rest : List Input), s.phase = .idle → s.inputs = l ++ rest →
    (∀ e ∈ l, (∃ b, e = .rx b) ∨ (∃ b, e = .rxFrame b) ∨ e = .tick ∨ (∃ b, e = .rxTick b) ∨ (∃ c, e = .linkfault c) ∨
      e = .txReady ∨ e = .txFrame) →
    stepsTo l.length s = some (s.withInputs rest)

/-- R190 (b), D12: where the byte that completes the response and a tick fall together and the tie rule is completion first,
the exchange completes as if the byte had come alone, even if the tick would have expired it. Where the tie rule is off the tick comes
first: the step is that of the tick followed by that of the byte, and an expiring tick ends the exchange in `Timeout`.
The move that brings both together is the model's (log 16); the registers beside `ERR` hold what R296 says (log 18). -/
def Obligations.CompletionWinsTheTie : Prop :=
  ∀ (s : State) (b : Byte) (rest : List Input), s.inputs = .rxTick b :: rest →
    let got := s.rxbuf ++ [b]
    (s.cfg.completionFirst = true → s.phase = .rx → 2 ≤ got.length → got.length = Claims.responseLength s.curOp s.curArg (got.getD 1 0) →
      step s = step (s.withInputs (.rx b :: rest))) ∧
    (s.cfg.completionFirst = false →
      (∃ t, step s = .next t ∧ stepsTo 2 (s.withInputs (.tick :: .rx b :: rest)) = some t) ∧
      (s.phase ≠ .idle → s.curTo.toNat ≤ (s.elapsed + 1).toNat →
        step s = .next (Claims.failed 2 0 0 0 { s with inputs := rest, elapsed := s.elapsed + 1 })))

/-! ### Wire frames as instructions -/

/-- R134, R182, R75, R105: the read request frame in `TXBUF` goes out whole, byte for byte, from `TXIDX` = 0, or its rest goes
out from where it stands, and the sequencer then awaits the response. A frame that is not the one in `TXBUF` is never sent,
and nothing is sent outside `TX` or within the guard interval.
A frame delivered in one move is the model's choice (log 10); `FramesAreTheirBytes` ties it to the spec's steps. -/
def Obligations.ReadRequestGoesOut : Prop :=
  ∀ (s : State) (sa : Byte) (reg n crc : Word),
    let frame := [sa, s.cfg.fnRead, hi8 reg, lo8 reg, hi8 n, lo8 n, lo8 crc, hi8 crc]
    (s.phase = .tx → s.cfg.txGuardTicks.toNat ≤ s.elapsed.toNat → s.txbuf = frame → s.txidx = 0 →
      exec (.frameRdreq sa reg n crc) s =
        .next { s with sent := ⟨frame, false⟩ :: s.sent, txidx := 8, phase := .rx }) ∧
    (∀ r older, s.phase = .tx → s.cfg.txGuardTicks.toNat ≤ s.elapsed.toNat → s.txbuf = frame →
      0 < s.txidx.toNat → s.txidx.toNat < 8 → s.sent = r :: older →
      exec (.frameRdreq sa reg n crc) s =
        .next { s with
          sent := { r with bytes := r.bytes ++ frame.drop s.txidx.toNat } :: older, txidx := 8, phase := .rx }) ∧
    (s.phase ≠ .tx ∨ s.elapsed.toNat < s.cfg.txGuardTicks.toNat ∨ s.txbuf ≠ frame →
      exec (.frameRdreq sa reg n crc) s = .next s)

/-- R135, R182, R75, R105: the write request frame, likewise.
A frame delivered in one move is the model's choice (log 10); `FramesAreTheirBytes` ties it to the spec's steps. -/
def Obligations.WriteRequestGoesOut : Prop :=
  ∀ (s : State) (sa : Byte) (reg v crc : Word),
    let frame := [sa, s.cfg.fnWrite, hi8 reg, lo8 reg, hi8 v, lo8 v, lo8 crc, hi8 crc]
    (s.phase = .tx → s.cfg.txGuardTicks.toNat ≤ s.elapsed.toNat → s.txbuf = frame → s.txidx = 0 →
      exec (.frameWrreq sa reg v crc) s =
        .next { s with sent := ⟨frame, false⟩ :: s.sent, txidx := 8, phase := .rx }) ∧
    (∀ r older, s.phase = .tx → s.cfg.txGuardTicks.toNat ≤ s.elapsed.toNat → s.txbuf = frame →
      0 < s.txidx.toNat → s.txidx.toNat < 8 → s.sent = r :: older →
      exec (.frameWrreq sa reg v crc) s =
        .next { s with
          sent := { r with bytes := r.bytes ++ frame.drop s.txidx.toNat } :: older, txidx := 8, phase := .rx }) ∧
    (s.phase ≠ .tx ∨ s.elapsed.toNat < s.cfg.txGuardTicks.toNat ∨ s.txbuf ≠ frame →
      exec (.frameWrreq sa reg v crc) s = .next s)

/-- R139, R140, R187: a read response of the requested count, received by a waiting read exchange, is judged in the order
checksum, address, byte-count; a good one ends the exchange with its values in `RDATA`, in address order. The register the
exchange asked for plays no part (R143 (b)): the same response is accepted whatever it is.
A frame delivered in one move is the model's choice (log 10); `FramesAreTheirBytes` ties it to the spec's steps. -/
def Obligations.ReadResponseReceived : Prop :=
  ∀ (s : State) (sa bc : Byte) (vs : List Word) (crc : Word),
    s.cfg.wf = true → s.phase = .rx → s.rxbuf = [] → s.curOp = .read → 1 ≤ vs.length → vs.length = s.curArg.toNat →
    let body := [sa, s.cfg.fnRead, bc] ++ vs.flatMap (fun v => [hi8 v, lo8 v])
    let t := { s with rxbuf := body ++ [lo8 crc, hi8 crc] }
    exec (.frameRdrsp sa bc vs crc) s = .next (
      if crc16 s.cfg body ≠ crc then Claims.failed 3 2 0 0 t
      else if sa ≠ s.curSa then Claims.failed 3 3 0 0 t
      else if bc.toNat ≠ 2 * vs.length then Claims.failed 3 5 0 0 t
      else Claims.succeeded vs t)

/-- R139, R141, R187: a write response, received by a waiting write exchange, is judged in the order checksum, address, echo;
one that echoes the register and the value sent ends the exchange without error, one that does not in `EchoMismatch`.
A frame delivered in one move is the model's choice (log 10); `FramesAreTheirBytes` ties it to the spec's steps. -/
def Obligations.WriteResponseReceived : Prop :=
  ∀ (s : State) (sa : Byte) (reg v crc : Word),
    s.cfg.wf = true → s.phase = .rx → s.rxbuf = [] → s.curOp = .write →
    let body := [sa, s.cfg.fnWrite, hi8 reg, lo8 reg, hi8 v, lo8 v]
    let t := { s with rxbuf := body ++ [lo8 crc, hi8 crc] }
    exec (.frameWrrsp sa reg v crc) s = .next (
      if crc16 s.cfg body ≠ crc then Claims.failed 3 2 0 0 t
      else if sa ≠ s.curSa then Claims.failed 3 3 0 0 t
      else if reg ≠ s.curReg ∨ v ≠ s.curArg then Claims.failed 5 0 0 0 t
      else Claims.succeeded [] t)

/-- R139, R142, R187: an exception response of the read's function, received by a waiting exchange, is judged in the order
checksum, address, function: it ends a read in `DeviceException`, its code passed through, and a write in `Frame`/`Function`.
A frame delivered in one move is the model's choice (log 10); `FramesAreTheirBytes` ties it to the spec's steps. -/
def Obligations.ReadExceptionReceived : Prop :=
  ∀ (s : State) (sa code : Byte) (crc : Word),
    s.cfg.wf = true → s.phase = .rx → s.rxbuf = [] →
    let body := [sa, s.cfg.fnRead ||| 0x80, code]
    let t := { s with rxbuf := body ++ [lo8 crc, hi8 crc] }
    exec (.frameExcrspRd sa code crc) s = .next (
      if crc16 s.cfg body ≠ crc then Claims.failed 3 2 0 0 t
      else if sa ≠ s.curSa then Claims.failed 3 3 0 0 t
      else if s.curOp = .read then Claims.failed 4 0 code 0 t
      else Claims.failed 3 4 0 0 t)

/-- R139, R142, R187: an exception response of the write's function, likewise the other way round.
A frame delivered in one move is the model's choice (log 10); `FramesAreTheirBytes` ties it to the spec's steps. -/
def Obligations.WriteExceptionReceived : Prop :=
  ∀ (s : State) (sa code : Byte) (crc : Word),
    s.cfg.wf = true → s.phase = .rx → s.rxbuf = [] →
    let body := [sa, s.cfg.fnWrite ||| 0x80, code]
    let t := { s with rxbuf := body ++ [lo8 crc, hi8 crc] }
    exec (.frameExcrspWr sa code crc) s = .next (
      if crc16 s.cfg body ≠ crc then Claims.failed 3 2 0 0 t
      else if sa ≠ s.curSa then Claims.failed 3 3 0 0 t
      else if s.curOp = .write then Claims.failed 4 0 code 0 t
      else Claims.failed 3 4 0 0 t)

/-- R106, R138, R185, R336: the receiver cuts the frame by content. Of any bytes delivered to a waiting exchange, fewer than the
length that the second byte gives only fill `RXBUF`, and the exchange goes on waiting; with at least that many, exactly that many
are judged and the rest is dropped.
A frame delivered in one move is the model's choice (log 10); `FramesAreTheirBytes` ties it to the spec's steps. -/
def Obligations.ReceivedBytesCutByContent : Prop :=
  ∀ (s : State) (bytes : List Byte) (rest : List Input),
    s.phase = .rx → s.rxbuf = [] → s.inputs = .rxFrame bytes :: rest →
    let len := Claims.responseLength s.curOp s.curArg (bytes.getD 1 0)
    let t := { s with inputs := rest, rxbuf := bytes.take len }
    (bytes.length < 2 ∨ bytes.length < len → step s = .next { s with inputs := rest, rxbuf := bytes }) ∧
    (2 ≤ bytes.length → len ≤ bytes.length →
      step s = .next (Claims.judged (dec s.cfg s.curOp s.curSa s.curReg s.curArg (bytes.take len)) t))

/-- R182, R185, R195: a wire frame is its bytes. Whatever the state, receiving a response frame is receiving its bytes one after
another, and sending the request frame in `TXBUF` is eight readinesses of the transmitter, one after another.
Frames as instructions: log 10. -/
def Obligations.FramesAreTheirBytes : Prop :=
  ∀ (s : State) (i : Instr) (rest : List Input),
    let bytes := encodeBytes s.cfg i
    let oneByOne := fun (moves : List Input) =>
      ∃ t, exec i s = .next t ∧ stepsTo moves.length (s.withInputs (moves ++ rest)) = some (t.withInputs rest)
    ((∃ sa bc vs crc, i = .frameRdrsp sa bc vs crc) ∨ (∃ sa reg v crc, i = .frameWrrsp sa reg v crc) ∨
      (∃ sa code crc, i = .frameExcrspRd sa code crc) ∨ (∃ sa code crc, i = .frameExcrspWr sa code crc) →
      oneByOne (bytes.map .rx)) ∧
    ((∃ sa reg n crc, i = .frameRdreq sa reg n crc) ∨ (∃ sa reg v crc, i = .frameWrreq sa reg v crc) → s.txbuf = bytes →
      oneByOne (List.replicate 8 .txReady))

/-! ### The codec -/

/-- R132: `VERIFY` is true exactly when the checksum of all bytes but the last two is what those two carry, low byte first; with
R130's procedure, equivalently when the checksum of the whole frame, trailer included, is 0; and flipping any single bit of a
frame that passes gives one that does not. For a checksum that takes the most significant bit first the procedure is the model's
choice (log 3). -/
def Obligations.ChecksumDetectsSingleBitErrors : Prop :=
  ∀ (c : Config) (f : List Byte), 2 ≤ f.length →
    (verify c f = true ↔ crc16 c (f.take (f.length - 2)) = f.getD (f.length - 1) 0 ++ f.getD (f.length - 2) 0) ∧
    (c.crcLsbFirst = true → c.crcXorOut = 0 → (verify c f = true ↔ crc16 c f = 0)) ∧
    (∀ j k, j < f.length → k < 8 → verify c f = true → verify c (Claims.flip f j k) = false)

/-- R143: (a) the request frame of a write is its own correct response; (b) a read response carrying `n` values is accepted,
with those values, whatever the register asked for; (c) a frame of another bus address, one of another function, and one
that differs in a single bit from an accepted one, is rejected; (d) `Ok` is only for frames of the expected length with a good
checksum, the request's address and function. For a checksum that takes the most significant bit first the procedure is the model's
choice (log 3). -/
def Obligations.CodecProperties : Prop :=
  ∀ (c : Config), c.wf = true →
    (∀ sa reg v, dec c .write sa reg v (encWr c sa reg v) = .okWrite) ∧
    (∀ sa reg (vs : List Word), 1 ≤ vs.length → vs.length ≤ 125 →
      dec c .read sa reg (BitVec.ofNat 16 vs.length)
        (trailer c ([sa, c.fnRead, BitVec.ofNat 8 (2 * vs.length)] ++ vs.flatMap be16)) = .okRead vs) ∧
    (∀ op sa reg arg s,
      let ok := fun (f : List Byte) => (∃ vs, dec c op sa reg arg f = .okRead vs) ∨ dec c op sa reg arg f = .okWrite
      (s.getD 0 0 ≠ sa ∨ s.getD 1 0 ≠ fnOf c op → ¬ok s) ∧
      (∀ j k, j < s.length → k < 8 → ok s → ¬ok (Claims.flip s j k)) ∧
      (ok s → s.length = Claims.responseLength op arg (s.getD 1 0) ∧ verify c s = true ∧ s.getD 0 0 = sa ∧ s.getD 1 0 = fnOf c op))

/-- R98: the write response check accepts exactly the frames equal to the request. -/
def Obligations.EchoAcceptedExactlyWhenEqual : Prop :=
  ∀ (c : Config) (sa : Byte) (reg v : Word) (s : List Byte), c.wf = true →
    (dec c .write sa reg v s = .okWrite ↔ s = encWr c sa reg v)

/-- R139, R299: of the defects that coexist in a frame the first in the order length, checksum, address, function is
reported; a device exception is reported only for a frame without any of them, and before the data checks. -/
def Obligations.FirstDefectIsReported : Prop :=
  ∀ (c : Config) (op : Op) (sa : Byte) (reg arg : Word) (s : List Byte),
    let r := dec c op sa reg arg s
    let f := fnOf c op
    let lengthOk := 5 ≤ s.length ∧ s.length = Claims.responseLength op arg (s.getD 1 0)
    let addressOk := s.getD 0 0 = sa
    let exception := s.getD 1 0 = f ||| 0x80
    let functionOk := s.getD 1 0 = f
    (¬lengthOk → r = .frame .length) ∧
    (lengthOk → verify c s = false → r = .frame .crc) ∧
    (lengthOk → verify c s = true → ¬addressOk → r = .frame .address) ∧
    (lengthOk → verify c s = true → addressOk → exception → r = .deviceException (s.getD 2 0)) ∧
    (lengthOk → verify c s = true → addressOk → ¬exception → ¬functionOk → r = .frame .function) ∧
    (lengthOk → verify c s = true → addressOk → ¬exception → functionOk →
      (op = .read → r = .frame .byteCount ∨ ∃ vs, r = .okRead vs ∧ vs.length = arg.toNat) ∧
      (op = .write → r = .echoMismatch ∨ r = .okWrite))

/-! ### Whole-machine rules -/

/-- R42: the machine right after reset meets the invariant. -/
def Obligations.InvariantAtReset : Prop := Inv State.reset

/-- R42: every step keeps the invariant, from every state that meets it. -/
def Obligations.StepKeepsInvariant : Prop := ∀ (s t : State), Inv s → step s = .next t → Inv t

/-- R22: `SLAVE_ADDR` and `SA_VALID` change only by `SETSA` at the ready port, which stores its operand, or by reset: no
received frame, successful write or error ever changes them. -/
def Obligations.AddressOnlyBySetsa : Prop :=
  ∀ (s t : State), step s = .next t → (t.slaveAddr ≠ s.slaveAddr ∨ t.saValid ≠ s.saValid) →
    ∃ e rest, s.inputs = e :: rest ∧
      (e = .reset ∨ ∃ sa : Byte, e = .hostWrite 0 (0x07#8 ++ 0#24 ++ sa) ∧ s.phase = .idle ∧
        t.slaveAddr = sa ∧ t.saValid = true)

/-- R21: `TIMEOUT` changes only by `SETTO` at the ready port, which stores its operand, or by reset. The `TIMEOUT_WIDTH` low bits of the
operand are all of it with R7's default (log 3). -/
def Obligations.TimeoutOnlyBySetto : Prop :=
  ∀ (s t : State), step s = .next t → t.timeout ≠ s.timeout →
    ∃ e rest, s.inputs = e :: rest ∧
      (e = .reset ∨ ∃ ticks : BitVec 32, e = .hostWrite 0 (0x05#8 ++ ticks) ∧ s.phase = .idle ∧
        t.timeout = BitVec.ofNat 32 (ticks.toNat % 2 ^ s.cfg.timeoutWidth))

/-- R24: the operand latches and `TXBUF` change only when an exchange command is accepted, or by reset. -/
def Obligations.LatchesOnlyAtAcceptance : Prop :=
  ∀ (s t : State), step s = .next t →
    (t.curOp ≠ s.curOp ∨ t.curSa ≠ s.curSa ∨ t.curReg ≠ s.curReg ∨ t.curArg ≠ s.curArg ∨ t.curTo ≠ s.curTo ∨
      t.txbuf ≠ s.txbuf) →
    ∃ e rest, s.inputs = e :: rest ∧
      (e = .reset ∨ ∃ w, e = .hostWrite 0 w ∧ s.phase = .idle ∧ t.phase = .tx ∧
        t.curSa = s.slaveAddr ∧ t.curTo = s.timeout)

/-- R20, R35, R37 (a): no step changes the parameters, and the device changes only by its own moves: no command, step of an
exchange or error reaches it but through the line.
The device's moves: log 13. -/
def Obligations.ParametersAndDeviceFrame : Prop :=
  ∀ (s t : State), step s = .next t →
    t.cfg = s.cfg ∧
    (t.device ≠ s.device →
      ∃ e rest, s.inputs = e :: rest ∧ ((∃ k, e = .deviceAct k) ∨ (∃ a v, e = .deviceChange a v) ∨ ∃ sa, e = .deviceReaddress sa))

/-- R182, R105: bytes go out on the line only in `TX`, and only when the transmitter can take one. -/
def Obligations.BytesGoOutOnlyInTx : Prop :=
  ∀ (s t : State), step s = .next t → t.sent.map (·.bytes) ≠ s.sent.map (·.bytes) →
    s.phase = .tx ∧ ∃ rest, s.inputs = .txReady :: rest ∨ s.inputs = .txFrame :: rest

/-- R21, R341: a running exchange uses `CUR_TO` and `CUR_SA`, never `TIMEOUT` and `SLAVE_ADDR`: whatever those hold, every move but
a reset does the same to everything else. -/
def Obligations.RunningExchangeIgnoresSession : Prop :=
  ∀ (s t : State) (tmo : BitVec 32) (sa : Byte), s.phase ≠ .idle → s.inputs.head? ≠ some .reset → step s = .next t →
    step { s with timeout := tmo, slaveAddr := sa } = .next { t with timeout := tmo, slaveAddr := sa }

/-- R296: an exchange that ends in an error leaves `ERRF` and `DONE` set, no value in `RDATA`, the sequencer idle and one of the error
kinds 1 to 5 in `ERR`, and touches neither the session nor the operand latches. -/
def Obligations.ErrorCompletionFrame : Prop :=
  ∀ (s t : State), s.phase ≠ .idle → s.inputs.head? ≠ some .reset → step s = .next t → t.phase = .idle → t.err ≠ 0 →
    t.errf = true ∧ t.done = true ∧ t.rdata = [] ∧ 1 ≤ t.err.toNat ∧ t.err.toNat ≤ 5 ∧
    t.timeout = s.timeout ∧ t.slaveAddr = s.slaveAddr ∧ t.saValid = s.saValid ∧
    t.curOp = s.curOp ∧ t.curSa = s.curSa ∧ t.curReg = s.curReg ∧ t.curArg = s.curArg ∧ t.curTo = s.curTo ∧
    t.rval = s.rval ∧ t.rvalValid = s.rvalValid ∧ t.rinfo = s.rinfo ∧ t.ctxValid = s.ctxValid

/-- R300: accepting the next command, whatever the word, clears the error registers: afterwards they tell of that command alone,
which is either refused (`BadCommand`) or without error, and the machine does not stop. -/
def Obligations.NextCommandRecovers : Prop :=
  ∀ (s : State) (w : BitVec 40) (rest : List Input), s.phase = .idle → s.inputs = .hostWrite 0 w :: rest →
    ∃ t, step s = .next t ∧ t.exc = 0 ∧ t.linkCause = 0 ∧ t.rdata = [] ∧
      ((t.err = 6 ∧ t.errf = true ∧ t.done = true ∧ t.phase = .idle) ∨
       (t.err = 0 ∧ t.sub = 0 ∧ t.errf = false ∧ (t.done = true ↔ t.phase = .idle)))

/-- R190 (c), R178, R188: every exchange is bounded. Whatever else happens between them, once as many ticks have come as are left of
`CUR_TO` (at least one), the exchange has ended. -/
def Obligations.TimeoutBoundsEveryExchange : Prop :=
  ∀ (s : State), s.elapsed.toNat < max s.curTo.toNat 1 → (∀ e ∈ s.inputs, Claims.driving e = true) →
    max s.curTo.toNat 1 - s.elapsed.toNat ≤ Claims.ticks s.inputs →
    ∃ k t, k ≤ s.inputs.length ∧ stepsTo k s = some t ∧ t.phase = .idle

/-! ### Reset and the host's reads -/

/-- R40, R330: reset, in whatever state it comes, gives the block the values of R40 without reporting any result (a running
exchange is abandoned); the parameters and the device are as they were. That what is on the line and in flight stays too is the
model's reading (log 15). -/
def Obligations.ResetGivesResetValues : Prop :=
  ∀ (s : State) (rest : List Input), s.inputs = .reset :: rest →
    ∃ t, step s = .next t ∧ t.timeout = BitVec.ofNat 32 (10 * s.cfg.tickHz) ∧ t.saValid = false ∧ t.phase = .idle ∧
      t.elapsed = 0 ∧ t.txidx = 0 ∧ t.rxbuf = [] ∧ t.done = false ∧ t.errf = false ∧ t.err = 0 ∧ t.sub = 0 ∧ t.exc = 0 ∧
      t.linkCause = 0 ∧ t.rdata = [] ∧ t.rinfo = 0 ∧ t.rvalValid = false ∧ t.ctxValid = false ∧
      t.cfg = s.cfg ∧ t.device = s.device ∧ t.sent = s.sent ∧ t.inFlight = s.inFlight ∧ t.inputs = rest

/-- R38, R28, R32: what a host read of a result register returns, in any phase and without side effect: `STATUS` with its four
bits, the error registers, `RCOUNT`, `RINFO`, and, where they hold a value, `RVAL`, `CTX_REG`, `CTX_VAL` and `RDATA[i]`.
Where the value goes is the model's choice (log 8). -/
def Obligations.HostReadsResultRegisters : Prop :=
  ∀ (s : State) (n : Nat) (rest : List Input), s.inputs = .hostRead n :: rest →
    let returns := fun (v : Nat) => step s = .next { s with inputs := rest, hostData := BitVec.ofNat 32 v }
    (n = 1 → returns ((if s.phase = .idle then 0 else 1) + (if s.done then 2 else 0) + (if s.errf then 4 else 0) +
      (if s.saValid then 8 else 0))) ∧
    (n = 2 → returns s.err.toNat) ∧ (n = 3 → returns s.sub.toNat) ∧ (n = 4 → returns s.exc.toNat) ∧
    (n = 5 → returns s.linkCause.toNat) ∧ (n = 6 → returns (s.rdata.length % 256)) ∧
    (n = 7 → s.rvalValid = true → returns s.rval.toNat) ∧ (n = 8 → returns s.rinfo.toNat) ∧
    (n = 9 → s.ctxValid = true → returns s.curReg.toNat) ∧ (n = 10 → s.ctxValid = true → returns s.curArg.toNat) ∧
    (∀ i, n = 256 + i → i < s.cfg.maxReadCount → i < s.rdata.length → returns (s.rdata.getD i 0).toNat)

/-- R41: a host read of an element that holds no value is a fault: `RVAL` after a command that returns no scalar, `CTX_REG` and `CTX_VAL`
before the first exchange command, `RDATA[i]` with `i` at or above `RCOUNT`. -/
def Obligations.ReadingNoValueFaults : Prop :=
  ∀ (s : State) (n : Nat) (rest : List Input), s.inputs = .hostRead n :: rest →
    (n = 7 → s.rvalValid = false → step s = .fault (.noValue 7)) ∧
    (n = 9 ∨ n = 10 → s.ctxValid = false → step s = .fault (.noValue n)) ∧
    (∀ i, n = 256 + i → i < s.cfg.maxReadCount → s.rdata.length ≤ i → step s = .fault (.noValue n))

/-- R38: a read of a number that is not in the table, or of the write-only `CMD`, and a write to any number but 0, are no moves the
host has: they are refused.
That a read of `CMD` falls under this is the model's reading (log 9). -/
def Obligations.OtherHostMovesRefused : Prop :=
  ∀ (s : State) (n : Nat) (rest : List Input),
    (s.inputs = .hostRead n :: rest → n = 0 ∨ (11 ≤ n ∧ n < 256) ∨ 256 + s.cfg.maxReadCount ≤ n →
      step s = .refused (.noHostRegister n)) ∧
    (∀ w, s.inputs = .hostWrite n w :: rest → n ≠ 0 → step s = .refused (.noHostRegister n))

/-! ### With the reference device -/

/-- R76, R172, R77 (c): a read exchange with the reference device, end to end. Where every register asked for is in the map and
readable, `RDHR` ends without error with exactly the device's values, in address order; the device is unchanged. Where no earlier request waits for the device the run
is one that R76 allows it, answering at once.
The reference device beside the block: log 13. -/
def Obligations.ReadExchangeReturnsDeviceValues : Prop :=
  ∀ (s : State) (addr count : Word),
    s.cfg.wf = true → s.cfg.txGuardTicks = 0 → s.phase = .idle → s.saValid = true → s.device.addr = s.slaveAddr →
    s.inFlight = [] → 1 ≤ count.toNat → count.toNat ≤ s.cfg.maxReadCount → count.toNat ≤ 125 →
    (∀ i < count.toNat, deviceReadable (addr.toNat + i) = true) →
    s.inputs = [.hostWrite 0 (0x01#8 ++ addr ++ count), .txFrame, .deviceAct 0] ++
      List.replicate (5 + 2 * count.toNat) .rxLine →
    ∃ t, stepsTo s.inputs.length s = some t ∧ t.phase = .idle ∧ t.done = true ∧ t.err = 0 ∧ t.errf = false ∧
      t.rdata = (List.range count.toNat).map (fun i => s.device.regs.read (addr.toNat + i)) ∧ t.device = s.device ∧
      (s.deviceOwes = false → referenceRun s.inputs.length s = true)

/-- R76, R173, R337: a write exchange with the reference device, end to end. Where the register is in the map and writable, `WRSR`
ends without error, the device's register holds the value, every other one what it held, and `SLAVE_ADDR` is unchanged even if the
register was the device's bus address.
The reference device beside the block: log 13. -/
def Obligations.WriteExchangeStoresInDevice : Prop :=
  ∀ (s : State) (addr value : Word),
    s.cfg.wf = true → s.cfg.txGuardTicks = 0 → s.phase = .idle → s.saValid = true → s.device.addr = s.slaveAddr →
    s.inFlight = [] → s.device.regs.wf = true → deviceWritable addr.toNat = true →
    s.inputs = [.hostWrite 0 (0x02#8 ++ addr ++ value), .txFrame, .deviceAct 0] ++ List.replicate 8 .rxLine →
    ∃ t, stepsTo s.inputs.length s = some t ∧ t.phase = .idle ∧ t.done = true ∧ t.err = 0 ∧ t.rdata = [] ∧
      t.device.regs.read addr.toNat = value ∧
      (∀ a, a ≠ addr.toNat → t.device.regs.read a = s.device.regs.read a) ∧
      t.device.addr = (if addr = 2 then lo8 value else s.device.addr) ∧ t.slaveAddr = s.slaveAddr ∧
      (s.deviceOwes = false → referenceRun s.inputs.length s = true)

/-- R76, R142: a read that reaches a hole of the map or a write-only register ends, with the reference device, in `DeviceException` with
code 0x02 and no value; the device is unchanged.
The reference device beside the block: log 13. -/
def Obligations.UnreadableRegisterEndsInException : Prop :=
  ∀ (s : State) (addr count : Word),
    s.cfg.wf = true → s.cfg.txGuardTicks = 0 → s.phase = .idle → s.saValid = true → s.device.addr = s.slaveAddr →
    s.inFlight = [] → 1 ≤ count.toNat → count.toNat ≤ s.cfg.maxReadCount →
    (∃ i < count.toNat, deviceReadable (addr.toNat + i) = false) →
    s.inputs = [.hostWrite 0 (0x01#8 ++ addr ++ count), .txFrame, .deviceAct 0] ++ List.replicate 5 .rxLine →
    ∃ t, stepsTo s.inputs.length s = some t ∧ t.phase = .idle ∧ t.err = 4 ∧ t.exc = 2 ∧ t.rdata = [] ∧
      t.device = s.device

/-- R333, R78, U1: a write whose answer never comes ends in `Timeout`, and both outcomes are open: the device's register may still hold
its old value, and the device may act on the abandoned request afterwards, which the block does not see.
The reference device beside the block: log 13. -/
def Obligations.TimedOutWriteMayStillLand : Prop :=
  ∀ (s : State) (addr value : Word) (later : List Input),
    s.cfg.wf = true → s.cfg.txGuardTicks = 0 → s.phase = .idle → s.saValid = true → s.device.addr = s.slaveAddr →
    s.device.regs.wf = true → deviceWritable addr.toNat = true →
    s.inputs = [.hostWrite 0 (0x02#8 ++ addr ++ value), .txFrame] ++ List.replicate (max s.timeout.toNat 1) .tick ++
      .deviceAct 0 :: later →
    ∃ t u, stepsTo (2 + max s.timeout.toNat 1) s = some t ∧ step t = .next u ∧
      t.phase = .idle ∧ t.err = 2 ∧ t.device = s.device ∧ u.device.regs.read addr.toNat = value ∧
      u.phase = .idle ∧ u.err = 2 ∧ u.status = t.status

/-- R78: the device acts on a request zero or one time. (a) No step makes a request that has been acted on one that has not: the requests
on the line stay in their order, each keeps its bytes, to which more may be added, new ones come in front, and each that was acted on
still is. (b) The device's move on a complete request that it has not acted on marks that one as acted on, and changes nothing else but
the device and what is in flight. (c) Its move on one that it has acted on does nothing. The reference device beside the block: log 13; how
the line holds requests: log 17. -/
def Obligations.RequestActedOnAtMostOnce : Prop :=
  ∀ (s t : State),
    (step s = .next t → ∃ newer same, t.sent = newer ++ same ∧ same.length = s.sent.length ∧
      ∀ (k : Nat) (r : Request), s.sent[k]? = some r →
        ∃ r', same[k]? = some r' ∧ r.bytes <+: r'.bytes ∧ (r.acted = true → r'.acted = true)) ∧
    (∀ (k : Nat) (r : Request) (rest : List Input), s.inputs = .deviceAct k :: rest → s.sent[k]? = some r →
      (r.bytes.length = 8 → r.acted = false → ∃ (d : Device) (answer : List Byte), step s = .next { s with
        inputs := rest, device := d, sent := s.sent.set k { r with acted := true }, inFlight := s.inFlight ++ answer }) ∧
      (r.acted = true → step s = .next (s.withInputs rest)))

/-! ### Host software (43_host_software.md) -/

/-- R250, R251, R255, R256: the temperature codecs round-trip on the valid range −20 to 120. -/
def Obligations.TemperatureCodecRoundTrips : Prop :=
  (∀ c : Int, -20 ≤ c → c ≤ 120 → registerToCelsius (celsiusToRegister c) = c) ∧
  (∀ lo hi : Int, -20 ≤ lo → lo ≤ 120 → -20 ≤ hi → hi ≤ 120 →
    parseCombinedTemperature (encodeCombinedTemperature lo hi) = (lo, hi))

/-- R263, R262: `set_addr(v)` fails without any command outside 1..=254; else it writes the address register first, and only if that ended
without error does it update the cached address, with the same value. -/
def Obligations.SetAddrWritesThenUpdatesCache : Prop :=
  ∀ (c : Config) (v : Int) (err : Byte), c.wf = true →
    (v < 1 ∨ 254 < v → setAddr c v = .error .address) ∧
    (1 ≤ v → v ≤ 254 → ∃ (idx : BitVec 4) (value : Word) (sa : Byte) (plan : List Instr),
      c.romOrder[idx.toNat]? = some .busAddr ∧ (value.toNat : Int) = v ∧ (sa.toNat : Int) = v ∧ setAddr c v = .ok plan ∧
      plan = [.wrreg idx value, .setsa sa] ∧
      (err = 0 → planAfter err plan = [.setsa sa]) ∧ (err ≠ 0 → planAfter err plan = []))

/-- R266, R262: `set_temperature_threshold` issues a command only if both thresholds are in −20..=120 and high is strictly greater than low,
and what it writes reads back as those thresholds, in either of the two expansions the source leaves open.
The two expansions: log 21. -/
def Obligations.ThresholdsValidatedAndEncoded : Prop :=
  ∀ (c : Config) (low high : Int), c.wf = true →
    (-20 ≤ low ∧ low ≤ 120 ∧ -20 ≤ high ∧ high ≤ 120 ∧ low < high →
      ∃ (both lo hi : BitVec 4) (w wl wh : Word),
        c.romOrder[both.toNat]? = some .tempCombined ∧ c.romOrder[lo.toNat]? = some .tempLow ∧
        c.romOrder[hi.toNat]? = some .tempHigh ∧
        setThresholds c true low high = .ok [.wrreg both w] ∧ parseCombinedTemperature w = (low, high) ∧
        setThresholds c false low high = .ok [.wrreg lo wl, .wrreg hi wh] ∧
        registerToCelsius wl = low ∧ registerToCelsius wh = high) ∧
    (¬(-20 ≤ low ∧ low ≤ 120 ∧ -20 ≤ high ∧ high ≤ 120 ∧ low < high) →
      ∀ combined, setThresholds c combined low high = .error .threshold)
end

