-- ==== Sys2Proof/Laws/Codec.lean ====
section
/-! SUPPORT. The small lemmas of the codec: byte splitting, the checksum register, lengths of frames. -/

namespace Sys2Proof.Machine

/-! ### Splitting and assembling words -/

theorem toNat_fromBe16 (a b : Byte) : (fromBe16 a b).toNat = a.toNat * 256 + b.toNat := by
  have := BitVec.toNat_append a b
  rw [← Nat.shiftLeft_add_eq_or_of_lt b.isLt, Nat.shiftLeft_eq] at this
  exact this

theorem toNat_hi8 (w : Word) : (hi8 w).toNat = w.toNat / 256 := by
  have := w.isLt
  simp only [hi8, BitVec.extractLsb'_toNat, Nat.shiftRight_eq_div_pow]
  omega

theorem toNat_lo8 (w : Word) : (lo8 w).toNat = w.toNat % 256 := by
  simp [lo8, BitVec.extractLsb'_toNat]

@[simp] theorem fromBe16_hi8_lo8 (w : Word) : fromBe16 (hi8 w) (lo8 w) = w := by
  apply BitVec.eq_of_toNat_eq
  rw [toNat_fromBe16, toNat_hi8, toNat_lo8]
  omega

@[simp] theorem fromLe16_lo8_hi8 (w : Word) : fromLe16 (lo8 w) (hi8 w) = w := fromBe16_hi8_lo8 w

@[simp] theorem hi8_fromBe16 (a b : Byte) : hi8 (fromBe16 a b) = a := by
  apply BitVec.eq_of_toNat_eq
  have := b.isLt
  rw [toNat_hi8, toNat_fromBe16]
  omega

@[simp] theorem lo8_fromBe16 (a b : Byte) : lo8 (fromBe16 a b) = b := by
  apply BitVec.eq_of_toNat_eq
  have := b.isLt
  rw [toNat_lo8, toNat_fromBe16]
  omega

@[simp] theorem lo8_fromLe16 (a b : Byte) : lo8 (fromLe16 a b) = a := lo8_fromBe16 b a

@[simp] theorem hi8_fromLe16 (a b : Byte) : hi8 (fromLe16 a b) = b := hi8_fromBe16 b a

/-- A word is its two bytes. -/
theorem fromBe16_inj {a b c d : Byte} : fromBe16 a b = fromBe16 c d ↔ a = c ∧ b = d := by
  refine ⟨fun h => ⟨?_, ?_⟩, fun ⟨h, k⟩ => h ▸ k ▸ rfl⟩
  · simpa using congrArg hi8 h
  · simpa using congrArg lo8 h

theorem fromLe16_inj {a b c d : Byte} : fromLe16 a b = fromLe16 c d ↔ a = c ∧ b = d :=
  fromBe16_inj.trans and_comm

@[simp] theorem wordsBytes_nil : wordsBytes [] = [] := rfl

@[simp] theorem wordsBytes_cons (w : Word) (ws : List Word) :
    wordsBytes (w :: ws) = hi8 w :: lo8 w :: wordsBytes ws := rfl

@[simp] theorem length_wordsBytes (ws : List Word) : (wordsBytes ws).length = 2 * ws.length := by
  induction ws with
  | nil => rfl
  | cons w ws ih => simp [ih]; omega

/-- The values of a data field come back in order. -/
@[simp] theorem bytesWords_wordsBytes (ws : List Word) : bytesWords (wordsBytes ws) = ws := by
  induction ws with
  | nil => rfl
  | cons w ws ih => simp [bytesWords, ih]

/-- Any even number of bytes is the data field of the words it holds. -/
theorem wordsBytes_bytesWords : ∀ (n : Nat) (l : List Byte), l.length = 2 * n → wordsBytes (bytesWords l) = l
  | 0, [], _ => rfl
  | n + 1, a :: b :: l, h => by
    simp only [bytesWords, wordsBytes_cons, hi8_fromBe16, lo8_fromBe16]
    rw [wordsBytes_bytesWords n l (by simp at h; omega)]
  | 0, _ :: _, h => by simp at h
  | n + 1, [], h => by simp at h
  | n + 1, [_], h => by simp at h; omega

theorem length_bytesWords : ∀ (n : Nat) (l : List Byte), l.length = 2 * n → (bytesWords l).length = n
  | 0, [], _ => rfl
  | n + 1, a :: b :: l, h => by
    simp only [bytesWords, List.length_cons]
    rw [length_bytesWords n l (by simp at h; omega)]
  | 0, _ :: _, h => by simp at h
  | n + 1, [], h => by simp at h
  | n + 1, [_], h => by simp at h; omega

/-! ### The bits of TIMEOUT -/

theorem timeoutBits_eq (c : Config) (ticks : BitVec 32) :
    timeoutBits c ticks = BitVec.ofNat 32 (ticks.toNat % 2 ^ c.timeoutWidth) := by
  apply BitVec.eq_of_toNat_eq
  simp [timeoutBits]

/-- With the full width `TIMEOUT` holds the operand. -/
theorem timeoutBits_full {c : Config} (h : c.timeoutWidth = 32) (ticks : BitVec 32) : timeoutBits c ticks = ticks := by
  rw [timeoutBits_eq, h, Nat.mod_eq_of_lt ticks.isLt, BitVec.ofNat_toNat, BitVec.setWidth_eq]

theorem timeoutBits_lt (c : Config) (ticks : BitVec 32) : (timeoutBits c ticks).toNat < 2 ^ c.timeoutWidth := by
  rw [timeoutBits_eq, BitVec.toNat_ofNat]
  exact Nat.lt_of_le_of_lt (Nat.mod_le _ _) (Nat.mod_lt _ (Nat.two_pow_pos _))

/-! ### The checksum register -/

/-- R130's shift step. -/
theorem crcBit_lsb {c : Config} (h : c.crcLsbFirst = true) (r : Word) :
    crcBit c r = if r.getLsbD 0 then (r >>> 1) ^^^ Config.crcPoly else r >>> 1 := if_pos h

/-- Its mirror. -/
theorem crcBit_msb {c : Config} (h : c.crcLsbFirst = false) (r : Word) :
    crcBit c r = if r.msb then (r <<< 1) ^^^ crcPolyMirror else r <<< 1 :=
  if_neg (by rw [h]; exact Bool.false_ne_true)

/-- A step with a zero shifted out is a plain shift. -/
theorem crcBit_even {c : Config} (hc : c.crcLsbFirst = true) {r : Word} (h : r.getLsbD 0 = false) :
    crcBit c r = r >>> 1 := by
  rw [crcBit_lsb hc, if_neg (by rw [h]; exact Bool.false_ne_true)]

theorem crcBit_injective_lsb {c : Config} (hc : c.crcLsbFirst = true) {a b : Word} (h : crcBit c a = crcBit c b) :
    a = b := by
  have top : ∀ r : Word, (crcBit c r).getLsbD 15 = r.getLsbD 0 := by
    intro r
    rw [crcBit_lsb hc]
    split <;> rename_i hr
    · rw [hr]; simp [Config.crcPoly]
    · simp at hr; simp [hr]
  have h0 : a.getLsbD 0 = b.getLsbD 0 := by rw [← top a, ← top b, h]
  have hs : a >>> 1 = b >>> 1 := by
    rw [crcBit_lsb hc, crcBit_lsb hc, h0] at h
    split at h
    · simpa using congrArg (· ^^^ Config.crcPoly) h
    · exact h
  apply BitVec.eq_of_getLsbD_eq
  intro i hi
  rcases i with _ | i
  · exact h0
  · have := congrArg (fun v => v.getLsbD i) hs
    simpa [BitVec.getLsbD_ushiftRight, Nat.add_comm] using this

theorem crcBit_injective_msb {c : Config} (hc : c.crcLsbFirst = false) {a b : Word} (h : crcBit c a = crcBit c b) :
    a = b := by
  have low : ∀ r : Word, (crcBit c r).getLsbD 0 = r.msb := by
    intro r
    rw [crcBit_msb hc]
    split <;> rename_i hr
    · rw [hr]; simp [crcPolyMirror]
    · simp at hr; simp [hr]
  have h0 : a.msb = b.msb := by rw [← low a, ← low b, h]
  have hs : a <<< 1 = b <<< 1 := by
    rw [crcBit_msb hc, crcBit_msb hc, h0] at h
    split at h
    · simpa using congrArg (· ^^^ crcPolyMirror) h
    · exact h
  apply BitVec.eq_of_getLsbD_eq
  intro i hi
  by_cases h15 : i = 15
  · subst h15
    simpa [BitVec.msb_eq_getLsbD_last] using h0
  · have := congrArg (fun v => v.getLsbD (i + 1)) hs
    simp only [BitVec.getLsbD_shiftLeft, show i + 1 < 16 by omega, Nat.add_sub_cancel] at this
    simpa [BitVec.getLsbD_eq_getElem hi] using this

/-- A shift step loses nothing: the bit shifted out is a bit of the result. -/
theorem crcBit_injective {c : Config} {a b : Word} (h : crcBit c a = crcBit c b) : a = b := by
  cases hc : c.crcLsbFirst
  · exact crcBit_injective_msb hc h
  · exact crcBit_injective_lsb hc h

theorem crcAlign_injective {c : Config} {x y : Byte} (h : crcAlign c x = crcAlign c y) : x = y := by
  unfold crcAlign at h
  split at h
  · simpa using congrArg (BitVec.setWidth 8) h
  · apply BitVec.eq_of_toNat_eq
    have := congrArg BitVec.toNat h
    simp only [BitVec.toNat_append, Nat.shiftLeft_eq, BitVec.toNat_ofNat, Nat.zero_mod, Nat.or_zero] at this
    omega

theorem crcByte_eq_iff {c : Config} {a b : Word} {x y : Byte} :
    crcByte c a x = crcByte c b y ↔ a ^^^ crcAlign c x = b ^^^ crcAlign c y := by
  unfold crcByte
  refine ⟨fun h => ?_, fun h => by rw [h]⟩
  exact crcBit_injective <| crcBit_injective <| crcBit_injective <| crcBit_injective <| crcBit_injective <|
    crcBit_injective <| crcBit_injective <| crcBit_injective h

theorem crcByte_injective {c : Config} {a b : Word} {x : Byte} (h : crcByte c a x = crcByte c b x) : a = b := by
  simpa using congrArg (· ^^^ crcAlign c x) (crcByte_eq_iff.mp h)

theorem crcByte_injective_byte {c : Config} {r : Word} {x y : Byte} (h : crcByte c r x = crcByte c r y) : x = y := by
  have := congrArg (r ^^^ ·) (crcByte_eq_iff.mp h)
  simp only [← BitVec.xor_assoc, BitVec.xor_self, BitVec.zero_xor] at this
  exact crcAlign_injective this

@[simp] theorem crcFrom_nil (c : Config) (r : Word) : crcFrom c r [] = r := rfl

@[simp] theorem crcFrom_cons (c : Config) (r : Word) (x : Byte) (xs : List Byte) :
    crcFrom c r (x :: xs) = crcFrom c (crcByte c r x) xs := rfl

theorem crcFrom_append (c : Config) (r : Word) (s t : List Byte) :
    crcFrom c r (s ++ t) = crcFrom c (crcFrom c r s) t := by
  induction s generalizing r with
  | nil => rfl
  | cons x s ih => simp [ih]

theorem crcFrom_injective {c : Config} {a b : Word} {s : List Byte} (h : crcFrom c a s = crcFrom c b s) : a = b := by
  induction s generalizing a b with
  | nil => exact h
  | cons x s ih => exact crcByte_injective (ih h)

/-- Changing one byte changes the register. -/
theorem crcFrom_modify_ne (c : Config) (f : Byte → Byte) (hf : ∀ b, f b ≠ b) :
    ∀ (s : List Byte) (r : Word) (j : Nat), j < s.length → crcFrom c r (s.modify j f) ≠ crcFrom c r s
  | x :: s, r, 0, _, h => hf x (crcByte_injective_byte (crcFrom_injective (by simpa using h)))
  | x :: s, r, j + 1, hj, h =>
    crcFrom_modify_ne c f hf s (crcByte c r x) j (by simpa using hj) (by simpa using h)

/-- Changing one byte changes the checksum. -/
theorem crc16_modify_ne (c : Config) (f : Byte → Byte) (hf : ∀ b, f b ≠ b) (s : List Byte) (j : Nat) (hj : j < s.length) :
    crc16 c (s.modify j f) ≠ crc16 c s := fun h =>
  crcFrom_modify_ne c f hf s Config.crcInit j hj (by simpa [crc16] using congrArg (· ^^^ c.crcXorOut) h)

theorem reverse_xor (a b : Word) : (a ^^^ b).reverse = a.reverse ^^^ b.reverse := by
  apply BitVec.eq_of_getLsbD_eq
  intro i hi
  simp only [BitVec.getLsbD_xor, BitVec.getLsbD_reverse, BitVec.getMsbD_xor]

/-- The most-significant-first step mirrors R130's: on the reversed register it gives the reversed result. -/
theorem crcBit_reverse {c d : Config} (hc : c.crcLsbFirst = true) (hd : d.crcLsbFirst = false) (r : Word) :
    crcBit d r.reverse = (crcBit c r).reverse := by
  have top : r.reverse.msb = r.getLsbD 0 := by simp [BitVec.msb_reverse]
  have shift : r.reverse <<< 1 = (r >>> 1).reverse := by
    apply BitVec.eq_of_getLsbD_eq
    intro i hi
    simp only [BitVec.getLsbD_shiftLeft, BitVec.getLsbD_reverse, BitVec.getMsbD_eq_getLsbD, BitVec.getLsbD_ushiftRight]
    rcases i with _ | i
    · simp
    · simp [show 16 - 1 - i = 1 + (16 - 1 - (i + 1)) by omega, show i < 16 by omega, hi]
  rw [crcBit_lsb hc, crcBit_msb hd, top, shift]
  split
  · rw [reverse_xor]
    rfl
  · rfl

/-- The whole register likewise, over bytes that are each reversed. -/
theorem crcFrom_reverse {c d : Config} (hc : c.crcLsbFirst = true) (hd : d.crcLsbFirst = false) (r : Word)
    (s : List Byte) : crcFrom d r.reverse (s.map BitVec.reverse) = (crcFrom c r s).reverse := by
  have align : ∀ x : Byte, crcAlign d x.reverse = (crcAlign c x).reverse := by
    intro x
    rw [crcAlign, crcAlign, if_pos hc, if_neg (by simp [hd])]
    apply BitVec.eq_of_getLsbD_eq
    intro i hi
    rw [BitVec.getLsbD_reverse, BitVec.getLsbD_append, BitVec.getMsbD_eq_getLsbD, BitVec.getLsbD_setWidth,
      BitVec.getLsbD_reverse, BitVec.getMsbD_eq_getLsbD]
    by_cases h8 : i < 8
    · have : x.getLsbD (16 - 1 - i) = false := BitVec.getLsbD_of_ge _ _ (by omega)
      simp [h8, this]
    · simp [h8, hi, show i - 8 < 8 by omega, show 16 - 1 - i < 16 by omega, show 8 - 1 - (i - 8) = 16 - 1 - i by omega]
  induction s generalizing r with
  | nil => rfl
  | cons x s ih =>
    rw [List.map_cons, crcFrom_cons, crcFrom_cons, ← ih, crcByte, crcByte, align, ← reverse_xor]
    simp only [crcBit_reverse hc hd]

/-- With R130's procedure the register followed by its own image, low byte first, is zero. -/
theorem crcFrom_le16_self {c : Config} (hc : c.crcLsbFirst = true) (r : Word) : crcFrom c r (le16 r) = 0 := by
  have shift8 : ∀ v : Word, (∀ k < 8, v.getLsbD k = false) →
      crcBit c (crcBit c (crcBit c (crcBit c (crcBit c (crcBit c (crcBit c (crcBit c v))))))) = v >>> 8 := by
    intro v hv
    have step : ∀ k < 8, crcBit c (v >>> k) = v >>> (k + 1) := by
      intro k hk
      rw [crcBit_even hc (by simpa [BitVec.getLsbD_ushiftRight] using hv k hk), ← BitVec.shiftRight_add]
    have h0 := step 0 (by omega)
    rw [BitVec.ushiftRight_zero] at h0
    rw [h0, step 1 (by omega), step 2 (by omega), step 3 (by omega), step 4 (by omega), step 5 (by omega),
      step 6 (by omega), step 7 (by omega)]
  have align : ∀ x : Byte, crcAlign c x = x.setWidth 16 := fun x => if_pos hc
  have first : crcByte c r (lo8 r) = r >>> 8 := by
    unfold crcByte
    rw [align, shift8]
    · apply BitVec.eq_of_getLsbD_eq
      intro i hi
      simp [lo8, BitVec.getLsbD_ushiftRight]
    · intro k hk
      simp [lo8, hk]; omega
  have second : crcByte c (r >>> 8) (hi8 r) = 0 := by
    unfold crcByte
    have : r >>> 8 ^^^ (hi8 r).setWidth 16 = 0 := by
      apply BitVec.eq_of_getLsbD_eq
      intro i hi
      simp only [hi8, BitVec.getLsbD_xor, BitVec.getLsbD_ushiftRight, BitVec.getLsbD_setWidth,
        BitVec.getLsbD_extractLsb']
      by_cases h8 : i < 8
      · simp [h8, hi]
      · simp [h8]; exact BitVec.getLsbD_of_ge _ _ (by omega)
    rw [align, this, shift8 0 (by simp)]
    simp
  simp [le16, first, second]

/-- With R130's procedure two more bytes bring the register to zero exactly when they are its own image. -/
theorem crcFrom_pair_eq_zero {c : Config} (hc : c.crcLsbFirst = true) (r : Word) (a b : Byte) :
    crcFrom c r [a, b] = 0 ↔ r = fromLe16 a b := by
  have h := crcFrom_le16_self hc (fromLe16 a b)
  simp only [le16, lo8_fromLe16, hi8_fromLe16] at h
  exact ⟨fun h' => crcFrom_injective (h'.trans h.symm), fun h' => h' ▸ h⟩

/-! ### Frames -/

@[simp] theorem length_trailer (c : Config) (s : List Byte) : (trailer c s).length = s.length + 2 := by simp [trailer, le16]

/-- A frame of a body and two more bytes: `VERIFY` compares the body's checksum with them. -/
theorem verify_append_pair (c : Config) (s : List Byte) (a b : Byte) :
    verify c (s ++ [a, b]) = (crc16 c s == fromLe16 a b) := by
  simp [verify, carriedCrc, List.getD_eq_getElem?_getD]

@[simp] theorem verify_trailer (c : Config) (s : List Byte) : verify c (trailer c s) = true := by
  rw [trailer, le16, verify_append_pair]
  simp

@[simp] theorem length_encRd (c : Config) (sa : Byte) (reg n : Word) : (encRd c sa reg n).length = 8 := by
  simp [encRd, be16]

@[simp] theorem length_encWr (c : Config) (sa : Byte) (reg v : Word) : (encWr c sa reg v).length = 8 := by
  simp [encWr, be16]

@[simp] theorem length_encRequest (c : Config) (op : Op) (sa : Byte) (reg arg : Word) :
    (encRequest c op sa reg arg).length = 8 := by
  cases op <;> simp [encRequest]

/-- The expected length is at least 5 (R138). -/
theorem five_le_explen (op : Op) (n : Word) (f : Byte) : 5 ≤ explen op n f := by
  unfold explen
  split
  · omega
  · cases op <;> simp

/-- A function code without bit 7 does not have its exception form's length. -/
theorem explen_plain {f : Byte} (h : f.msb = false) (op : Op) (n : Word) :
    explen op n f = match op with
      | .read => 5 + 2 * n.toNat
      | .write => 8 := by
  have : f.getLsbD 7 = false := by simpa [BitVec.msb_eq_getLsbD_last] using h
  cases op <;> exact if_neg (by rw [this]; exact Bool.false_ne_true)

/-- An exception form is always expected to be five bytes long. -/
theorem explen_excFn (op : Op) (n : Word) (f : Byte) : explen op n (excFn f) = 5 := by
  simp [explen, excFn, Config.excBit]

/-- What `DEC` says of a frame of the expected length, given as a body, its checksum and the two bytes it ends with: the
checks one after another (R139). -/
theorem dec_of_body (c : Config) (op : Op) (sa : Byte) (reg arg : Word) (body : List Byte) (crc k : Word) (a0 a1 : Byte)
    (hk : crc16 c body = k) (h0 : (body ++ [lo8 crc, hi8 crc]).getD 0 0 = a0)
    (h1 : (body ++ [lo8 crc, hi8 crc]).getD 1 0 = a1) (hl : explen op arg a1 = body.length + 2) :
    dec c op sa reg arg (body ++ [lo8 crc, hi8 crc]) =
      if k ≠ crc then .frame .crc
      else if a0 ≠ sa then .frame .address
      else if a1 = excFn (fnOf c op) then decExc (body ++ [lo8 crc, hi8 crc])
      else if a1 ≠ fnOf c op then .frame .function
      else decData op reg arg (body ++ [lo8 crc, hi8 crc]) := by
  unfold dec
  have := five_le_explen op arg a1
  have hlen : (body ++ [lo8 crc, hi8 crc]).length = body.length + 2 := by simp
  rw [h0, h1, hlen, if_neg (by omega), verify_append_pair, fromLe16_lo8_hi8, hk]
  by_cases h : k = crc
  · rw [if_neg (by simp [h]), if_neg (c := k ≠ crc) (by simp [h])]
  · rw [if_pos (by simp [h]), if_pos (c := k ≠ crc) (by simp [h])]

end Sys2Proof.Machine
end

