-- ==== Sys2Proof/Laws/Decode.lean ====
section
/-! SUPPORT. The fields of a command word, and the exception form of a function code. -/

namespace Sys2Proof

open Sys2Proof.Machine

theorem toNat_append_cmd {m n : Nat} (a : BitVec m) (b : BitVec n) : (a ++ b).toNat = a.toNat * 2 ^ n + b.toNat := by
  rw [BitVec.toNat_append, ← Nat.shiftLeft_add_eq_or_of_lt b.isLt, Nat.shiftLeft_eq]

theorem toNat_cmdWord (op : Byte) (a b : Word) :
    (cmdWord op a b).toNat = op.toNat * 2 ^ 32 + a.toNat * 2 ^ 16 + b.toNat := by
  unfold cmdWord
  rw [toNat_append_cmd, toNat_append_cmd]
  omega

theorem toNat_cmdOp (w : BitVec 40) : (cmdOp w).toNat = w.toNat / 2 ^ 32 := by
  have := w.isLt
  simp only [cmdOp, BitVec.extractLsb'_toNat, Nat.shiftRight_eq_div_pow]
  omega

theorem toNat_cmdA (w : BitVec 40) : (cmdA w).toNat = w.toNat / 2 ^ 16 % 2 ^ 16 := by
  simp only [cmdA, BitVec.extractLsb'_toNat, Nat.shiftRight_eq_div_pow]

theorem toNat_cmdB (w : BitVec 40) : (cmdB w).toNat = w.toNat % 2 ^ 16 := by
  simp only [cmdB, BitVec.extractLsb'_toNat, Nat.shiftRight_zero]

theorem toNat_cmdArg32 (w : BitVec 40) : (cmdArg32 w).toNat = w.toNat % 2 ^ 32 := by
  simp only [cmdArg32, BitVec.extractLsb'_toNat, Nat.shiftRight_zero]

@[simp] theorem cmdOp_cmdWord (op : Byte) (a b : Word) : cmdOp (cmdWord op a b) = op := by
  apply BitVec.eq_of_toNat_eq
  rw [toNat_cmdOp, toNat_cmdWord]
  omega

@[simp] theorem cmdA_cmdWord (op : Byte) (a b : Word) : cmdA (cmdWord op a b) = a := by
  apply BitVec.eq_of_toNat_eq
  rw [toNat_cmdA, toNat_cmdWord]
  omega

@[simp] theorem cmdB_cmdWord (op : Byte) (a b : Word) : cmdB (cmdWord op a b) = b := by
  apply BitVec.eq_of_toNat_eq
  rw [toNat_cmdB, toNat_cmdWord]
  omega

@[simp] theorem cmdWord_fields (w : BitVec 40) : cmdWord (cmdOp w) (cmdA w) (cmdB w) = w := by
  apply BitVec.eq_of_toNat_eq
  rw [toNat_cmdWord, toNat_cmdOp, toNat_cmdA, toNat_cmdB]
  omega

@[simp] theorem cmdOp_append_arg32 (op : Byte) (t : BitVec 32) : cmdOp (op ++ t) = op := by
  apply BitVec.eq_of_toNat_eq
  rw [toNat_cmdOp, toNat_append_cmd]
  omega

@[simp] theorem cmdArg32_append_arg32 (op : Byte) (t : BitVec 32) : cmdArg32 (op ++ t) = t := by
  apply BitVec.eq_of_toNat_eq
  rw [toNat_cmdArg32, toNat_append_cmd]
  omega

@[simp] theorem append_cmdArg32 (w : BitVec 40) : cmdOp w ++ cmdArg32 w = w := by
  apply BitVec.eq_of_toNat_eq
  rw [toNat_append_cmd, toNat_cmdOp, toNat_cmdArg32]
  omega

/-- The low bits of a zero-extended operand are the operand. -/
@[simp] theorem low_setWidth {n : Nat} (h : n ≤ 16) (v : BitVec n) : (v.setWidth 16).extractLsb' 0 n = v := by
  apply BitVec.eq_of_getLsbD_eq
  intro i hi
  simp only [BitVec.getLsbD_extractLsb', BitVec.getLsbD_setWidth, Nat.zero_add, hi, decide_true, Bool.true_and]
  simp [show i < 16 by omega]

theorem high_setWidth_idx (v : BitVec 4) : (v.setWidth 16 : Word).extractLsb' 4 12 = 0 := by revert v; decide

theorem hi8_setWidth (v : Byte) : hi8 (v.setWidth 16) = 0 := by
  apply BitVec.eq_of_toNat_eq
  rw [toNat_hi8]
  have := v.isLt
  simp
  omega

@[simp] theorem lo8_setWidth (v : Byte) : lo8 (v.setWidth 16) = v := low_setWidth (by omega) v

/-- An operand field whose other bits are zero is the zero extension of its low bits. -/
theorem setWidth_low_idx {a : Word} (h : a.extractLsb' 4 12 = 0) : (a.extractLsb' 0 4).setWidth 16 = a := by
  have h := congrArg BitVec.toNat h
  apply BitVec.eq_of_toNat_eq
  have := a.isLt
  simp only [BitVec.extractLsb'_toNat, BitVec.toNat_setWidth, Nat.shiftRight_eq_div_pow,
    show (0 : BitVec 12).toNat = 0 from rfl] at *
  omega

theorem setWidth_lo8 {b : Word} (h : hi8 b = 0) : (lo8 b).setWidth 16 = b := by
  have h := congrArg BitVec.toNat h
  apply BitVec.eq_of_toNat_eq
  have := b.isLt
  rw [toNat_hi8] at h
  rw [BitVec.toNat_setWidth, toNat_lo8]
  simp at h
  omega

/-- An instruction is read only where the bits that carry no operand are zero. -/
theorem unlessReserved_eq_ok {z : Bool} {i j : Instr} : unlessReserved z i = .ok j ↔ z = true ∧ i = j := by
  cases z <;> simp [unlessReserved]

/-! ### What well-formed parameters say (R7, R92) -/

/-- The receive buffer holds every response the block can ask for (R27, R96, R138), but for a write response of 8 bytes where only one
register may be read (log 23). -/
theorem explen_le_rxMax {c : Config} (h : c.wf = true) {op : Op} {n : Word}
    (hn : op = .read → n.toNat ≤ c.maxReadCount) (f : Byte) : explen op n f ≤ max 8 c.rxMax := by
  have hm : c.rxMax = 5 + 2 * c.maxReadCount := by
    simp only [Config.wf, Bool.and_eq_true, beq_iff_eq] at h
    tauto
  unfold explen
  split
  · omega
  · cases op with
    | read => have := hn rfl; simp only; omega
    | write => simp only; omega

/-- `TIMEOUT` has at most 32 bits and holds the reset value of ten seconds. -/
theorem Config.wf_timeout {c : Config} (h : c.wf = true) :
    c.timeoutWidth ≤ 32 ∧ 10 * c.tickHz < 2 ^ c.timeoutWidth := by
  simp only [Config.wf, Bool.and_eq_true, decide_eq_true_eq] at h
  tauto

/-- What well-formed parameters say of the two function codes. -/
theorem Config.wf_codes {c : Config} (h : c.wf = true) :
    c.fnRead ≠ c.fnWrite ∧ c.fnRead.msb = false ∧ c.fnWrite.msb = false := by
  simp [Config.wf] at h
  tauto

@[simp] theorem msb_excFn (f : Byte) : (excFn f).msb = true := by
  simp only [excFn, Config.excBit, BitVec.msb_or]
  exact Bool.or_true _

/-- An exception form is no plain function code. -/
theorem excFn_ne {f g : Byte} (h : g.msb = false) : excFn f ≠ g := by
  intro e
  have := msb_excFn f
  rw [e, h] at this
  cases this

/-- Distinct function codes have distinct exception forms. -/
theorem excFn_inj {f g : Byte} (hf : f.msb = false) (hg : g.msb = false) (h : excFn f = excFn g) : f = g := by
  apply BitVec.eq_of_getLsbD_eq
  intro i hi
  have := congrArg (fun v => BitVec.getLsbD v i) h
  simp only [excFn, Config.excBit, BitVec.getLsbD_or] at this
  rw [BitVec.msb_eq_getLsbD_last] at hf hg
  by_cases h7 : i = 7
  · subst h7; exact hf.trans hg.symm
  · have h0 : BitVec.getLsbD (0x80 : Byte) i = false := by
      have : i < 7 := by omega
      interval_cases i <;> rfl
    rw [h0, Bool.or_false, Bool.or_false] at this
    exact this

end Sys2Proof
end

