-- ==== Sys2Proof/Laws/State.lean ====
section
/-! SUPPORT. One lemma per field per update of State, all true by definition: no later proof unfolds a record update. -/

namespace Sys2Proof.Machine

/-! ### `State.withInputs` -/

@[simp] theorem withInputs_cfg (s : State) (l : List Input) : (s.withInputs l).cfg = s.cfg := rfl
@[simp] theorem withInputs_timeout (s : State) (l : List Input) : (s.withInputs l).timeout = s.timeout := rfl
@[simp] theorem withInputs_slaveAddr (s : State) (l : List Input) : (s.withInputs l).slaveAddr = s.slaveAddr := rfl
@[simp] theorem withInputs_saValid (s : State) (l : List Input) : (s.withInputs l).saValid = s.saValid := rfl
@[simp] theorem withInputs_phase (s : State) (l : List Input) : (s.withInputs l).phase = s.phase := rfl
@[simp] theorem withInputs_curOp (s : State) (l : List Input) : (s.withInputs l).curOp = s.curOp := rfl
@[simp] theorem withInputs_curSa (s : State) (l : List Input) : (s.withInputs l).curSa = s.curSa := rfl
@[simp] theorem withInputs_curReg (s : State) (l : List Input) : (s.withInputs l).curReg = s.curReg := rfl
@[simp] theorem withInputs_curArg (s : State) (l : List Input) : (s.withInputs l).curArg = s.curArg := rfl
@[simp] theorem withInputs_curTo (s : State) (l : List Input) : (s.withInputs l).curTo = s.curTo := rfl
@[simp] theorem withInputs_ctxValid (s : State) (l : List Input) : (s.withInputs l).ctxValid = s.ctxValid := rfl
@[simp] theorem withInputs_elapsed (s : State) (l : List Input) : (s.withInputs l).elapsed = s.elapsed := rfl
@[simp] theorem withInputs_txbuf (s : State) (l : List Input) : (s.withInputs l).txbuf = s.txbuf := rfl
@[simp] theorem withInputs_txidx (s : State) (l : List Input) : (s.withInputs l).txidx = s.txidx := rfl
@[simp] theorem withInputs_rxbuf (s : State) (l : List Input) : (s.withInputs l).rxbuf = s.rxbuf := rfl
@[simp] theorem withInputs_done (s : State) (l : List Input) : (s.withInputs l).done = s.done := rfl
@[simp] theorem withInputs_errf (s : State) (l : List Input) : (s.withInputs l).errf = s.errf := rfl
@[simp] theorem withInputs_err (s : State) (l : List Input) : (s.withInputs l).err = s.err := rfl
@[simp] theorem withInputs_sub (s : State) (l : List Input) : (s.withInputs l).sub = s.sub := rfl
@[simp] theorem withInputs_exc (s : State) (l : List Input) : (s.withInputs l).exc = s.exc := rfl
@[simp] theorem withInputs_linkCause (s : State) (l : List Input) : (s.withInputs l).linkCause = s.linkCause := rfl
@[simp] theorem withInputs_rdata (s : State) (l : List Input) : (s.withInputs l).rdata = s.rdata := rfl
@[simp] theorem withInputs_rval (s : State) (l : List Input) : (s.withInputs l).rval = s.rval := rfl
@[simp] theorem withInputs_rvalValid (s : State) (l : List Input) : (s.withInputs l).rvalValid = s.rvalValid := rfl
@[simp] theorem withInputs_rinfo (s : State) (l : List Input) : (s.withInputs l).rinfo = s.rinfo := rfl
@[simp] theorem withInputs_hostData (s : State) (l : List Input) : (s.withInputs l).hostData = s.hostData := rfl
@[simp] theorem withInputs_device (s : State) (l : List Input) : (s.withInputs l).device = s.device := rfl
@[simp] theorem withInputs_sent (s : State) (l : List Input) : (s.withInputs l).sent = s.sent := rfl
@[simp] theorem withInputs_inFlight (s : State) (l : List Input) : (s.withInputs l).inFlight = s.inFlight := rfl
@[simp] theorem withInputs_inputs (s : State) (l : List Input) : (s.withInputs l).inputs = l := rfl

@[simp] theorem withInputs_withInputs (s : State) (l l' : List Input) :
    (s.withInputs l').withInputs l = s.withInputs l := rfl

/-! ### `State.cleared` -/

@[simp] theorem cleared_cfg (s : State) : s.cleared.cfg = s.cfg := rfl
@[simp] theorem cleared_timeout (s : State) : s.cleared.timeout = s.timeout := rfl
@[simp] theorem cleared_slaveAddr (s : State) : s.cleared.slaveAddr = s.slaveAddr := rfl
@[simp] theorem cleared_saValid (s : State) : s.cleared.saValid = s.saValid := rfl
@[simp] theorem cleared_phase (s : State) : s.cleared.phase = s.phase := rfl
@[simp] theorem cleared_curOp (s : State) : s.cleared.curOp = s.curOp := rfl
@[simp] theorem cleared_curSa (s : State) : s.cleared.curSa = s.curSa := rfl
@[simp] theorem cleared_curReg (s : State) : s.cleared.curReg = s.curReg := rfl
@[simp] theorem cleared_curArg (s : State) : s.cleared.curArg = s.curArg := rfl
@[simp] theorem cleared_curTo (s : State) : s.cleared.curTo = s.curTo := rfl
@[simp] theorem cleared_ctxValid (s : State) : s.cleared.ctxValid = s.ctxValid := rfl
@[simp] theorem cleared_elapsed (s : State) : s.cleared.elapsed = s.elapsed := rfl
@[simp] theorem cleared_txbuf (s : State) : s.cleared.txbuf = s.txbuf := rfl
@[simp] theorem cleared_txidx (s : State) : s.cleared.txidx = s.txidx := rfl
@[simp] theorem cleared_rxbuf (s : State) : s.cleared.rxbuf = s.rxbuf := rfl
@[simp] theorem cleared_done (s : State) : s.cleared.done = false := rfl
@[simp] theorem cleared_errf (s : State) : s.cleared.errf = false := rfl
@[simp] theorem cleared_err (s : State) : s.cleared.err = 0 := rfl
@[simp] theorem cleared_sub (s : State) : s.cleared.sub = 0 := rfl
@[simp] theorem cleared_exc (s : State) : s.cleared.exc = 0 := rfl
@[simp] theorem cleared_linkCause (s : State) : s.cleared.linkCause = 0 := rfl
@[simp] theorem cleared_rdata (s : State) : s.cleared.rdata = [] := rfl
@[simp] theorem cleared_rval (s : State) : s.cleared.rval = s.rval := rfl
@[simp] theorem cleared_rvalValid (s : State) : s.cleared.rvalValid = false := rfl
@[simp] theorem cleared_rinfo (s : State) : s.cleared.rinfo = 0 := rfl
@[simp] theorem cleared_hostData (s : State) : s.cleared.hostData = s.hostData := rfl
@[simp] theorem cleared_device (s : State) : s.cleared.device = s.device := rfl
@[simp] theorem cleared_sent (s : State) : s.cleared.sent = s.sent := rfl
@[simp] theorem cleared_inFlight (s : State) : s.cleared.inFlight = s.inFlight := rfl
@[simp] theorem cleared_inputs (s : State) : s.cleared.inputs = s.inputs := rfl

/-! ### `State.raise` -/

@[simp] theorem raise_cfg (s : State) (e : Error) : (s.raise e).cfg = s.cfg := rfl
@[simp] theorem raise_timeout (s : State) (e : Error) : (s.raise e).timeout = s.timeout := rfl
@[simp] theorem raise_slaveAddr (s : State) (e : Error) : (s.raise e).slaveAddr = s.slaveAddr := rfl
@[simp] theorem raise_saValid (s : State) (e : Error) : (s.raise e).saValid = s.saValid := rfl
@[simp] theorem raise_phase (s : State) (e : Error) : (s.raise e).phase = .idle := rfl
@[simp] theorem raise_curOp (s : State) (e : Error) : (s.raise e).curOp = s.curOp := rfl
@[simp] theorem raise_curSa (s : State) (e : Error) : (s.raise e).curSa = s.curSa := rfl
@[simp] theorem raise_curReg (s : State) (e : Error) : (s.raise e).curReg = s.curReg := rfl
@[simp] theorem raise_curArg (s : State) (e : Error) : (s.raise e).curArg = s.curArg := rfl
@[simp] theorem raise_curTo (s : State) (e : Error) : (s.raise e).curTo = s.curTo := rfl
@[simp] theorem raise_ctxValid (s : State) (e : Error) : (s.raise e).ctxValid = s.ctxValid := rfl
@[simp] theorem raise_elapsed (s : State) (e : Error) : (s.raise e).elapsed = s.elapsed := rfl
@[simp] theorem raise_txbuf (s : State) (e : Error) : (s.raise e).txbuf = s.txbuf := rfl
@[simp] theorem raise_txidx (s : State) (e : Error) : (s.raise e).txidx = s.txidx := rfl
@[simp] theorem raise_rxbuf (s : State) (e : Error) : (s.raise e).rxbuf = s.rxbuf := rfl
@[simp] theorem raise_done (s : State) (e : Error) : (s.raise e).done = true := rfl
@[simp] theorem raise_errf (s : State) (e : Error) : (s.raise e).errf = true := rfl
@[simp] theorem raise_err (s : State) (e : Error) : (s.raise e).err = e.code := rfl
@[simp] theorem raise_sub (s : State) (e : Error) : (s.raise e).sub = e.subCode := rfl
@[simp] theorem raise_exc (s : State) (e : Error) : (s.raise e).exc = e.excCode := rfl
@[simp] theorem raise_linkCause (s : State) (e : Error) : (s.raise e).linkCause = e.linkCode := rfl
@[simp] theorem raise_rdata (s : State) (e : Error) : (s.raise e).rdata = [] := rfl
@[simp] theorem raise_rval (s : State) (e : Error) : (s.raise e).rval = s.rval := rfl
@[simp] theorem raise_rvalValid (s : State) (e : Error) : (s.raise e).rvalValid = s.rvalValid := rfl
@[simp] theorem raise_rinfo (s : State) (e : Error) : (s.raise e).rinfo = s.rinfo := rfl
@[simp] theorem raise_hostData (s : State) (e : Error) : (s.raise e).hostData = s.hostData := rfl
@[simp] theorem raise_device (s : State) (e : Error) : (s.raise e).device = s.device := rfl
@[simp] theorem raise_sent (s : State) (e : Error) : (s.raise e).sent = s.sent := rfl
@[simp] theorem raise_inFlight (s : State) (e : Error) : (s.raise e).inFlight = s.inFlight := rfl
@[simp] theorem raise_inputs (s : State) (e : Error) : (s.raise e).inputs = s.inputs := rfl

/-! ### `State.succeed` -/

@[simp] theorem succeed_cfg (s : State) (vs : List Word) : (s.succeed vs).cfg = s.cfg := rfl
@[simp] theorem succeed_timeout (s : State) (vs : List Word) : (s.succeed vs).timeout = s.timeout := rfl
@[simp] theorem succeed_slaveAddr (s : State) (vs : List Word) : (s.succeed vs).slaveAddr = s.slaveAddr := rfl
@[simp] theorem succeed_saValid (s : State) (vs : List Word) : (s.succeed vs).saValid = s.saValid := rfl
@[simp] theorem succeed_phase (s : State) (vs : List Word) : (s.succeed vs).phase = .idle := rfl
@[simp] theorem succeed_curOp (s : State) (vs : List Word) : (s.succeed vs).curOp = s.curOp := rfl
@[simp] theorem succeed_curSa (s : State) (vs : List Word) : (s.succeed vs).curSa = s.curSa := rfl
@[simp] theorem succeed_curReg (s : State) (vs : List Word) : (s.succeed vs).curReg = s.curReg := rfl
@[simp] theorem succeed_curArg (s : State) (vs : List Word) : (s.succeed vs).curArg = s.curArg := rfl
@[simp] theorem succeed_curTo (s : State) (vs : List Word) : (s.succeed vs).curTo = s.curTo := rfl
@[simp] theorem succeed_ctxValid (s : State) (vs : List Word) : (s.succeed vs).ctxValid = s.ctxValid := rfl
@[simp] theorem succeed_elapsed (s : State) (vs : List Word) : (s.succeed vs).elapsed = s.elapsed := rfl
@[simp] theorem succeed_txbuf (s : State) (vs : List Word) : (s.succeed vs).txbuf = s.txbuf := rfl
@[simp] theorem succeed_txidx (s : State) (vs : List Word) : (s.succeed vs).txidx = s.txidx := rfl
@[simp] theorem succeed_rxbuf (s : State) (vs : List Word) : (s.succeed vs).rxbuf = s.rxbuf := rfl
@[simp] theorem succeed_done (s : State) (vs : List Word) : (s.succeed vs).done = true := rfl
@[simp] theorem succeed_errf (s : State) (vs : List Word) : (s.succeed vs).errf = false := rfl
@[simp] theorem succeed_err (s : State) (vs : List Word) : (s.succeed vs).err = 0 := rfl
@[simp] theorem succeed_sub (s : State) (vs : List Word) : (s.succeed vs).sub = s.sub := rfl
@[simp] theorem succeed_exc (s : State) (vs : List Word) : (s.succeed vs).exc = s.exc := rfl
@[simp] theorem succeed_linkCause (s : State) (vs : List Word) : (s.succeed vs).linkCause = s.linkCause := rfl
@[simp] theorem succeed_rdata (s : State) (vs : List Word) : (s.succeed vs).rdata = vs := rfl
@[simp] theorem succeed_rval (s : State) (vs : List Word) : (s.succeed vs).rval = s.rval := rfl
@[simp] theorem succeed_rvalValid (s : State) (vs : List Word) : (s.succeed vs).rvalValid = s.rvalValid := rfl
@[simp] theorem succeed_rinfo (s : State) (vs : List Word) : (s.succeed vs).rinfo = s.rinfo := rfl
@[simp] theorem succeed_hostData (s : State) (vs : List Word) : (s.succeed vs).hostData = s.hostData := rfl
@[simp] theorem succeed_device (s : State) (vs : List Word) : (s.succeed vs).device = s.device := rfl
@[simp] theorem succeed_sent (s : State) (vs : List Word) : (s.succeed vs).sent = s.sent := rfl
@[simp] theorem succeed_inFlight (s : State) (vs : List Word) : (s.succeed vs).inFlight = s.inFlight := rfl
@[simp] theorem succeed_inputs (s : State) (vs : List Word) : (s.succeed vs).inputs = s.inputs := rfl

/-! ### `State.answer` -/

@[simp] theorem answer_cfg (s : State) (v : BitVec 32) (info : BitVec 3) : (s.answer v info).cfg = s.cfg := rfl
@[simp] theorem answer_timeout (s : State) (v : BitVec 32) (info : BitVec 3) : (s.answer v info).timeout = s.timeout := rfl
@[simp] theorem answer_slaveAddr (s : State) (v : BitVec 32) (info : BitVec 3) : (s.answer v info).slaveAddr = s.slaveAddr := rfl
@[simp] theorem answer_saValid (s : State) (v : BitVec 32) (info : BitVec 3) : (s.answer v info).saValid = s.saValid := rfl
@[simp] theorem answer_phase (s : State) (v : BitVec 32) (info : BitVec 3) : (s.answer v info).phase = s.phase := rfl
@[simp] theorem answer_curOp (s : State) (v : BitVec 32) (info : BitVec 3) : (s.answer v info).curOp = s.curOp := rfl
@[simp] theorem answer_curSa (s : State) (v : BitVec 32) (info : BitVec 3) : (s.answer v info).curSa = s.curSa := rfl
@[simp] theorem answer_curReg (s : State) (v : BitVec 32) (info : BitVec 3) : (s.answer v info).curReg = s.curReg := rfl
@[simp] theorem answer_curArg (s : State) (v : BitVec 32) (info : BitVec 3) : (s.answer v info).curArg = s.curArg := rfl
@[simp] theorem answer_curTo (s : State) (v : BitVec 32) (info : BitVec 3) : (s.answer v info).curTo = s.curTo := rfl
@[simp] theorem answer_ctxValid (s : State) (v : BitVec 32) (info : BitVec 3) : (s.answer v info).ctxValid = s.ctxValid := rfl
@[simp] theorem answer_elapsed (s : State) (v : BitVec 32) (info : BitVec 3) : (s.answer v info).elapsed = s.elapsed := rfl
@[simp] theorem answer_txbuf (s : State) (v : BitVec 32) (info : BitVec 3) : (s.answer v info).txbuf = s.txbuf := rfl
@[simp] theorem answer_txidx (s : State) (v : BitVec 32) (info : BitVec 3) : (s.answer v info).txidx = s.txidx := rfl
@[simp] theorem answer_rxbuf (s : State) (v : BitVec 32) (info : BitVec 3) : (s.answer v info).rxbuf = s.rxbuf := rfl
@[simp] theorem answer_done (s : State) (v : BitVec 32) (info : BitVec 3) : (s.answer v info).done = true := rfl
@[simp] theorem answer_errf (s : State) (v : BitVec 32) (info : BitVec 3) : (s.answer v info).errf = s.errf := rfl
@[simp] theorem answer_err (s : State) (v : BitVec 32) (info : BitVec 3) : (s.answer v info).err = s.err := rfl
@[simp] theorem answer_sub (s : State) (v : BitVec 32) (info : BitVec 3) : (s.answer v info).sub = s.sub := rfl
@[simp] theorem answer_exc (s : State) (v : BitVec 32) (info : BitVec 3) : (s.answer v info).exc = s.exc := rfl
@[simp] theorem answer_linkCause (s : State) (v : BitVec 32) (info : BitVec 3) : (s.answer v info).linkCause = s.linkCause := rfl
@[simp] theorem answer_rdata (s : State) (v : BitVec 32) (info : BitVec 3) : (s.answer v info).rdata = s.rdata := rfl
@[simp] theorem answer_rval (s : State) (v : BitVec 32) (info : BitVec 3) : (s.answer v info).rval = v := rfl
@[simp] theorem answer_rvalValid (s : State) (v : BitVec 32) (info : BitVec 3) : (s.answer v info).rvalValid = true := rfl
@[simp] theorem answer_rinfo (s : State) (v : BitVec 32) (info : BitVec 3) : (s.answer v info).rinfo = info := rfl
@[simp] theorem answer_hostData (s : State) (v : BitVec 32) (info : BitVec 3) : (s.answer v info).hostData = s.hostData := rfl
@[simp] theorem answer_device (s : State) (v : BitVec 32) (info : BitVec 3) : (s.answer v info).device = s.device := rfl
@[simp] theorem answer_sent (s : State) (v : BitVec 32) (info : BitVec 3) : (s.answer v info).sent = s.sent := rfl
@[simp] theorem answer_inFlight (s : State) (v : BitVec 32) (info : BitVec 3) : (s.answer v info).inFlight = s.inFlight := rfl
@[simp] theorem answer_inputs (s : State) (v : BitVec 32) (info : BitVec 3) : (s.answer v info).inputs = s.inputs := rfl

/-! ### `State.start` -/

@[simp] theorem start_cfg (s : State) (op : Op) (reg arg : Word) : (s.start op reg arg).cfg = s.cfg := rfl
@[simp] theorem start_timeout (s : State) (op : Op) (reg arg : Word) : (s.start op reg arg).timeout = s.timeout := rfl
@[simp] theorem start_slaveAddr (s : State) (op : Op) (reg arg : Word) : (s.start op reg arg).slaveAddr = s.slaveAddr := rfl
@[simp] theorem start_saValid (s : State) (op : Op) (reg arg : Word) : (s.start op reg arg).saValid = s.saValid := rfl
@[simp] theorem start_phase (s : State) (op : Op) (reg arg : Word) : (s.start op reg arg).phase = .tx := rfl
@[simp] theorem start_curOp (s : State) (op : Op) (reg arg : Word) : (s.start op reg arg).curOp = op := rfl
@[simp] theorem start_curSa (s : State) (op : Op) (reg arg : Word) : (s.start op reg arg).curSa = s.slaveAddr := rfl
@[simp] theorem start_curReg (s : State) (op : Op) (reg arg : Word) : (s.start op reg arg).curReg = reg := rfl
@[simp] theorem start_curArg (s : State) (op : Op) (reg arg : Word) : (s.start op reg arg).curArg = arg := rfl
@[simp] theorem start_curTo (s : State) (op : Op) (reg arg : Word) : (s.start op reg arg).curTo = s.timeout := rfl
@[simp] theorem start_ctxValid (s : State) (op : Op) (reg arg : Word) : (s.start op reg arg).ctxValid = true := rfl
@[simp] theorem start_elapsed (s : State) (op : Op) (reg arg : Word) : (s.start op reg arg).elapsed = 0 := rfl
@[simp] theorem start_txbuf (s : State) (op : Op) (reg arg : Word) : (s.start op reg arg).txbuf = encRequest s.cfg op s.slaveAddr reg arg := rfl
@[simp] theorem start_txidx (s : State) (op : Op) (reg arg : Word) : (s.start op reg arg).txidx = 0 := rfl
@[simp] theorem start_rxbuf (s : State) (op : Op) (reg arg : Word) : (s.start op reg arg).rxbuf = [] := rfl
@[simp] theorem start_done (s : State) (op : Op) (reg arg : Word) : (s.start op reg arg).done = s.done := rfl
@[simp] theorem start_errf (s : State) (op : Op) (reg arg : Word) : (s.start op reg arg).errf = s.errf := rfl
@[simp] theorem start_err (s : State) (op : Op) (reg arg : Word) : (s.start op reg arg).err = s.err := rfl
@[simp] theorem start_sub (s : State) (op : Op) (reg arg : Word) : (s.start op reg arg).sub = s.sub := rfl
@[simp] theorem start_exc (s : State) (op : Op) (reg arg : Word) : (s.start op reg arg).exc = s.exc := rfl
@[simp] theorem start_linkCause (s : State) (op : Op) (reg arg : Word) : (s.start op reg arg).linkCause = s.linkCause := rfl
@[simp] theorem start_rdata (s : State) (op : Op) (reg arg : Word) : (s.start op reg arg).rdata = s.rdata := rfl
@[simp] theorem start_rval (s : State) (op : Op) (reg arg : Word) : (s.start op reg arg).rval = s.rval := rfl
@[simp] theorem start_rvalValid (s : State) (op : Op) (reg arg : Word) : (s.start op reg arg).rvalValid = s.rvalValid := rfl
@[simp] theorem start_rinfo (s : State) (op : Op) (reg arg : Word) : (s.start op reg arg).rinfo = s.rinfo := rfl
@[simp] theorem start_hostData (s : State) (op : Op) (reg arg : Word) : (s.start op reg arg).hostData = s.hostData := rfl
@[simp] theorem start_device (s : State) (op : Op) (reg arg : Word) : (s.start op reg arg).device = s.device := rfl
@[simp] theorem start_sent (s : State) (op : Op) (reg arg : Word) : (s.start op reg arg).sent = s.sent := rfl
@[simp] theorem start_inFlight (s : State) (op : Op) (reg arg : Word) : (s.start op reg arg).inFlight = s.inFlight := rfl
@[simp] theorem start_inputs (s : State) (op : Op) (reg arg : Word) : (s.start op reg arg).inputs = s.inputs := rfl

/-! ### `State.sentTo` -/

@[simp] theorem sentTo_cfg (s : State) (l : List Request) (i : BitVec 4) (p : Phase) : (s.sentTo l i p).cfg = s.cfg := rfl
@[simp] theorem sentTo_timeout (s : State) (l : List Request) (i : BitVec 4) (p : Phase) : (s.sentTo l i p).timeout = s.timeout := rfl
@[simp] theorem sentTo_slaveAddr (s : State) (l : List Request) (i : BitVec 4) (p : Phase) : (s.sentTo l i p).slaveAddr = s.slaveAddr := rfl
@[simp] theorem sentTo_saValid (s : State) (l : List Request) (i : BitVec 4) (p : Phase) : (s.sentTo l i p).saValid = s.saValid := rfl
@[simp] theorem sentTo_phase (s : State) (l : List Request) (i : BitVec 4) (p : Phase) : (s.sentTo l i p).phase = p := rfl
@[simp] theorem sentTo_curOp (s : State) (l : List Request) (i : BitVec 4) (p : Phase) : (s.sentTo l i p).curOp = s.curOp := rfl
@[simp] theorem sentTo_curSa (s : State) (l : List Request) (i : BitVec 4) (p : Phase) : (s.sentTo l i p).curSa = s.curSa := rfl
@[simp] theorem sentTo_curReg (s : State) (l : List Request) (i : BitVec 4) (p : Phase) : (s.sentTo l i p).curReg = s.curReg := rfl
@[simp] theorem sentTo_curArg (s : State) (l : List Request) (i : BitVec 4) (p : Phase) : (s.sentTo l i p).curArg = s.curArg := rfl
@[simp] theorem sentTo_curTo (s : State) (l : List Request) (i : BitVec 4) (p : Phase) : (s.sentTo l i p).curTo = s.curTo := rfl
@[simp] theorem sentTo_ctxValid (s : State) (l : List Request) (i : BitVec 4) (p : Phase) : (s.sentTo l i p).ctxValid = s.ctxValid := rfl
@[simp] theorem sentTo_elapsed (s : State) (l : List Request) (i : BitVec 4) (p : Phase) : (s.sentTo l i p).elapsed = s.elapsed := rfl
@[simp] theorem sentTo_txbuf (s : State) (l : List Request) (i : BitVec 4) (p : Phase) : (s.sentTo l i p).txbuf = s.txbuf := rfl
@[simp] theorem sentTo_txidx (s : State) (l : List Request) (i : BitVec 4) (p : Phase) : (s.sentTo l i p).txidx = i := rfl
@[simp] theorem sentTo_rxbuf (s : State) (l : List Request) (i : BitVec 4) (p : Phase) : (s.sentTo l i p).rxbuf = s.rxbuf := rfl
@[simp] theorem sentTo_done (s : State) (l : List Request) (i : BitVec 4) (p : Phase) : (s.sentTo l i p).done = s.done := rfl
@[simp] theorem sentTo_errf (s : State) (l : List Request) (i : BitVec 4) (p : Phase) : (s.sentTo l i p).errf = s.errf := rfl
@[simp] theorem sentTo_err (s : State) (l : List Request) (i : BitVec 4) (p : Phase) : (s.sentTo l i p).err = s.err := rfl
@[simp] theorem sentTo_sub (s : State) (l : List Request) (i : BitVec 4) (p : Phase) : (s.sentTo l i p).sub = s.sub := rfl
@[simp] theorem sentTo_exc (s : State) (l : List Request) (i : BitVec 4) (p : Phase) : (s.sentTo l i p).exc = s.exc := rfl
@[simp] theorem sentTo_linkCause (s : State) (l : List Request) (i : BitVec 4) (p : Phase) : (s.sentTo l i p).linkCause = s.linkCause := rfl
@[simp] theorem sentTo_rdata (s : State) (l : List Request) (i : BitVec 4) (p : Phase) : (s.sentTo l i p).rdata = s.rdata := rfl
@[simp] theorem sentTo_rval (s : State) (l : List Request) (i : BitVec 4) (p : Phase) : (s.sentTo l i p).rval = s.rval := rfl
@[simp] theorem sentTo_rvalValid (s : State) (l : List Request) (i : BitVec 4) (p : Phase) : (s.sentTo l i p).rvalValid = s.rvalValid := rfl
@[simp] theorem sentTo_rinfo (s : State) (l : List Request) (i : BitVec 4) (p : Phase) : (s.sentTo l i p).rinfo = s.rinfo := rfl
@[simp] theorem sentTo_hostData (s : State) (l : List Request) (i : BitVec 4) (p : Phase) : (s.sentTo l i p).hostData = s.hostData := rfl
@[simp] theorem sentTo_device (s : State) (l : List Request) (i : BitVec 4) (p : Phase) : (s.sentTo l i p).device = s.device := rfl
@[simp] theorem sentTo_sent (s : State) (l : List Request) (i : BitVec 4) (p : Phase) : (s.sentTo l i p).sent = l := rfl
@[simp] theorem sentTo_inFlight (s : State) (l : List Request) (i : BitVec 4) (p : Phase) : (s.sentTo l i p).inFlight = s.inFlight := rfl
@[simp] theorem sentTo_inputs (s : State) (l : List Request) (i : BitVec 4) (p : Phase) : (s.sentTo l i p).inputs = s.inputs := rfl

@[simp] theorem sentTo_sentTo (s : State) (l l' : List Request) (i i' : BitVec 4) (p p' : Phase) :
    (s.sentTo l i p).sentTo l' i' p' = s.sentTo l' i' p' := rfl

/-! ### `State.withRx` -/

@[simp] theorem withRx_cfg (s : State) (bs : List Byte) : (s.withRx bs).cfg = s.cfg := rfl
@[simp] theorem withRx_timeout (s : State) (bs : List Byte) : (s.withRx bs).timeout = s.timeout := rfl
@[simp] theorem withRx_slaveAddr (s : State) (bs : List Byte) : (s.withRx bs).slaveAddr = s.slaveAddr := rfl
@[simp] theorem withRx_saValid (s : State) (bs : List Byte) : (s.withRx bs).saValid = s.saValid := rfl
@[simp] theorem withRx_phase (s : State) (bs : List Byte) : (s.withRx bs).phase = s.phase := rfl
@[simp] theorem withRx_curOp (s : State) (bs : List Byte) : (s.withRx bs).curOp = s.curOp := rfl
@[simp] theorem withRx_curSa (s : State) (bs : List Byte) : (s.withRx bs).curSa = s.curSa := rfl
@[simp] theorem withRx_curReg (s : State) (bs : List Byte) : (s.withRx bs).curReg = s.curReg := rfl
@[simp] theorem withRx_curArg (s : State) (bs : List Byte) : (s.withRx bs).curArg = s.curArg := rfl
@[simp] theorem withRx_curTo (s : State) (bs : List Byte) : (s.withRx bs).curTo = s.curTo := rfl
@[simp] theorem withRx_ctxValid (s : State) (bs : List Byte) : (s.withRx bs).ctxValid = s.ctxValid := rfl
@[simp] theorem withRx_elapsed (s : State) (bs : List Byte) : (s.withRx bs).elapsed = s.elapsed := rfl
@[simp] theorem withRx_txbuf (s : State) (bs : List Byte) : (s.withRx bs).txbuf = s.txbuf := rfl
@[simp] theorem withRx_txidx (s : State) (bs : List Byte) : (s.withRx bs).txidx = s.txidx := rfl
@[simp] theorem withRx_rxbuf (s : State) (bs : List Byte) : (s.withRx bs).rxbuf = bs := rfl
@[simp] theorem withRx_done (s : State) (bs : List Byte) : (s.withRx bs).done = s.done := rfl
@[simp] theorem withRx_errf (s : State) (bs : List Byte) : (s.withRx bs).errf = s.errf := rfl
@[simp] theorem withRx_err (s : State) (bs : List Byte) : (s.withRx bs).err = s.err := rfl
@[simp] theorem withRx_sub (s : State) (bs : List Byte) : (s.withRx bs).sub = s.sub := rfl
@[simp] theorem withRx_exc (s : State) (bs : List Byte) : (s.withRx bs).exc = s.exc := rfl
@[simp] theorem withRx_linkCause (s : State) (bs : List Byte) : (s.withRx bs).linkCause = s.linkCause := rfl
@[simp] theorem withRx_rdata (s : State) (bs : List Byte) : (s.withRx bs).rdata = s.rdata := rfl
@[simp] theorem withRx_rval (s : State) (bs : List Byte) : (s.withRx bs).rval = s.rval := rfl
@[simp] theorem withRx_rvalValid (s : State) (bs : List Byte) : (s.withRx bs).rvalValid = s.rvalValid := rfl
@[simp] theorem withRx_rinfo (s : State) (bs : List Byte) : (s.withRx bs).rinfo = s.rinfo := rfl
@[simp] theorem withRx_hostData (s : State) (bs : List Byte) : (s.withRx bs).hostData = s.hostData := rfl
@[simp] theorem withRx_device (s : State) (bs : List Byte) : (s.withRx bs).device = s.device := rfl
@[simp] theorem withRx_sent (s : State) (bs : List Byte) : (s.withRx bs).sent = s.sent := rfl
@[simp] theorem withRx_inFlight (s : State) (bs : List Byte) : (s.withRx bs).inFlight = s.inFlight := rfl
@[simp] theorem withRx_inputs (s : State) (bs : List Byte) : (s.withRx bs).inputs = s.inputs := rfl

@[simp] theorem withRx_withRx (s : State) (bs cs : List Byte) : (s.withRx bs).withRx cs = s.withRx cs := rfl

@[simp] theorem store_withRx (s : State) (b : Byte) (bs : List Byte) : (s.withRx bs).store b = s.withRx (bs ++ [b]) := rfl

/-! ### `State.store` -/

@[simp] theorem store_cfg (s : State) (b : Byte) : (s.store b).cfg = s.cfg := rfl
@[simp] theorem store_timeout (s : State) (b : Byte) : (s.store b).timeout = s.timeout := rfl
@[simp] theorem store_slaveAddr (s : State) (b : Byte) : (s.store b).slaveAddr = s.slaveAddr := rfl
@[simp] theorem store_saValid (s : State) (b : Byte) : (s.store b).saValid = s.saValid := rfl
@[simp] theorem store_phase (s : State) (b : Byte) : (s.store b).phase = s.phase := rfl
@[simp] theorem store_curOp (s : State) (b : Byte) : (s.store b).curOp = s.curOp := rfl
@[simp] theorem store_curSa (s : State) (b : Byte) : (s.store b).curSa = s.curSa := rfl
@[simp] theorem store_curReg (s : State) (b : Byte) : (s.store b).curReg = s.curReg := rfl
@[simp] theorem store_curArg (s : State) (b : Byte) : (s.store b).curArg = s.curArg := rfl
@[simp] theorem store_curTo (s : State) (b : Byte) : (s.store b).curTo = s.curTo := rfl
@[simp] theorem store_ctxValid (s : State) (b : Byte) : (s.store b).ctxValid = s.ctxValid := rfl
@[simp] theorem store_elapsed (s : State) (b : Byte) : (s.store b).elapsed = s.elapsed := rfl
@[simp] theorem store_txbuf (s : State) (b : Byte) : (s.store b).txbuf = s.txbuf := rfl
@[simp] theorem store_txidx (s : State) (b : Byte) : (s.store b).txidx = s.txidx := rfl
@[simp] theorem store_rxbuf (s : State) (b : Byte) : (s.store b).rxbuf = s.rxbuf ++ [b] := rfl
@[simp] theorem store_done (s : State) (b : Byte) : (s.store b).done = s.done := rfl
@[simp] theorem store_errf (s : State) (b : Byte) : (s.store b).errf = s.errf := rfl
@[simp] theorem store_err (s : State) (b : Byte) : (s.store b).err = s.err := rfl
@[simp] theorem store_sub (s : State) (b : Byte) : (s.store b).sub = s.sub := rfl
@[simp] theorem store_exc (s : State) (b : Byte) : (s.store b).exc = s.exc := rfl
@[simp] theorem store_linkCause (s : State) (b : Byte) : (s.store b).linkCause = s.linkCause := rfl
@[simp] theorem store_rdata (s : State) (b : Byte) : (s.store b).rdata = s.rdata := rfl
@[simp] theorem store_rval (s : State) (b : Byte) : (s.store b).rval = s.rval := rfl
@[simp] theorem store_rvalValid (s : State) (b : Byte) : (s.store b).rvalValid = s.rvalValid := rfl
@[simp] theorem store_rinfo (s : State) (b : Byte) : (s.store b).rinfo = s.rinfo := rfl
@[simp] theorem store_hostData (s : State) (b : Byte) : (s.store b).hostData = s.hostData := rfl
@[simp] theorem store_device (s : State) (b : Byte) : (s.store b).device = s.device := rfl
@[simp] theorem store_sent (s : State) (b : Byte) : (s.store b).sent = s.sent := rfl
@[simp] theorem store_inFlight (s : State) (b : Byte) : (s.store b).inFlight = s.inFlight := rfl
@[simp] theorem store_inputs (s : State) (b : Byte) : (s.store b).inputs = s.inputs := rfl

/-! ### `State.count` -/

@[simp] theorem count_cfg (s : State) : s.count.cfg = s.cfg := rfl
@[simp] theorem count_timeout (s : State) : s.count.timeout = s.timeout := rfl
@[simp] theorem count_slaveAddr (s : State) : s.count.slaveAddr = s.slaveAddr := rfl
@[simp] theorem count_saValid (s : State) : s.count.saValid = s.saValid := rfl
@[simp] theorem count_phase (s : State) : s.count.phase = s.phase := rfl
@[simp] theorem count_curOp (s : State) : s.count.curOp = s.curOp := rfl
@[simp] theorem count_curSa (s : State) : s.count.curSa = s.curSa := rfl
@[simp] theorem count_curReg (s : State) : s.count.curReg = s.curReg := rfl
@[simp] theorem count_curArg (s : State) : s.count.curArg = s.curArg := rfl
@[simp] theorem count_curTo (s : State) : s.count.curTo = s.curTo := rfl
@[simp] theorem count_ctxValid (s : State) : s.count.ctxValid = s.ctxValid := rfl
@[simp] theorem count_elapsed (s : State) : s.count.elapsed = s.elapsed + 1 := rfl
@[simp] theorem count_txbuf (s : State) : s.count.txbuf = s.txbuf := rfl
@[simp] theorem count_txidx (s : State) : s.count.txidx = s.txidx := rfl
@[simp] theorem count_rxbuf (s : State) : s.count.rxbuf = s.rxbuf := rfl
@[simp] theorem count_done (s : State) : s.count.done = s.done := rfl
@[simp] theorem count_errf (s : State) : s.count.errf = s.errf := rfl
@[simp] theorem count_err (s : State) : s.count.err = s.err := rfl
@[simp] theorem count_sub (s : State) : s.count.sub = s.sub := rfl
@[simp] theorem count_exc (s : State) : s.count.exc = s.exc := rfl
@[simp] theorem count_linkCause (s : State) : s.count.linkCause = s.linkCause := rfl
@[simp] theorem count_rdata (s : State) : s.count.rdata = s.rdata := rfl
@[simp] theorem count_rval (s : State) : s.count.rval = s.rval := rfl
@[simp] theorem count_rvalValid (s : State) : s.count.rvalValid = s.rvalValid := rfl
@[simp] theorem count_rinfo (s : State) : s.count.rinfo = s.rinfo := rfl
@[simp] theorem count_hostData (s : State) : s.count.hostData = s.hostData := rfl
@[simp] theorem count_device (s : State) : s.count.device = s.device := rfl
@[simp] theorem count_sent (s : State) : s.count.sent = s.sent := rfl
@[simp] theorem count_inFlight (s : State) : s.count.inFlight = s.inFlight := rfl
@[simp] theorem count_inputs (s : State) : s.count.inputs = s.inputs := rfl

/-! ### `State.resetBlock`: what a reset leaves -/

@[simp] theorem resetBlock_cfg (s : State) : s.resetBlock.cfg = s.cfg := rfl
@[simp] theorem resetBlock_hostData (s : State) : s.resetBlock.hostData = s.hostData := rfl
@[simp] theorem resetBlock_device (s : State) : s.resetBlock.device = s.device := rfl
@[simp] theorem resetBlock_sent (s : State) : s.resetBlock.sent = s.sent := rfl
@[simp] theorem resetBlock_inFlight (s : State) : s.resetBlock.inFlight = s.inFlight := rfl
@[simp] theorem resetBlock_inputs (s : State) : s.resetBlock.inputs = s.inputs := rfl
@[simp] theorem resetBlock_timeout (s : State) : s.resetBlock.timeout = BitVec.ofNat 32 (10 * s.cfg.tickHz) := rfl
@[simp] theorem resetBlock_saValid (s : State) : s.resetBlock.saValid = false := rfl
@[simp] theorem resetBlock_phase (s : State) : s.resetBlock.phase = .idle := rfl
@[simp] theorem resetBlock_elapsed (s : State) : s.resetBlock.elapsed = 0 := rfl
@[simp] theorem resetBlock_done (s : State) : s.resetBlock.done = false := rfl
@[simp] theorem resetBlock_errf (s : State) : s.resetBlock.errf = false := rfl
@[simp] theorem resetBlock_err (s : State) : s.resetBlock.err = 0 := rfl
@[simp] theorem resetBlock_rdata (s : State) : s.resetBlock.rdata = [] := rfl
@[simp] theorem resetBlock_rvalValid (s : State) : s.resetBlock.rvalValid = false := rfl
@[simp] theorem resetBlock_ctxValid (s : State) : s.resetBlock.ctxValid = false := rfl

end Sys2Proof.Machine
end

