-- ==== Sys2Proof/Laws/Ops.lean ====
section
/-! SUPPORT. What each shared operation can do, said once. -/

namespace Sys2Proof.Machine

/-! ### Acceptance and its checks -/

theorem atPort_idle {s : State} (h : s.phase = .idle) (run : State → State) : atPort run s = .next (run s.cleared) := by
  simp [atPort, h]

theorem atPort_busy {s : State} (h : s.phase ≠ .idle) (run : State → State) : atPort run s = .next s := by
  simp [atPort, h]

/-- Acceptance always answers a next state: the command's at the ready port, the same state otherwise. -/
theorem atPort_cases (run : State → State) (s : State) :
    (s.phase = .idle ∧ atPort run s = .next (run s.cleared)) ∨ (s.phase ≠ .idle ∧ atPort run s = .next s) := by
  by_cases h : s.phase = .idle
  · exact .inl ⟨h, atPort_idle h run⟩
  · exact .inr ⟨h, atPort_busy h run⟩

theorem configured_cases (run : State → State) (s : State) :
    (s.saValid = true ∧ configured run s = run s) ∨
    (s.saValid = false ∧ configured run s = s.refuse .notConfigured) := by
  cases h : s.saValid <;> simp [configured, h]

theorem countInRange_cases (n : Word) (run : State → State) (s : State) :
    ((1 ≤ n.toNat ∧ n.toNat ≤ s.cfg.maxReadCount) ∧ countInRange n run s = run s) ∨
    (¬(1 ≤ n.toNat ∧ n.toNat ≤ s.cfg.maxReadCount) ∧ countInRange n run s = s.refuse .badCount) := by
  by_cases h : 1 ≤ n.toNat ∧ n.toNat ≤ s.cfg.maxReadCount
  · exact .inl ⟨h, if_pos h⟩
  · exact .inr ⟨h, if_neg h⟩

theorem accessAllowed_cases (idx : BitVec 4) (m : Access) (run : State → State) (s : State) :
    (((romEntry s.cfg idx).access = m ∧ s.cfg.romEnforceAccess = true) ∧ accessAllowed idx m run s = s.refuse .accessDenied) ∨
    (¬((romEntry s.cfg idx).access = m ∧ s.cfg.romEnforceAccess = true) ∧ accessAllowed idx m run s = run s) := by
  by_cases h : (romEntry s.cfg idx).access = m ∧ s.cfg.romEnforceAccess = true
  · exact .inl ⟨h, if_pos h⟩
  · exact .inr ⟨h, if_neg h⟩

/-! ### Completion, ticks, link faults -/

/-- `COMPLETE` ends the exchange: without error with some values, or in an error of kind 3, 4 or 5. -/
theorem complete_cases (s : State) :
    (∃ vs, s.complete = s.succeed vs ∧
      (dec s.cfg s.curOp s.curSa s.curReg s.curArg s.rxbuf = .okRead vs ∨
        (vs = [] ∧ dec s.cfg s.curOp s.curSa s.curReg s.curArg s.rxbuf = .okWrite))) ∨
    (∃ e, s.complete = s.raise e ∧ ((∃ sub, e = .frame sub) ∨ (∃ code, e = .deviceException code) ∨ e = .echoMismatch)) := by
  unfold State.complete
  split
  · exact .inl ⟨_, rfl, .inl (by assumption)⟩
  · exact .inl ⟨[], rfl, .inr ⟨rfl, by assumption⟩⟩
  · exact .inr ⟨_, rfl, .inl ⟨_, rfl⟩⟩
  · exact .inr ⟨_, rfl, .inr (.inl ⟨_, rfl⟩)⟩
  · exact .inr ⟨_, rfl, .inr (.inr rfl)⟩

theorem tick_idle {s : State} (h : s.phase = .idle) : s.tick = s := by simp [State.tick, h]

/-- A tick does nothing in `IDLE`, counts, or ends the exchange in `Timeout`. -/
theorem tick_cases (s : State) :
    (s.phase = .idle ∧ s.tick = s) ∨
    (s.phase ≠ .idle ∧ ¬s.curTo ≤ s.elapsed + 1 ∧ s.tick = s.count) ∨
    (s.phase ≠ .idle ∧ s.curTo ≤ s.elapsed + 1 ∧ s.tick = s.count.raise .timeout) := by
  by_cases h : s.phase = .idle
  · exact .inl ⟨h, tick_idle h⟩
  · by_cases hc : s.curTo ≤ s.elapsed + 1
    · exact .inr (.inr ⟨h, hc, by rw [State.tick, if_neg h, if_pos hc]⟩)
    · exact .inr (.inl ⟨h, hc, by rw [State.tick, if_neg h, if_neg hc]⟩)

theorem linkFault_idle {s : State} (h : s.phase = .idle) (c : Byte) : s.linkFault c = s := by simp [State.linkFault, h]

theorem linkFault_busy {s : State} (h : s.phase ≠ .idle) (c : Byte) : s.linkFault c = s.raise (.link c) := by
  simp [State.linkFault, h]

/-! ### Receiving -/

theorem rxByte_drop {s : State} (h : s.phase ≠ .rx) (b : Byte) : s.rxByte b = s := by simp [State.rxByte, h]

/-- A received byte is dropped, stored, or stored and the exchange completed with it. -/
theorem rxByte_cases (b : Byte) (s : State) :
    (s.phase ≠ .rx ∧ s.rxByte b = s) ∨
    (s.phase = .rx ∧ (s.store b).responseComplete = false ∧ s.rxByte b = s.store b) ∨
    (s.phase = .rx ∧ (s.store b).responseComplete = true ∧ s.rxByte b = (s.store b).complete) := by
  by_cases h : s.phase = .rx
  · cases hc : (s.store b).responseComplete
    · exact .inr (.inl ⟨h, rfl, by rw [State.rxByte, if_pos h, hc]; rfl⟩)
    · exact .inr (.inr ⟨h, rfl, by rw [State.rxByte, if_pos h, hc]; rfl⟩)
  · exact .inl ⟨h, rxByte_drop h b⟩

theorem responseComplete_iff (s : State) :
    s.responseComplete = true ↔ 2 ≤ s.rxbuf.length ∧ s.rxbuf.length = explen s.curOp s.curArg (s.rxbuf.getD 1 0) := by
  simp [State.responseComplete]

@[simp] theorem rxBytes_nil (s : State) : s.rxBytes [] = s := rfl

@[simp] theorem rxBytes_cons (b : Byte) (bs : List Byte) (s : State) :
    s.rxBytes (b :: bs) = (s.rxByte b).rxBytes bs := rfl

theorem rxBytes_append (bs cs : List Byte) (s : State) : s.rxBytes (bs ++ cs) = (s.rxBytes bs).rxBytes cs := by
  induction bs generalizing s with
  | nil => rfl
  | cons b bs ih => simp [ih]

theorem rxBytes_drop {s : State} (h : s.phase ≠ .rx) (bs : List Byte) : s.rxBytes bs = s := by
  induction bs with
  | nil => rfl
  | cons b bs ih => rw [rxBytes_cons, rxByte_drop h, ih]

/-- Bytes none of which completes the response only fill `RXBUF`. -/
theorem rxBytes_wait (bs : List Byte) (s : State) (h : s.phase = .rx)
    (hw : ∀ k, 1 ≤ k → k ≤ bs.length → (s.withRx (s.rxbuf ++ bs.take k)).responseComplete = false) :
    s.rxBytes bs = s.withRx (s.rxbuf ++ bs) := by
  induction bs generalizing s with
  | nil => rw [List.append_nil]; rfl
  | cons b bs ih =>
    have h1 : (s.store b).responseComplete = false := hw 1 (by omega) (by simp)
    rw [rxBytes_cons, State.rxByte, if_pos h, h1]
    simp only [Bool.false_eq_true, if_false]
    rw [ih (s.store b) h]
    · simp [State.store]
    · intro k hk hk'
      have := hw (k + 1) (by omega) (by simp; omega)
      simpa [State.store] using this

/-- Too few bytes for the length their second byte gives: the exchange goes on waiting. -/
theorem rxBytes_short (bs : List Byte) (s : State) (h : s.phase = .rx) (hr : s.rxbuf = [])
    (hl : bs.length < 2 ∨ bs.length < explen s.curOp s.curArg (bs.getD 1 0)) : s.rxBytes bs = s.withRx bs := by
  rw [rxBytes_wait bs s h]
  · simp [hr]
  · intro k hk hk'
    rw [← Bool.not_eq_true, responseComplete_iff]
    rintro ⟨h2, he⟩
    simp only [hr, List.nil_append, withRx_rxbuf, withRx_curOp, withRx_curArg, List.length_take] at h2 he
    have : (bs.take k).getD 1 0 = bs.getD 1 0 := by
      simp only [List.getD_eq_getElem?_getD, List.getElem?_take]
      rw [if_pos (by omega)]
    rw [this] at he
    omega

/-- Enough bytes: exactly the expected length is judged, the rest is dropped. -/
theorem rxBytes_cut (bs : List Byte) (s : State) (h : s.phase = .rx) (hr : s.rxbuf = [])
    (hl : explen s.curOp s.curArg (bs.getD 1 0) ≤ bs.length) :
    s.rxBytes bs = (s.withRx (bs.take (explen s.curOp s.curArg (bs.getD 1 0)))).complete := by
  have h5 := five_le_explen s.curOp s.curArg (bs.getD 1 0)
  generalize hL : explen s.curOp s.curArg (bs.getD 1 0) = L at *
  have getD_take : ∀ k, 2 ≤ k → (bs.take k).getD 1 0 = bs.getD 1 0 := by
    intro k hk
    simp only [List.getD_eq_getElem?_getD, List.getElem?_take]
    rw [if_pos (by omega)]
  have last : bs.take (L - 1) ++ [bs[L - 1]] = bs.take L := by
    have := List.take_append_getElem (l := bs) (i := L - 1) (by omega)
    rwa [Nat.sub_add_cancel (by omega)] at this
  have split : bs = bs.take (L - 1) ++ ([bs[L - 1]] ++ bs.drop L) := by
    rw [← List.append_assoc, last, List.take_append_drop]
  have first : s.rxBytes (bs.take (L - 1)) = s.withRx (bs.take (L - 1)) := by
    refine rxBytes_short _ s h hr (.inr ?_)
    rw [getD_take _ (by omega), hL, List.length_take]
    omega
  have done : (s.withRx (bs.take L)).responseComplete = true := by
    rw [responseComplete_iff]
    simp only [withRx_rxbuf, withRx_curOp, withRx_curArg, getD_take L (by omega), hL, List.length_take]
    omega
  have completed : (s.withRx (bs.take (L - 1))).rxByte (bs[L - 1]) = (s.withRx (bs.take L)).complete := by
    rw [State.rxByte, if_pos (by exact h), store_withRx, last, if_pos done]
  conv_lhs => rw [split]
  rw [rxBytes_append, first, rxBytes_append, rxBytes_cons, completed, rxBytes_nil]
  apply rxBytes_drop
  rcases complete_cases (s.withRx (bs.take L)) with ⟨vs, hv, -⟩ | ⟨e, he, -⟩
  · simp [hv]
  · simp [he]

/-! ### Transmitting -/

theorem txByte_idle {s : State} (h : ¬(s.phase = .tx ∧ s.cfg.txGuardTicks ≤ s.elapsed)) : s.txByte = s := if_neg h

/-- A readiness of the transmitter does nothing, or sends one byte. -/
theorem txByte_cases (s : State) :
    (¬(s.phase = .tx ∧ s.cfg.txGuardTicks ≤ s.elapsed) ∧ s.txByte = s) ∨
    ((s.phase = .tx ∧ s.cfg.txGuardTicks ≤ s.elapsed) ∧
      s.txByte = s.sentTo (putByte (s.txidx == 0) (s.txbuf.getD s.txidx.toNat 0) s.sent) (s.txidx + 1)
        (if s.txidx + 1 = 8 then .rx else .tx)) := by
  by_cases h : s.phase = .tx ∧ s.cfg.txGuardTicks ≤ s.elapsed
  · exact .inr ⟨h, if_pos h⟩
  · exact .inl ⟨h, if_neg h⟩

theorem txBytes_idle {s : State} (h : ¬(s.phase = .tx ∧ s.cfg.txGuardTicks ≤ s.elapsed)) (n : Nat) :
    s.txBytes n = s := by
  induction n with
  | zero => rfl
  | succ n ih => rw [State.txBytes, txByte_idle h, ih]

theorem txBytes_succ (n : Nat) (s : State) : s.txBytes (n + 1) = s.txByte.txBytes n := rfl

/-- `TXIDX` counts without wrapping below 8. -/
theorem toNat_txidx_succ {i : BitVec 4} (h : i.toNat < 8) : (i + 1).toNat = i.toNat + 1 := by
  have := BitVec.toNat_add i 1
  rwa [show (1 : BitVec 4).toNat = 1 from rfl, Nat.mod_eq_of_lt (by omega)] at this

/-- The request whose first bytes stand newest on the line is completed by the rest of `TXBUF`. -/
theorem txBytes_rest (n : Nat) (s : State) (r : Request) (older : List Request) (hp : s.phase = .tx)
    (hg : s.cfg.txGuardTicks ≤ s.elapsed) (hl : s.txbuf.length = 8) (h0 : 0 < s.txidx.toNat) (h8 : s.txidx.toNat < 8)
    (hn : 8 ≤ s.txidx.toNat + n) (hs : s.sent = r :: older) :
    s.txBytes n = s.sentTo ({ r with bytes := r.bytes ++ s.txbuf.drop s.txidx.toNat } :: older) 8 .rx := by
  induction n generalizing s r with
  | zero => omega
  | succ n ih =>
    have hi := toNat_txidx_succ h8
    have hne : (s.txidx == 0) = false := by
      rw [beq_eq_false_iff_ne]; intro h; simp [h] at h0
    have hget : s.txbuf.getD s.txidx.toNat 0 = s.txbuf[s.txidx.toNat] := by
      simp [List.getD_eq_getElem?_getD, List.getElem?_eq_getElem (show s.txidx.toNat < s.txbuf.length by omega)]
    have hdrop : s.txbuf.drop s.txidx.toNat = s.txbuf[s.txidx.toNat] :: s.txbuf.drop (s.txidx.toNat + 1) :=
      List.drop_eq_getElem_cons (by omega)
    rw [txBytes_succ, State.txByte, if_pos ⟨hp, hg⟩, hne, hget, hs, hdrop]
    simp only [putByte, Bool.false_eq_true, if_false]
    by_cases h7 : s.txidx.toNat = 7
    · have h8' : s.txidx + 1 = 8 := BitVec.eq_of_toNat_eq (by rw [hi, h7]; rfl)
      rw [if_pos h8', h8', txBytes_idle (by simp), List.drop_of_length_le (by omega)]
    · have h8' : s.txidx + 1 ≠ 8 := fun h => by
        have := congrArg BitVec.toNat h
        rw [hi, show (8 : BitVec 4).toNat = 8 from rfl] at this
        omega
      have := ih (s.sentTo (⟨r.bytes ++ [s.txbuf[s.txidx.toNat]], r.acted⟩ :: older) (s.txidx + 1) .tx) _ rfl hg hl
        (by simp only [sentTo_txidx, hi]; omega) (by simp only [sentTo_txidx, hi]; omega)
        (by simp only [sentTo_txidx, hi]; omega) rfl
      rw [if_neg h8', this]
      simp only [sentTo_txidx, sentTo_txbuf, sentTo_sentTo, hi, List.append_assoc, List.singleton_append]

/-- A whole request goes out from the start of `TXBUF`. -/
theorem txFrame_whole (s : State) (hp : s.phase = .tx) (hg : s.cfg.txGuardTicks ≤ s.elapsed) (hl : s.txbuf.length = 8)
    (h0 : s.txidx = 0) : s.txFrame = s.sentTo (⟨s.txbuf, false⟩ :: s.sent) 8 .rx := by
  obtain ⟨a, l, hb⟩ : ∃ a l, s.txbuf = a :: l := by
    cases h : s.txbuf with
    | nil => simp [h] at hl
    | cons a l => exact ⟨a, l, rfl⟩
  rw [State.txFrame, txBytes_succ, State.txByte, if_pos ⟨hp, hg⟩, h0]
  simp only [BEq.rfl, putByte, if_true]
  have := txBytes_rest 7 (s.sentTo (⟨[s.txbuf.getD 0 0], false⟩ :: s.sent) 1 .tx) _ s.sent rfl hg hl
    (show 0 < 1 by omega) (show 1 < 8 by omega) (show 8 ≤ 1 + 7 by omega) rfl
  exact this.trans (by simp [hb])

end Sys2Proof.Machine
end

