-- ==== Sys2Proof/Laws/Inputs.lean ====
section
/-! SUPPORT. What one move can do, said once: a command word, a burst of the transmitter, a burst of the receiver. -/

namespace Sys2Proof.Machine

theorem step_nil {s : State} (h : s.inputs = []) : step s = .next s := by simp only [step, runNext, h]

theorem step_cons {s : State} {e : Input} {rest : List Input} (h : s.inputs = e :: rest) :
    step s = runInput e (s.withInputs rest) := by
  simp only [step, runNext, h]

/-! ### Command words -/

/-- Everything a command word can do at the ready port. -/
inductive WordEffect (w : BitVec 40) (s : State) : State → Prop
  | refused (why : BadCommand) : WordEffect w s (s.cleared.refuse why)
  | started (op : Op) (reg arg : Word) (hv : s.saValid = true)
      (hc : op = .read → 1 ≤ arg.toNat ∧ arg.toNat ≤ s.cfg.maxReadCount) : WordEffect w s (s.cleared.start op reg arg)
  | setto (ticks : BitVec 32) (hw : w = 0x05#8 ++ ticks) :
      WordEffect w s { s.cleared with timeout := timeoutBits s.cfg ticks, done := true }
  | setsa (sa : Byte) (hw : w = 0x07#8 ++ 0#24 ++ sa) :
      WordEffect w s { s.cleared with slaveAddr := sa, saValid := true, done := true }
  | answered (v : BitVec 32) (info : BitVec 3) (hi : info.extractLsb' 0 2 ≠ 3) : WordEffect w s (s.cleared.answer v info)
  | absent : WordEffect w s { s.cleared with rinfo := 0, done := true }

theorem WordEffect.configured {w : BitVec 40} {s : State} {run : State → State}
    (h : s.saValid = true → WordEffect w s (run s.cleared)) : WordEffect w s (configured run s.cleared) := by
  rcases configured_cases run s.cleared with ⟨hv, e⟩ | ⟨-, e⟩
  · rw [e]; exact h hv
  · rw [e]; exact .refused _

theorem WordEffect.countInRange {w : BitVec 40} {s : State} {n : Word} {run : State → State}
    (h : 1 ≤ n.toNat ∧ n.toNat ≤ s.cfg.maxReadCount → WordEffect w s (run s.cleared)) :
    WordEffect w s (countInRange n run s.cleared) := by
  rcases countInRange_cases n run s.cleared with ⟨hv, e⟩ | ⟨-, e⟩
  · rw [e]; exact h hv
  · rw [e]; exact .refused _

theorem WordEffect.accessAllowed {w : BitVec 40} {s : State} {idx : BitVec 4} {m : Access} {run : State → State}
    (h : WordEffect w s (run s.cleared)) : WordEffect w s (accessAllowed idx m run s.cleared) := by
  rcases accessAllowed_cases idx m run s.cleared with ⟨-, e⟩ | ⟨-, e⟩
  · rw [e]; exact .refused _
  · rw [e]; exact h

theorem presentInfo_access (m : Access) : (presentInfo m).extractLsb' 0 2 ≠ 3 := by cases m <;> decide

/-- The word of `SETSA` (R102), from its fields. -/
theorem word_of_setsa {w : BitVec 40} (h : (cmdOp w).toNat = 7) (ha : cmdA w = 0) (hb : hi8 (cmdB w) = 0) :
    w = 0x07#8 ++ 0#24 ++ lo8 (cmdB w) := by
  apply BitVec.eq_of_toNat_eq
  have hA := congrArg BitVec.toNat ha
  have hB := congrArg BitVec.toNat hb
  rw [toNat_cmdOp] at h
  rw [toNat_cmdA] at hA
  rw [toNat_hi8, toNat_cmdB] at hB
  rw [toNat_append_cmd, toNat_append_cmd, toNat_lo8, toNat_cmdB]
  simp at hA hB ⊢
  omega

/-- A word at the ready port always answers a next state, one of `WordEffect`. -/
theorem runWord_idle {s : State} (h : s.phase = .idle) (w : BitVec 40) :
    ∃ t, runWord w s = .next t ∧ WordEffect w s t := by
  unfold runWord
  simp only [decode]
  split
  · rename_i i hd
    unfold decodeWord at hd
    split at hd <;> rename_i hop
    · obtain rfl := Except.ok.inj hd
      simp only [exec, execRdhr, atPort_idle h]
      exact ⟨_, rfl, .configured fun hv => .countInRange fun hc => .started _ _ _ hv fun _ => hc⟩
    · obtain rfl := Except.ok.inj hd
      simp only [exec, execWrsr, atPort_idle h]
      exact ⟨_, rfl, .configured fun hv => .started _ _ _ hv nofun⟩
    · obtain ⟨-, rfl⟩ := unlessReserved_eq_ok.mp hd
      simp only [exec, execRdreg, atPort_idle h]
      exact ⟨_, rfl, .configured fun hv => .countInRange fun hc => .accessAllowed (.started _ _ _ hv fun _ => hc)⟩
    · obtain ⟨-, rfl⟩ := unlessReserved_eq_ok.mp hd
      simp only [exec, execWrreg, atPort_idle h]
      exact ⟨_, rfl, .configured fun hv => .accessAllowed (.started _ _ _ hv nofun)⟩
    · obtain rfl := Except.ok.inj hd
      simp only [exec, execSetto, atPort_idle h]
      refine ⟨_, rfl, .setto _ ?_⟩
      rw [show (0x05#8 : Byte) = cmdOp w from BitVec.eq_of_toNat_eq hop.symm, append_cmdArg32]
    · obtain ⟨-, rfl⟩ := unlessReserved_eq_ok.mp hd
      simp only [exec, execGetto, atPort_idle h]
      exact ⟨_, rfl, .answered _ _ (by decide)⟩
    · obtain ⟨hz, rfl⟩ := unlessReserved_eq_ok.mp hd
      rw [Bool.and_eq_true, beq_iff_eq, beq_iff_eq] at hz
      simp only [exec, execSetsa, atPort_idle h]
      exact ⟨_, rfl, .setsa _ (word_of_setsa hop hz.1 hz.2)⟩
    · obtain ⟨-, rfl⟩ := unlessReserved_eq_ok.mp hd
      simp only [exec, execGetsa, atPort_idle h]
      exact ⟨_, rfl, .configured fun _ => .answered _ _ (by decide)⟩
    · obtain ⟨-, rfl⟩ := unlessReserved_eq_ok.mp hd
      simp only [exec, execLookup, atPort_idle h]
      exact ⟨_, rfl, .answered _ _ (presentInfo_access _)⟩
    · obtain ⟨-, rfl⟩ := unlessReserved_eq_ok.mp hd
      simp only [exec, execFanreg, atPort_idle h]
      refine ⟨_, rfl, ?_⟩
      cases fanRegister (lo8 (cmdB w)) with
      | none => exact .absent
      | some a => exact .answered _ _ (by decide)
    · cases hd
  · rename_i e _
    cases e <;> exact ⟨_, atPort_idle h _, .refused _⟩

/-- A word at the busy port: the host waits. -/
theorem runWord_busy {s : State} (h : s.phase ≠ .idle) (w : BitVec 40) : runWord w s = .next s := by
  unfold runWord
  simp only [decode]
  split
  · rename_i i hd
    unfold decodeWord at hd
    split at hd <;> try rw [unlessReserved_eq_ok] at hd
    all_goals first
      | (obtain rfl := Except.ok.inj hd; simp only [exec, execRdhr, execWrsr, execSetto, atPort_busy h])
      | (obtain ⟨-, rfl⟩ := hd
         simp only [exec, execRdreg, execWrreg, execGetto, execSetsa, execGetsa, execLookup, execFanreg, atPort_busy h])
      | cases hd
  · rename_i e _
    cases e <;> exact atPort_busy h _

/-! ### Bursts: an instruction where the bytes are one, the bytes alike where they are none -/

theorem runRequest_eq (s : State) : runRequest s = .next s.txFrame := by
  unfold runRequest
  simp only [decode]
  split
  · rename_i i hd
    generalize hb : s.txbuf = b at hd
    have key : ∀ j : Instr, encodeBytes s.cfg j = b → .next (s.sendRequest (encodeBytes s.cfg j)) =
        (.next s.txFrame : Host.Outcome State Fault Refusal) := by
      intro j hj
      rw [State.sendRequest, hj, if_pos hb]
    unfold decodeRequest at hd
    split at hd
    · split at hd
      · rename_i hf
        obtain rfl := Except.ok.inj hd
        exact key _ (by simp [encodeBytes, encode, Code.bytes, be16, le16, hf])
      · split at hd
        · rename_i hf
          obtain rfl := Except.ok.inj hd
          exact key _ (by simp [encodeBytes, encode, Code.bytes, be16, le16, hf])
        · cases hd
    · cases hd
  · rfl

/-- What a read response that decodes was read from. -/
theorem decodeReadResponse_eq_ok {c : Config} {l : List Byte} {sa : Byte} {i : Instr}
    (h : decodeReadResponse c sa l = .ok i) :
    ∃ bc vs crc, i = .frameRdrsp sa bc vs crc ∧ 1 ≤ vs.length ∧ vs.length ≤ c.maxReadCount ∧
      l = bc :: (wordsBytes vs ++ le16 crc) := by
  cases l with
  | nil => simp [decodeReadResponse] at h
  | cons bc rest =>
    simp only [decodeReadResponse] at h
    split at h
    · rename_i hl
      generalize (rest.length - 2) / 2 = n at *
      have ht : (rest.take (2 * n)).length = 2 * n := by simp; omega
      obtain rfl := Except.ok.inj h
      refine ⟨_, _, _, rfl, ?_, ?_, ?_⟩
      · rw [length_bytesWords n _ ht]; omega
      · rw [length_bytesWords n _ ht]; omega
      · rw [wordsBytes_bytesWords n _ ht]
        congr 1
        rw [le16, lo8_fromLe16, hi8_fromLe16]
        conv_lhs => rw [← List.take_append_drop (2 * n) rest]
        congr 1
        rw [List.drop_eq_getElem_cons (by omega), List.drop_eq_getElem_cons (by omega), List.drop_of_length_le (by omega)]
        simp [List.getD_eq_getElem?_getD, List.getElem?_eq_getElem (show 2 * n < rest.length by omega),
          List.getElem?_eq_getElem (show 2 * n + 1 < rest.length by omega)]
    · cases h

theorem runResponse_eq (bytes : List Byte) (s : State) : runResponse bytes s = .next (s.rxBytes bytes) := by
  unfold runResponse
  simp only [decode]
  split
  · rename_i i hd
    have key : ∀ j : Instr, encodeBytes s.cfg j = bytes → .next (s.rxBytes (encodeBytes s.cfg j)) =
        (.next (s.rxBytes bytes) : Host.Outcome State Fault Refusal) := by
      intro j hj
      rw [hj]
    unfold decodeResponse at hd
    split at hd
    · split at hd
      · rename_i hf
        obtain ⟨bc, vs, crc, rfl, -, -, rfl⟩ := decodeReadResponse_eq_ok hd
        exact key _ (by simp [encodeBytes, encode, Code.bytes, hf])
      split at hd
      · rename_i hf
        unfold decodeWriteResponse at hd
        split at hd
        · obtain rfl := Except.ok.inj hd
          exact key _ (by simp [encodeBytes, encode, Code.bytes, be16, le16, hf])
        · cases hd
      split at hd
      · rename_i hf
        unfold decodeException at hd
        split at hd
        · obtain rfl := Except.ok.inj hd
          exact key _ (by simp [encodeBytes, encode, Code.bytes, le16, hf])
        · cases hd
      split at hd
      · rename_i hf
        unfold decodeException at hd
        split at hd
        · obtain rfl := Except.ok.inj hd
          exact key _ (by simp [encodeBytes, encode, Code.bytes, le16, hf])
        · cases hd
      · cases hd
    · cases hd
  · rfl

end Sys2Proof.Machine
end

