-- ==== Sys2Proof/Laws/Memory.lean ====
section
/-! SUPPORT. The laws of a device's register table: read after write, and the canonical form. -/

namespace Sys2Proof.Machine

/-- A read of the register written. -/
theorem Memory.read_write_self (m : Memory) (a : Nat) (v : Word) (lo : Nat) (h : m.wfFrom lo = true) :
    (m.write a v).read a = v := by
  have below : ∀ (m : Memory) (lo : Nat), m.wfFrom lo = true → a < lo → m.read a = Memory.unlisted := by
    intro m
    induction m with
    | nil => intros; rfl
    | cons p m ih =>
      intro lo h hlt
      simp only [Memory.wfFrom, Bool.and_eq_true, decide_eq_true_eq] at h
      rw [Memory.read, if_neg (by omega), ih _ h.2 (by omega)]
  induction m generalizing lo with
  | nil => by_cases hv : v = Memory.unlisted <;> simp [Memory.write, Memory.entry, Memory.read, hv]
  | cons p m ih =>
    obtain ⟨b, w⟩ := p
    have h' := h
    simp only [Memory.wfFrom, Bool.and_eq_true, decide_eq_true_eq] at h
    simp only [Memory.write]
    split
    · by_cases hv : v = Memory.unlisted
      · rw [Memory.entry, if_pos hv, List.nil_append, Memory.read, if_neg (by omega), below _ _ h.2 (by omega), hv]
      · simp [Memory.entry, Memory.read, hv]
    split
    · rename_i hab
      by_cases hv : v = Memory.unlisted
      · rw [Memory.entry, if_pos hv, List.nil_append, below _ _ h.2 (by omega), hv]
      · simp [Memory.entry, Memory.read, hv]
    · rw [Memory.read, if_neg (by omega), ih _ h.2]

/-- A read of any other register is as before. -/
theorem Memory.read_write_ne (m : Memory) {a b : Nat} (v : Word) (lo : Nat) (h : m.wfFrom lo = true) (hab : b ≠ a) :
    (m.write a v).read b = m.read b := by
  have entry : ∀ m : Memory, Memory.read (Memory.entry a v ++ m) b = m.read b := by
    intro m
    unfold Memory.entry
    split
    · rfl
    · rw [List.singleton_append, Memory.read, if_neg (by omega)]
  induction m generalizing lo with
  | nil => simpa [Memory.write] using entry []
  | cons p m ih =>
    obtain ⟨c, w⟩ := p
    simp only [Memory.wfFrom, Bool.and_eq_true, decide_eq_true_eq] at h
    simp only [Memory.write]
    split
    · exact entry _
    split
    · rw [entry, Memory.read, if_neg (by omega)]
    · rw [Memory.read, Memory.read, ih _ h.2]

/-- A lower bound may be lowered. -/
theorem Memory.wfFrom_mono {m : Memory} {lo lo' : Nat} (h : m.wfFrom lo = true) (hle : lo' ≤ lo) :
    m.wfFrom lo' = true := by
  cases m with
  | nil => rfl
  | cons p m =>
    simp only [Memory.wfFrom, Bool.and_eq_true, decide_eq_true_eq] at h ⊢
    exact ⟨⟨⟨by omega, h.1.1.2⟩, h.1.2⟩, h.2⟩

theorem Memory.wfFrom_entry {m : Memory} {a lo : Nat} (v : Word) (hlo : lo ≤ a) (ha : a < 65536)
    (h : m.wfFrom (a + 1) = true) : Memory.wfFrom lo (Memory.entry a v ++ m) = true := by
  unfold Memory.entry
  split
  · exact Memory.wfFrom_mono h (by omega)
  · rename_i hv
    simp [Memory.wfFrom, hlo, ha, h, hv]

/-- A write keeps the canonical form. -/
theorem Memory.wfFrom_write (m : Memory) {a : Nat} (v : Word) {lo : Nat} (hlo : lo ≤ a) (ha : a < 65536)
    (h : m.wfFrom lo = true) : (m.write a v).wfFrom lo = true := by
  induction m generalizing lo with
  | nil => simpa [Memory.write] using Memory.wfFrom_entry (m := []) v hlo ha rfl
  | cons p m ih =>
    obtain ⟨b, w⟩ := p
    simp only [Memory.wfFrom, Bool.and_eq_true, decide_eq_true_eq] at h
    simp only [Memory.write]
    split
    · refine Memory.wfFrom_entry v hlo ha ?_
      simp only [Memory.wfFrom, Bool.and_eq_true, decide_eq_true_eq]
      exact ⟨⟨⟨by omega, h.1.1.2⟩, h.1.2⟩, h.2⟩
    split
    · rename_i hab
      exact Memory.wfFrom_entry v hlo ha (hab ▸ h.2)
    · simp only [Memory.wfFrom, Bool.and_eq_true, decide_eq_true_eq]
      exact ⟨h.1, ih (by omega) h.2⟩

/-- A write keeps the canonical form. -/
theorem Memory.wf_write (m : Memory) {a : Nat} (v : Word) (ha : a < 65536) (h : m.wf = true) :
    (m.write a v).wf = true :=
  Memory.wfFrom_write m v (Nat.zero_le a) ha h

@[simp] theorem Memory.length_readMany (m : Memory) (a n : Nat) : (m.readMany a n).length = n := by
  simp [Memory.readMany]

end Sys2Proof.Machine
end

