-- ==== Sys2Proof/Laws/PerInstr.lean ====
section
/-! SUPPORT. Statements about every instruction as syntax, one lemma per constructor. -/

namespace Sys2Proof.Laws.TableWidth

open Sys2Proof.Machine

/-- The number of bytes opcode_table.json gives an instruction's row: 40 bits a command or an exception response, 64 bits a
request or a write response, `40 + 16 * N` bits a read response of `N` values. -/
def bytes : Instr → Nat
  | .rdhr _ _ | .wrsr _ _ | .rdreg _ _ | .wrreg _ _ | .setto _ | .getto | .setsa _ | .getsa | .lookup _ | .fanreg _ => 5
  | .frameRdreq _ _ _ _ | .frameWrreq _ _ _ _ | .frameWrrsp _ _ _ _ => 8
  | .frameRdrsp _ _ values _ => 5 + 2 * values.length
  | .frameExcrspRd _ _ _ | .frameExcrspWr _ _ _ => 5

/-- An instruction is encoded in the number of bytes its row has. -/
def Statement (i : Instr) : Prop := ∀ c : Config, (encodeBytes c i).length = bytes i

theorem rdhr (addr count : Word) : Statement (.rdhr addr count) := fun _ => rfl
theorem wrsr (addr value : Word) : Statement (.wrsr addr value) := fun _ => rfl
theorem rdreg (idx : BitVec 4) (count : Word) : Statement (.rdreg idx count) := fun _ => rfl
theorem wrreg (idx : BitVec 4) (value : Word) : Statement (.wrreg idx value) := fun _ => rfl
theorem setto (ticks : BitVec 32) : Statement (.setto ticks) := fun _ => rfl
theorem getto : Statement .getto := fun _ => rfl
theorem setsa (sa : Byte) : Statement (.setsa sa) := fun _ => rfl
theorem getsa : Statement .getsa := fun _ => rfl
theorem lookup (idx : BitVec 4) : Statement (.lookup idx) := fun _ => rfl
theorem fanreg (i : Byte) : Statement (.fanreg i) := fun _ => rfl
theorem frameRdreq (sa : Byte) (reg count crc : Word) : Statement (.frameRdreq sa reg count crc) := fun _ => rfl
theorem frameWrreq (sa : Byte) (reg value crc : Word) : Statement (.frameWrreq sa reg value crc) := fun _ => rfl

theorem frameRdrsp (sa byteCount : Byte) (values : List Word) (crc : Word) :
    Statement (.frameRdrsp sa byteCount values crc) := by
  intro c
  simp [encodeBytes, encode, Code.bytes, bytes, le16]
  omega

theorem frameWrrsp (sa : Byte) (reg value crc : Word) : Statement (.frameWrrsp sa reg value crc) := fun _ => rfl
theorem frameExcrspRd (sa code : Byte) (crc : Word) : Statement (.frameExcrspRd sa code crc) := fun _ => rfl
theorem frameExcrspWr (sa code : Byte) (crc : Word) : Statement (.frameExcrspWr sa code crc) := fun _ => rfl

end Sys2Proof.Laws.TableWidth
end

