-- ==== Sys2Proof/Laws/Rom.lean ====
section
/-! SUPPORT. The ROM's numbering: under the condition on the parameters every name has an index, and the entry at that index is
the name's. -/

namespace Sys2Proof

theorem RegName.mem_all (n : RegName) : n ∈ RegName.all := by cases n <;> decide

theorem Config.length_romOrder {c : Config} (h : c.wf = true) : c.romOrder.length = 16 := by
  simp only [Config.wf, Bool.and_eq_true, beq_iff_eq] at h
  exact h.1.2

theorem Config.mem_romOrder {c : Config} (h : c.wf = true) (n : RegName) : n ∈ c.romOrder := by
  simp only [Config.wf, Bool.and_eq_true, List.all_eq_true, List.contains_iff_mem] at h
  exact h.2 n n.mem_all

namespace Machine

/-- The index of a name names it (R221). -/
theorem romOrder_romIndex {c : Config} (h : c.wf = true) (n : RegName) :
    c.romOrder[(romIndex c n).toNat]? = some n := by
  have hl := List.idxOf_lt_length_of_mem (Config.mem_romOrder h n)
  have h16 := Config.length_romOrder h
  have e : (romIndex c n).toNat = c.romOrder.idxOf n := by
    simp only [romIndex, BitVec.toNat_ofNat]
    omega
  rw [e, List.getElem?_eq_getElem hl, List.getElem_idxOf hl]

/-- The entry at the index of a name is the name's (R108, R221). -/
theorem romEntry_romIndex {c : Config} (h : c.wf = true) (n : RegName) : romEntry c (romIndex c n) = registerEntry n := by
  rw [romEntry, List.getD_eq_getElem?_getD, romOrder_romIndex h, Option.getD_some]

end Machine

end Sys2Proof
end

