-- ==== Sys2Proof/Laws/Steps.lean ====
section
/-! SUPPORT. The frame of the steps of an exchange, and everything one step of the machine can do, said once. -/

namespace Sys2Proof.Machine

/-- What every step of an exchange leaves alone: the parameters, the session, the operand latches, `TXBUF`, the scalar
result, the device, what the host holds, the moves to come. -/
structure ExchangeFrame (s t : State) : Prop where
  cfg : t.cfg = s.cfg
  timeout : t.timeout = s.timeout
  slaveAddr : t.slaveAddr = s.slaveAddr
  saValid : t.saValid = s.saValid
  curOp : t.curOp = s.curOp
  curSa : t.curSa = s.curSa
  curReg : t.curReg = s.curReg
  curArg : t.curArg = s.curArg
  curTo : t.curTo = s.curTo
  ctxValid : t.ctxValid = s.ctxValid
  txbuf : t.txbuf = s.txbuf
  rval : t.rval = s.rval
  rvalValid : t.rvalValid = s.rvalValid
  rinfo : t.rinfo = s.rinfo
  hostData : t.hostData = s.hostData
  device : t.device = s.device
  inputs : t.inputs = s.inputs

theorem ExchangeFrame.refl (s : State) : ExchangeFrame s s :=
  ⟨rfl, rfl, rfl, rfl, rfl, rfl, rfl, rfl, rfl, rfl, rfl, rfl, rfl, rfl, rfl, rfl, rfl⟩

theorem ExchangeFrame.trans {s t u : State} (a : ExchangeFrame s t) (b : ExchangeFrame t u) : ExchangeFrame s u where
  cfg := b.cfg.trans a.cfg
  timeout := b.timeout.trans a.timeout
  slaveAddr := b.slaveAddr.trans a.slaveAddr
  saValid := b.saValid.trans a.saValid
  curOp := b.curOp.trans a.curOp
  curSa := b.curSa.trans a.curSa
  curReg := b.curReg.trans a.curReg
  curArg := b.curArg.trans a.curArg
  curTo := b.curTo.trans a.curTo
  ctxValid := b.ctxValid.trans a.ctxValid
  txbuf := b.txbuf.trans a.txbuf
  rval := b.rval.trans a.rval
  rvalValid := b.rvalValid.trans a.rvalValid
  rinfo := b.rinfo.trans a.rinfo
  hostData := b.hostData.trans a.hostData
  device := b.device.trans a.device
  inputs := b.inputs.trans a.inputs

/-- What the receiver, the timer and the link leave alone besides: what is on the line. -/
structure ReceiveFrame (s t : State) : Prop extends ExchangeFrame s t where
  sent : t.sent = s.sent

theorem ReceiveFrame.refl (s : State) : ReceiveFrame s s := ⟨.refl s, rfl⟩

theorem ReceiveFrame.trans {s t u : State} (a : ReceiveFrame s t) (b : ReceiveFrame t u) : ReceiveFrame s u :=
  ⟨a.toExchangeFrame.trans b.toExchangeFrame, b.sent.trans a.sent⟩

theorem receiveFrame_raise (s : State) (e : Error) : ReceiveFrame s (s.raise e) :=
  ⟨⟨rfl, rfl, rfl, rfl, rfl, rfl, rfl, rfl, rfl, rfl, rfl, rfl, rfl, rfl, rfl, rfl, rfl⟩, rfl⟩

theorem receiveFrame_succeed (s : State) (vs : List Word) : ReceiveFrame s (s.succeed vs) :=
  ⟨⟨rfl, rfl, rfl, rfl, rfl, rfl, rfl, rfl, rfl, rfl, rfl, rfl, rfl, rfl, rfl, rfl, rfl⟩, rfl⟩

theorem receiveFrame_store (s : State) (b : Byte) : ReceiveFrame s (s.store b) :=
  ⟨⟨rfl, rfl, rfl, rfl, rfl, rfl, rfl, rfl, rfl, rfl, rfl, rfl, rfl, rfl, rfl, rfl, rfl⟩, rfl⟩

theorem receiveFrame_count (s : State) : ReceiveFrame s s.count :=
  ⟨⟨rfl, rfl, rfl, rfl, rfl, rfl, rfl, rfl, rfl, rfl, rfl, rfl, rfl, rfl, rfl, rfl, rfl⟩, rfl⟩

theorem receiveFrame_complete (s : State) : ReceiveFrame s s.complete := by
  rcases complete_cases s with ⟨vs, e, -⟩ | ⟨er, e, -⟩ <;> rw [e]
  · exact receiveFrame_succeed s vs
  · exact receiveFrame_raise s er

theorem receiveFrame_rxByte (b : Byte) (s : State) : ReceiveFrame s (s.rxByte b) := by
  rcases rxByte_cases b s with ⟨-, e⟩ | ⟨-, -, e⟩ | ⟨-, -, e⟩ <;> rw [e]
  · exact .refl s
  · exact receiveFrame_store s b
  · exact (receiveFrame_store s b).trans (receiveFrame_complete _)

theorem receiveFrame_rxBytes : ∀ (l : List Byte) (s : State), ReceiveFrame s (s.rxBytes l)
  | [], s => .refl s
  | b :: l, s => (receiveFrame_rxByte b s).trans (receiveFrame_rxBytes l _)

theorem receiveFrame_tick (s : State) : ReceiveFrame s s.tick := by
  rcases tick_cases s with ⟨-, e⟩ | ⟨-, -, e⟩ | ⟨-, -, e⟩ <;> rw [e]
  · exact .refl s
  · exact receiveFrame_count s
  · exact (receiveFrame_count s).trans (receiveFrame_raise _ _)

theorem receiveFrame_linkFault (c : Byte) (s : State) : ReceiveFrame s (s.linkFault c) := by
  unfold State.linkFault
  split
  · exact .refl s
  · exact receiveFrame_raise s _

theorem receiveFrame_rxTick (b : Byte) (s : State) : ReceiveFrame s (s.rxTick b) := by
  unfold State.rxTick
  split
  · exact (receiveFrame_rxByte b s).trans (receiveFrame_tick _)
  · exact (receiveFrame_tick s).trans (receiveFrame_rxByte b _)

theorem receiveFrame_rxLine (s : State) : ReceiveFrame s s.rxLine := by
  unfold State.rxLine
  split
  · exact .refl s
  · rename_i b rest _
    have h := receiveFrame_rxByte b { s with inFlight := rest }
    exact ⟨⟨h.cfg, h.timeout, h.slaveAddr, h.saValid, h.curOp, h.curSa, h.curReg, h.curArg, h.curTo, h.ctxValid, h.txbuf, h.rval, h.rvalValid, h.rinfo, h.hostData, h.device, h.inputs⟩, h.sent⟩

theorem exchangeFrame_txByte (s : State) : ExchangeFrame s s.txByte := by
  rcases txByte_cases s with ⟨-, e⟩ | ⟨-, e⟩ <;> rw [e]
  · exact .refl s
  · exact ⟨rfl, rfl, rfl, rfl, rfl, rfl, rfl, rfl, rfl, rfl, rfl, rfl, rfl, rfl, rfl, rfl, rfl⟩

theorem exchangeFrame_txBytes : ∀ (n : Nat) (s : State), ExchangeFrame s (s.txBytes n)
  | 0, s => .refl s
  | n + 1, s => (exchangeFrame_txByte s).trans (exchangeFrame_txBytes n _)

theorem exchangeFrame_txFrame (s : State) : ExchangeFrame s s.txFrame := exchangeFrame_txBytes 8 s

/-- Nothing goes out outside `TX`. -/
theorem txByte_not_tx {s : State} (h : s.phase ≠ .tx) : s.txByte = s := txByte_idle fun q => h q.1

theorem txFrame_not_tx {s : State} (h : s.phase ≠ .tx) : s.txFrame = s := txBytes_idle (fun q => h q.1) 8

/-! ### The steps do not read the moves still to come -/

theorem complete_withInputs (s : State) (l : List Input) : (s.withInputs l).complete = s.complete.withInputs l := by
  unfold State.complete
  generalize hd : dec s.cfg s.curOp s.curSa s.curReg s.curArg s.rxbuf = r
  have hd' : dec (s.withInputs l).cfg (s.withInputs l).curOp (s.withInputs l).curSa (s.withInputs l).curReg
      (s.withInputs l).curArg (s.withInputs l).rxbuf = r := hd
  rw [hd']
  cases r <;> rfl

theorem rxByte_withInputs (b : Byte) (s : State) (l : List Input) :
    (s.withInputs l).rxByte b = (s.rxByte b).withInputs l := by
  unfold State.rxByte
  by_cases h : s.phase = .rx
  · rw [if_pos h, if_pos (by exact h)]
    by_cases h2 : (s.store b).responseComplete = true
    · rw [if_pos h2, if_pos (by exact h2)]
      exact complete_withInputs (s.store b) l
    · rw [if_neg h2, if_neg (by exact h2)]
      rfl
  · rw [if_neg h, if_neg (by exact h)]

theorem txByte_withInputs (s : State) (l : List Input) : (s.withInputs l).txByte = s.txByte.withInputs l := by
  unfold State.txByte
  by_cases h : s.phase = .tx ∧ s.cfg.txGuardTicks ≤ s.elapsed
  · rw [if_pos h, if_pos (by exact h)]
    rfl
  · rw [if_neg h, if_neg (by exact h)]

/-! ### Everything a step can do -/

theorem markActed_bytes : ∀ (k : Nat) (l : List Request), (markActed k l).map (·.bytes) = l.map (·.bytes)
  | _, [] => by simp [markActed]
  | 0, r :: l => by simp [markActed]
  | k + 1, r :: l => by simp [markActed, markActed_bytes k l]

/-- Requests on the line after more has gone out or been acted on: new ones in front, the old ones in their order, each with its bytes
and perhaps more, each that had been acted on still so (R78). -/
def ActedKept (before after : List Request) : Prop :=
  ∃ newer same, after = newer ++ same ∧ same.length = before.length ∧
    ∀ (k : Nat) (r : Request), before[k]? = some r →
      ∃ r', same[k]? = some r' ∧ r.bytes <+: r'.bytes ∧ (r.acted = true → r'.acted = true)

theorem ActedKept.refl (l : List Request) : ActedKept l l :=
  ⟨[], l, rfl, rfl, fun _ r h => ⟨r, h, List.prefix_rfl, id⟩⟩

theorem ActedKept.trans {a b c : List Request} (h1 : ActedKept a b) (h2 : ActedKept b c) : ActedKept a c := by
  obtain ⟨n1, s1, rfl, l1, k1⟩ := h1
  obtain ⟨n2, s2, rfl, l2, k2⟩ := h2
  refine ⟨n2 ++ s2.take n1.length, s2.drop n1.length, by simp, by simp [l2, l1], fun k r hk => ?_⟩
  obtain ⟨r', hr, hb, ha⟩ := k1 k r hk
  obtain ⟨q, hq, hb', ha'⟩ := k2 (n1.length + k) r' (by simpa [List.getElem?_append_right] using hr)
  exact ⟨q, by simpa using hq, hb.trans hb', ha' ∘ ha⟩

theorem actedKept_putByte (fresh : Bool) (b : Byte) (l : List Request) : ActedKept l (putByte fresh b l) := by
  unfold putByte
  split
  · exact ⟨[_], l, rfl, rfl, fun _ r h => ⟨r, h, List.prefix_rfl, id⟩⟩
  · split
    · exact ⟨[_], [], rfl, rfl, fun _ r h => ⟨r, h, List.prefix_rfl, id⟩⟩
    · refine ⟨[], _, rfl, rfl, fun k r h => ?_⟩
      cases k with
      | zero =>
        obtain rfl : _ = r := by simpa using h
        exact ⟨_, rfl, List.prefix_append _ _, id⟩
      | succ k => exact ⟨r, by simpa using h, List.prefix_rfl, id⟩

theorem actedKept_txByte (s : State) : ActedKept s.sent s.txByte.sent := by
  unfold State.txByte
  split
  · exact actedKept_putByte _ _ _
  · exact .refl _

theorem actedKept_txBytes : ∀ (n : Nat) (s : State), ActedKept s.sent (s.txBytes n).sent
  | 0, _ => .refl _
  | n + 1, s => (actedKept_txByte s).trans (actedKept_txBytes n _)

/-- The `k`-th request, and no other, is marked. -/
theorem markActed_eq_set : ∀ (k : Nat) (l : List Request) (r : Request), l[k]? = some r →
    markActed k l = l.set k { r with acted := true }
  | _, [], _, h => by simp at h
  | 0, q :: l, r, h => by
    obtain rfl : q = r := by simpa using h
    rfl
  | k + 1, q :: l, r, h => by simp [markActed, markActed_eq_set k l r (by simpa using h)]

theorem actedKept_set (l : List Request) (k : Nat) (r : Request) (h : l[k]? = some r) :
    ActedKept l (l.set k { r with acted := true }) := by
  refine ⟨[], _, rfl, List.length_set, fun j q hq => ?_⟩
  have hj := (List.getElem?_eq_some_iff.mp hq).1
  by_cases e : k = j
  · subst e
    obtain rfl : r = q := by simpa using h.symm.trans hq
    exact ⟨_, List.getElem?_set_self hj, List.prefix_rfl, fun _ => rfl⟩
  · exact ⟨q, by rwa [List.getElem?_set_ne e], List.prefix_rfl, id⟩

theorem actedKept_deviceAct (k : Nat) (s : State) : ActedKept s.sent (s.deviceAct k).sent := by
  unfold State.deviceAct
  split
  · rename_i r hr
    split
    · exact (markActed_eq_set k s.sent r hr).symm ▸ actedKept_set s.sent k r hr
    · exact .refl _
  · exact .refl _

/-- Acting on a complete request marks it, and changes nothing else but the device and what is in flight (R76, R78). -/
theorem deviceAct_waiting {s : State} {k : Nat} {r : Request} (h : s.sent[k]? = some r) (hb : r.bytes.length = 8)
    (a : r.acted = false) :
    s.deviceAct k = { s with
      device := (s.device.onRequest s.cfg r.bytes).1
      sent := s.sent.set k { r with acted := true }
      inFlight := s.inFlight ++ (s.device.onRequest s.cfg r.bytes).2 } := by
  simp [State.deviceAct, h, hb, a, markActed_eq_set k s.sent r h]

/-- Acting on a request that has been acted on does nothing (R78). -/
theorem deviceAct_acted {s : State} {k : Nat} {r : Request} (h : s.sent[k]? = some r) (a : r.acted = true) :
    s.deviceAct k = s := by
  simp [State.deviceAct, h, a]

/-- The device's part of the state, replaced. -/
def State.withLine (d : Device) (sent : List Request) (inFlight : List Byte) (s : State) : State :=
  { s with device := d, sent := sent, inFlight := inFlight }

/-- The receiver's, the timer's and the link's moves. -/
def Input.isReceive : Input → Bool
  | .rx _ | .rxFrame _ | .tick | .rxTick _ | .linkfault _ | .rxLine => true
  | .hostWrite _ _ | .hostRead _ | .txReady | .txFrame | .reset | .deviceAct _ | .lineLoses | .deviceChange _ _
  | .deviceReaddress _ => false

/-- Everything that a move `e` which does not stop the machine can do to a state (the moves still to come apart). -/
inductive MoveEffect (e : Input) (s : State) : State → Prop
  | word (w : BitVec 40) (t : State) (he : e = .hostWrite 0 w) (hp : s.phase = .idle) (ht : WordEffect w s t) : MoveEffect e s t
  | waits (w : BitVec 40) (he : e = .hostWrite 0 w) (hp : s.phase ≠ .idle) : MoveEffect e s s
  | read (n : Nat) (v : BitVec 32) (he : e = .hostRead n) (hv : s.hostRead n = .next v) :
      MoveEffect e s { s with hostData := v }
  | sent (t : State) (he : e = .txReady ∨ e = .txFrame) (ht : ExchangeFrame s t) (hp : s.phase ≠ .tx → t = s) : MoveEffect e s t
  | received (t : State) (he : e.isReceive = true) (ht : ReceiveFrame s t) : MoveEffect e s t
  | reset (he : e = .reset) : MoveEffect e s s.resetBlock
  | line (d : Device) (sent : List Request) (inFlight : List Byte)
      (he : (∃ k, e = .deviceAct k) ∨ (∃ a v, e = .deviceChange a v) ∨ (∃ sa, e = .deviceReaddress sa) ∨
        (e = .lineLoses ∧ d = s.device))
      (hs : sent.map (·.bytes) = s.sent.map (·.bytes)) : MoveEffect e s (s.withLine d sent inFlight)

/-- A move that does not stop the machine has one of these effects. -/
theorem moveEffect_of_runInput {e : Input} {s t : State} (h : runInput e s = .next t) : MoveEffect e s t := by
  cases e with
  | hostWrite n w =>
    simp only [runInput] at h
    split at h
    · rename_i hn
      subst hn
      by_cases hp : s.phase = .idle
      · obtain ⟨u, e1, e2⟩ := runWord_idle hp w
        rw [e1, Host.Outcome.next.injEq] at h
        subst h
        exact .word w u rfl hp e2
      · rw [runWord_busy hp, Host.Outcome.next.injEq] at h
        subst h
        exact .waits w rfl hp
    · cases h
  | hostRead n =>
    simp only [runInput, runHostRead] at h
    split at h
    · rename_i v hv
      rw [Host.Outcome.next.injEq] at h
      subst h
      exact .read n v rfl hv
    · cases h
    · cases h
  | txReady =>
    simp only [runInput, Host.Outcome.next.injEq] at h
    subst h
    exact .sent _ (.inl rfl) (exchangeFrame_txByte s) txByte_not_tx
  | txFrame =>
    simp only [runInput, runRequest_eq, Host.Outcome.next.injEq] at h
    subst h
    exact .sent _ (.inr rfl) (exchangeFrame_txFrame s) txFrame_not_tx
  | rx b =>
    simp only [runInput, Host.Outcome.next.injEq] at h
    subst h
    exact .received _ rfl (receiveFrame_rxByte b s)
  | rxFrame b =>
    simp only [runInput, runResponse_eq, Host.Outcome.next.injEq] at h
    subst h
    exact .received _ rfl (receiveFrame_rxBytes b s)
  | tick =>
    simp only [runInput, Host.Outcome.next.injEq] at h
    subst h
    exact .received _ rfl (receiveFrame_tick s)
  | rxTick b =>
    simp only [runInput, Host.Outcome.next.injEq] at h
    subst h
    exact .received _ rfl (receiveFrame_rxTick b s)
  | linkfault c =>
    simp only [runInput, Host.Outcome.next.injEq] at h
    subst h
    exact .received _ rfl (receiveFrame_linkFault c s)
  | reset =>
    simp only [runInput, Host.Outcome.next.injEq] at h
    subst h
    exact .reset rfl
  | deviceAct k =>
    simp only [runInput, Host.Outcome.next.injEq] at h
    subst h
    unfold State.deviceAct
    split
    · split
      · exact .line _ _ _ (.inl ⟨k, rfl⟩) (markActed_bytes k s.sent)
      · exact .line s.device s.sent s.inFlight (.inl ⟨k, rfl⟩) rfl
    · exact .line s.device s.sent s.inFlight (.inl ⟨k, rfl⟩) rfl
  | rxLine =>
    simp only [runInput, Host.Outcome.next.injEq] at h
    subst h
    exact .received _ rfl (receiveFrame_rxLine s)
  | lineLoses =>
    simp only [runInput, Host.Outcome.next.injEq] at h
    subst h
    exact .line s.device s.sent _ (.inr (.inr (.inr ⟨rfl, rfl⟩))) rfl
  | deviceChange a v =>
    simp only [runInput, Host.Outcome.next.injEq] at h
    subst h
    exact .line _ s.sent s.inFlight (.inr (.inl ⟨a, v, rfl⟩)) rfl
  | deviceReaddress sa =>
    simp only [runInput, Host.Outcome.next.injEq] at h
    subst h
    exact .line _ s.sent s.inFlight (.inr (.inr (.inl ⟨sa, rfl⟩))) rfl

/-- Everything a step that does not stop the machine can do: wait where nothing is scheduled, or the effect of the next
move. -/
theorem step_cases {s t : State} (h : step s = .next t) :
    (s.inputs = [] ∧ t = s) ∨ ∃ e rest, s.inputs = e :: rest ∧ MoveEffect e (s.withInputs rest) t := by
  cases hi : s.inputs with
  | nil =>
    rw [step_nil hi, Host.Outcome.next.injEq] at h
    exact .inl ⟨rfl, h.symm⟩
  | cons e rest =>
    rw [step_cons hi] at h
    exact .inr ⟨e, rest, rfl, moveEffect_of_runInput h⟩

end Sys2Proof.Machine
end

