-- ==== Sys2Proof/Tests/Slice0.lean ====
section
/-! SUPPORT. Small tests of one step or one function each, with expected results from spec/ (the vector or rule is named),
and for every obligation with hypotheses a state and operands that meet them all. -/

namespace Sys2Proof.Tests

-- One after another: each test waits for the kernel, and many waiting at once would each hold a thread.
set_option Elab.async false

open Sys2Proof.Machine

/-! ### Small states -/

/-- Right after reset, with the one open parameter set to `enforce`. -/
def fresh (enforce : Bool) : State := State.powerOn (Config.standard enforce) Device.scenario

/-- After `SETSA 1`. -/
def ready (enforce : Bool) : State := { fresh enforce with slaveAddr := 1, saValid := true }

/-- An exchange just started, nothing sent. -/
def sending (op : Op) (reg arg : Word) : State := (ready false).start op reg arg

/-- The whole request sent, nothing received. -/
def waiting (op : Op) (reg arg : Word) : State :=
  (sending op reg arg).sentTo [⟨encRequest (Config.standard false) op 1 reg arg, false⟩] 8 .rx

/-- What one move leaves, seen through `f`; nothing where the machine stops. -/
def seen {α : Type} (e : Input) (s : State) (f : State → α) : Option α :=
  match step (s.withInputs [e]) with
  | .next t => some (f t)
  | .fault _ => none
  | .refused _ => none

/-! ### Well-formed instructions (R95, R96) -/

theorem test_wf_refuses_read_response_without_values : (Instr.frameRdrsp 1 0 [] 0).wf (Config.standard true) = false := by
  decide

theorem test_wf_refuses_126_values :
    (Instr.frameRdrsp 1 252 (List.replicate 126 0) 0).wf (Config.standard true) = false := by
  simp [Instr.wf, Config.standard]

theorem test_wf_takes_125_values : (Instr.frameRdrsp 1 250 (List.replicate 125 0) 0).wf (Config.standard true) = true := by
  simp [Instr.wf, Config.standard]

/-- R7: 255 by default, 5 + 2 × `MAX_READ_COUNT` in general. -/
theorem test_rx_max :
    (Config.standard true).rxMax = 255 ∧ Config.wf { Config.standard true with maxReadCount := 1, rxMax := 7 } = true ∧
      Config.wf { Config.standard true with maxReadCount := 1, rxMax := 8 } = false := by decide
theorem test_cfg_refuses_equal_codes : Config.wf { Config.standard true with fnWrite := 3 } = false := by decide

/-! ### Decoding: words written out from R93 to R102 -/

/-- op 01, a = FFFE, b = 007D. -/
theorem test_decode_rdhr : decode (Config.standard true) (.word 0x01FFFE007D#40) = .ok (.rdhr 0xFFFE 125) := by decide
/-- op 02, a = 0003, b = FFFF. -/
theorem test_decode_wrsr : decode (Config.standard true) (.word 0x020003FFFF#40) = .ok (.wrsr 3 0xFFFF) := by decide
/-- op 03, zero bits, idx = 7, b = 0004. -/
theorem test_decode_rdreg : decode (Config.standard true) (.word 0x0300070004#40) = .ok (.rdreg 7 4) := by decide
/-- op 04, zero bits, idx = F, b = 00AA. -/
theorem test_decode_wrreg : decode (Config.standard true) (.word 0x04000F00AA#40) = .ok (.wrreg 15 0xAA) := by decide
/-- op 05, arg32 = FFFFFFFE. -/
theorem test_decode_setto : decode (Config.standard true) (.word 0x05FFFFFFFE#40) = .ok (.setto 0xFFFFFFFE) := by decide
/-- op 06, 32 zero bits. -/
theorem test_decode_getto : decode (Config.standard true) (.word 0x0600000000#40) = .ok .getto := by decide
/-- op 07, 24 zero bits, sa = FE. -/
theorem test_decode_setsa : decode (Config.standard true) (.word 0x07000000FE#40) = .ok (.setsa 0xFE) := by decide
/-- op 08, 32 zero bits. -/
theorem test_decode_getsa : decode (Config.standard true) (.word 0x0800000000#40) = .ok .getsa := by decide
/-- op 09, zero bits, idx = C, 16 zero bits. -/
theorem test_decode_lookup : decode (Config.standard true) (.word 0x09000C0000#40) = .ok (.lookup 12) := by decide
/-- op 0A, 24 zero bits, i = FF. -/
theorem test_decode_fanreg : decode (Config.standard true) (.word 0x0A000000FF#40) = .ok (.fanreg 0xFF) := by decide
/-- V32: bus address, 03, register high and low, count high and low, checksum low and high. -/
theorem test_decode_rdreq : decode (Config.standard true) (.request [0x01, 0x03, 0x00, 0x07, 0x00, 0x04, 0xF5, 0xC8]) =
    .ok (.frameRdreq 1 7 4 0xC8F5) := by decide
/-- V44. -/
theorem test_decode_wrreq : decode (Config.standard true) (.request [0x01, 0x06, 0x00, 0x04, 0x46, 0x5A, 0x7A, 0x50]) =
    .ok (.frameWrreq 1 4 0x465A 0x507A) := by decide
/-- V52: bus address, 03, byte-count, two values, checksum. -/
theorem test_decode_rdrsp :
    decode (Config.standard true) (.response [0x01, 0x03, 0x04, 0x00, 0x46, 0x00, 0x5A, 0x9B, 0xDD]) =
      .ok (.frameRdrsp 1 4 [70, 90] 0xDD9B) := by decide
/-- V57. -/
theorem test_decode_wrrsp : decode (Config.standard true) (.response [0x01, 0x06, 0x00, 0x03, 0x00, 0x64, 0x78, 0x21]) =
    .ok (.frameWrrsp 1 3 100 0x2178) := by decide
/-- V60. -/
theorem test_decode_excrsp_rd : decode (Config.standard true) (.response [0x01, 0x83, 0x02, 0xC0, 0xF1]) =
    .ok (.frameExcrspRd 1 2 0xF1C0) := by decide
/-- V62. -/
theorem test_decode_excrsp_wr : decode (Config.standard true) (.response [0x01, 0x86, 0x03, 0x02, 0x61]) =
    .ok (.frameExcrspWr 1 3 0x6102) := by decide
/-- B4, B9: an unknown opcode, a reserved bit. -/
theorem test_decode_refusals :
    decode (Config.standard true) (.word 0x0B00000000#40) = .error .illegalOpcode ∧
      decode (Config.standard true) (.word 0x0900100000#40) = .error .reservedBits := by decide
/-- R105: the block knows no other request. -/
theorem test_decode_unknown_function :
    decode (Config.standard true) (.request [0x01, 0x04, 0x00, 0x07, 0x00, 0x04, 0xF5, 0xC8]) =
      .error .unknownFunction := by decide

/-! ### Commands -/

/-- B1. -/
theorem test_rdhr_not_configured :
    seen (.hostWrite 0 0x0100000001) (fresh false) (fun t => (t.err, t.sub, t.status)) = some (6, 3, 0x06) := by decide +kernel
/-- B18. -/
theorem test_rdhr_starts : seen (.hostWrite 0 0x010000007D) (ready false) (fun t => (t.status, t.txbuf)) =
    some (0x09, [0x01, 0x03, 0x00, 0x00, 0x00, 0x7D, 0x85, 0xEB]) := by decide +kernel
/-- V43. -/
theorem test_wrsr_starts : seen (.hostWrite 0 0x020003FFFF) (ready false) (fun t => (t.curOp, t.txbuf)) =
    some (.write, [0x01, 0x06, 0x00, 0x03, 0xFF, 0xFF, 0x78, 0x7A]) := by decide +kernel
/-- Section 2.8: `RDREG FAN1_SPEED, 4`. -/
theorem test_rdreg_resolves : seen (.hostWrite 0 0x0300070004) (ready false) (fun t => (t.curReg, t.txbuf)) =
    some (7, [0x01, 0x03, 0x00, 0x07, 0x00, 0x04, 0xF5, 0xC8]) := by decide +kernel
/-- B20: `BadCount` before `AccessDenied`. -/
theorem test_rdreg_first_failing_check : seen (.hostWrite 0 0x03000F0000) (ready true) (fun t => (t.err, t.sub)) =
    some (6, 4) := by decide +kernel
/-- B22: index 15 is address 0x0020. -/
theorem test_wrreg_resolves : seen (.hostWrite 0 0x04000F00AA) (ready true) (fun t => t.txbuf) =
    some [0x01, 0x06, 0x00, 0x20, 0x00, 0xAA, 0x08, 0x7F] := by decide +kernel
/-- B21. -/
theorem test_wrreg_access_denied : seen (.hostWrite 0 0x0400000005) (ready true) (fun t => (t.err, t.sub, t.phase)) =
    some (6, 5, .idle) := by decide +kernel
/-- E2. -/
theorem test_setto_largest : seen (.hostWrite 0 0x05FFFFFFFF) (ready false) (fun t => t.timeout) =
    some 0xFFFFFFFF := by decide +kernel
/-- R7: a `TIMEOUT` of 16 bits (log 3). -/
theorem test_setto_narrow :
    seen (.hostWrite 0 0x0500012345) { ready false with cfg := { Config.standard false with timeoutWidth := 16 } } (fun t => t.timeout) =
      some 0x2345 := by decide +kernel
/-- E1, on the reset state itself. -/
theorem test_getto_after_reset : seen (.hostWrite 0 0x0600000000) State.reset (fun t => (t.rval, t.status)) =
    some (10000, 0x02) := by decide +kernel
/-- E4. -/
theorem test_setsa_status : seen (.hostWrite 0 0x0700000001) (fresh false) (fun t => (t.slaveAddr, t.status)) =
    some (1, 0x0A) := by decide +kernel
/-- E5. -/
theorem test_setsa_no_range_check : seen (.hostWrite 0 0x07000000FF) (fresh false) (fun t => t.slaveAddr) =
    some 0xFF := by decide +kernel
/-- P5 step 3. -/
theorem test_getsa_not_configured : seen (.hostWrite 0 0x0800000000) (fresh false) (fun t => (t.sub, t.rvalValid)) =
    some (3, false) := by decide +kernel
/-- E6. -/
theorem test_getsa : seen (.hostWrite 0 0x0800000000) { ready false with slaveAddr := 42 } (fun t => (t.rval, t.rvalValid)) =
    some (42, true) := by decide +kernel
/-- Section 2.8, index 15. -/
theorem test_lookup_reset_cmd : seen (.hostWrite 0 0x09000F0000) (fresh false) (fun t => (t.rval, t.rinfo)) =
    some (0x20, 6) := by decide +kernel
/-- Section 2.8, index 14. -/
theorem test_lookup_fan_fault : seen (.hostWrite 0 0x09000E0000) (fresh false) (fun t => (t.rval, t.rinfo)) =
    some (0x0E, 4) := by decide +kernel
/-- R4. -/
theorem test_fanreg_last : seen (.hostWrite 0 0x0A00000004) (fresh false) (fun t => (t.rval, t.rinfo)) =
    some (0x0A, 4) := by decide +kernel
/-- R8. -/
theorem test_fanreg_absent : seen (.hostWrite 0 0x0A00000005) (fresh false) (fun t => (t.rvalValid, t.rinfo, t.err)) =
    some (false, 0, 0) := by decide +kernel

/-! ### Frames -/

/-- V30, R182: the request goes out and the response is awaited. -/
theorem test_rdreq_goes_out : seen .txFrame (sending .read 0 1) (fun t => (t.phase, t.txidx, t.sent.map (·.bytes))) =
    some (.rx, 8, [[0x01, 0x03, 0x00, 0x00, 0x00, 0x01, 0x84, 0x0A]]) := by decide +kernel
/-- V42: the last six bytes, after two have gone. -/
theorem test_wrreq_rest_goes_out :
    seen .txFrame ((sending .write 3 100).sentTo [⟨[0x01, 0x06], false⟩] 2 .tx) (fun t => (t.phase, t.sent.map (·.bytes))) =
      some (.rx, [[0x01, 0x06, 0x00, 0x03, 0x00, 0x64, 0x78, 0x21]]) := by decide +kernel
/-- V52. -/
theorem test_rdrsp_values :
    seen (.rxFrame [0x01, 0x03, 0x04, 0x00, 0x46, 0x00, 0x5A, 0x9B, 0xDD]) (waiting .read 0xC 2)
      (fun t => (t.status, t.err, t.rdata)) = some (0x0A, 0, [70, 90]) := by decide +kernel
/-- V27. -/
theorem test_rdrsp_byte_count : seen (.rxFrame [0x01, 0x03, 0x04, 0x00, 0x47, 0x18, 0x77]) (waiting .read 0 1)
    (fun t => (t.err, t.sub)) = some (3, 5) := by decide +kernel
/-- T15. -/
theorem test_wrrsp_echo : seen (.rxFrame [0x01, 0x06, 0x00, 0x03, 0x00, 0x64, 0x78, 0x21]) (waiting .write 3 100)
    (fun t => (t.status, t.err, t.rcount)) = some (0x0A, 0, 0) := by decide +kernel
/-- V59. -/
theorem test_wrrsp_other_register : seen (.rxFrame [0x01, 0x06, 0x00, 0x04, 0x00, 0x64, 0xC9, 0xE0]) (waiting .write 3 100)
    (fun t => (t.err, t.sub)) = some (5, 0) := by decide +kernel
/-- T12. -/
theorem test_excrsp_rd : seen (.rxFrame [0x01, 0x83, 0x02, 0xC0, 0xF1]) (waiting .read 7 4)
    (fun t => (t.err, t.exc, t.rxlen, t.rcount)) = some (4, 2, 5, 0) := by decide +kernel
/-- V26. -/
theorem test_excrsp_rd_to_write : seen (.rxFrame [0x01, 0x83, 0x02, 0xC0, 0xF1]) (waiting .write 3 101)
    (fun t => (t.err, t.sub, t.exc)) = some (3, 4, 0) := by decide +kernel
/-- V62. -/
theorem test_excrsp_wr : seen (.rxFrame [0x01, 0x86, 0x03, 0x02, 0x61]) (waiting .write 3 101)
    (fun t => (t.err, t.exc)) = some (4, 3) := by decide +kernel
/-- V25. -/
theorem test_excrsp_wr_to_read : seen (.rxFrame [0x01, 0x86, 0x02, 0xC3, 0xA1]) (waiting .read 0 1)
    (fun t => (t.err, t.sub)) = some (3, 4) := by decide +kernel
/-- T11: cut at 7 bytes. -/
theorem test_response_cut : seen (.rxFrame [0x01, 0x03, 0x04, 0x00, 0x46, 0x00, 0x5A, 0x9B, 0xDD]) (waiting .read 0xC 1)
    (fun t => (t.err, t.sub, t.rxlen)) = some (3, 2, 7) := by decide +kernel
/-- V61: an exception code with bit 7 set is passed through. -/
theorem test_dec_exception_code : dec (Config.standard true) .read 1 0 1 [0x01, 0x83, 0xFF, 0x01, 0x70] =
    .deviceException 0xFF := by decide +kernel
/-- V28: the checksum is judged before the address. -/
theorem test_dec_order : dec (Config.standard true) .read 1 0 1 [0x02, 0x03, 0x02, 0x00, 0x47, 0xF8, 0x76] =
    .frame .crc := by decide +kernel
/-- V1. -/
theorem test_crc_check_value : crc16 (Config.standard true) [0x31, 0x32, 0x33, 0x34, 0x35, 0x36, 0x37, 0x38, 0x39] = 0x4B37 := by decide +kernel
/-- The check value of the most-significant-first procedure with polynomial 0x8005, initial register 0xFFFF and no final exclusive-or:
general knowledge (PRESUMED), the spec gives no vector (log 3); and D4: 0xA001 is the reflected form of 0x8005. -/
theorem test_crc_most_significant_first :
    crc16 { Config.standard true with crcLsbFirst := false } [0x31, 0x32, 0x33, 0x34, 0x35, 0x36, 0x37, 0x38, 0x39] = 0xAEE7 ∧
      Config.crcPoly.reverse = crcPolyMirror := by decide +kernel
/-- V2. -/
theorem test_crc_empty : crc16 (Config.standard true) [] = 0xFFFF := by decide +kernel

/-! ### Other moves -/

/-- T2: timeout 0 ends at the first tick. -/
theorem test_tick_timeout_zero : seen .tick { sending .read 0 1 with curTo := 0 } (fun t => (t.err, t.status, t.elapsed)) =
    some (2, 0x0E, 1) := by decide +kernel
/-- T3, first tick. -/
theorem test_tick_counts : seen .tick { sending .read 0 1 with curTo := 2 } (fun t => (t.phase, t.elapsed)) =
    some (.tx, 1) := by decide +kernel
/-- T5. -/
theorem test_linkfault : seen (.linkfault 0x5A) (waiting .read 0 1) (fun t => (t.err, t.linkCause, t.status, t.rcount)) =
    some (1, 0x5A, 0x0E, 0) := by decide +kernel
/-- T7. -/
theorem test_linkfault_idle : seen (.linkfault 0x77) (ready false) (fun t => (t.err, t.linkCause)) =
    some (0, 0) := by decide +kernel
/-- R190 (b): the completing byte and the expiring tick together, both ways round. -/
theorem test_tie :
    seen (.rxTick 0x76) { waiting .read 0 1 with rxbuf := [0x01, 0x03, 0x02, 0x00, 0x47, 0xF8], curTo := 1 } (fun t => t.err) =
        some 0 ∧
      seen (.rxTick 0x76)
          { waiting .read 0 1 with
            rxbuf := [0x01, 0x03, 0x02, 0x00, 0x47, 0xF8], curTo := 1,
            cfg := { Config.standard false with completionFirst := false } }
          (fun t => t.err) = some 2 := by decide +kernel
/-- R41, D23: `RVAL` holds no value at reset. -/
theorem test_read_of_no_value : step (State.reset.withInputs [.hostRead 7]) = .fault (.noValue 7) := rfl
/-- R38: `STATUS` at reset. -/
theorem test_read_status : seen (.hostRead 1) State.reset (fun t => t.hostData) = some 0 := by decide +kernel
/-- R76: a hole of the map is answered with exception code 0x02 (V61's frame with code 2, as in P3). -/
theorem test_device_refuses_write_only :
    (Device.scenario.onRequest (Config.standard true) [0x01, 0x03, 0x00, 0x20, 0x00, 0x01, 0x85, 0xC0]).2 =
      [0x01, 0x83, 0x02, 0xC0, 0xF1] := by decide +kernel
/-- P2 step 2: the echo comes from the old bus address, then the address changes. -/
theorem test_device_changes_address :
    (fun r : Device × List Byte => (r.2, r.1.addr, r.1.regs.read 2))
        (Device.scenario.onRequest (Config.standard true) [0x01, 0x06, 0x00, 0x02, 0x00, 0x2A, 0xA9, 0xD5]) =
      ([0x01, 0x06, 0x00, 0x02, 0x00, 0x2A, 0xA9, 0xD5], 42, 42) := by decide +kernel
/-- R76's device acts at once on a complete request and never changes by itself: a run that waits, and one in which it changes, are
not its own. -/
theorem test_reference_run :
    referenceRun 2 ((waiting .write 3 100).withInputs [.deviceAct 0, .tick]) = true ∧
      referenceRun 1 ((waiting .write 3 100).withInputs [.tick]) = false ∧
      referenceRun 1 ((ready false).withInputs [.deviceChange 0 0]) = false := by decide +kernel
/-- R343, log 13: the device answers to another address from now on, its register 2 unchanged. -/
theorem test_device_readdress :
    seen (.deviceReaddress 9) (ready false) (fun t => (t.device.addr, t.device.regs.read 2)) = some (9, 1) := by decide +kernel
/-- Log 12: a response frame placed where it is received next. -/
theorem test_withFetchWord_response :
    (match step (State.reset.withFetchWord 40 0x018302C0F1) with
      | .next t => (t.err, t.exc)
      | .fault _ => (0, 0)
      | .refused _ => (0, 0)) = (4, 2) := by decide +kernel

/-! ### Host software -/

/-- S3, H6: truncation toward zero. -/
theorem test_fahrenheit : celsiusToFahrenheit 31 = 87 ∧ celsiusToFahrenheit (-3) = 27 := by decide +kernel
/-- S4, H9. -/
theorem test_combined : encodeCombinedTemperature 30 50 = 0x465A ∧ encodeCombinedTemperature (-41) 216 = 0xFF00 := by decide +kernel
/-- S5. -/
theorem test_fault_bitmap : parseFanFaultBitmap 0x00FB = [.normal, .normal, .fault, .normal] := by decide +kernel
/-- S14, S15. -/
theorem test_validation :
    setFanSpeed (Config.standard true) 101 = .error .speedPercent ∧
      setThresholds (Config.standard true) true 40 40 = .error .threshold := by decide +kernel
/-- R262: a manual percent is checked before the write; R257: Temperature is written as 0xFFFF. -/
theorem test_set_mode :
    setMode (Config.standard true) (.manual 101) = .error .speedPercent ∧
      setMode (Config.standard true) .temperature = .ok [.wrreg 3 0xFFFF] := by decide +kernel
/-- R266: the new low threshold is checked against the stored high one (register value 90, 50 degrees), and 50 is not below it. -/
theorem test_set_low :
    setLowWrite (Config.standard true) false 50 90 = .error .threshold ∧
      setLowWrite (Config.standard true) false 30 90 = .ok [.wrreg 12 70] ∧
      setLowWrite (Config.standard true) true 30 0x415A = .ok [.wrreg 4 0x465A] := by decide +kernel
/-- R259: a threshold outside −20..=120 fails before the read of the other one. -/
theorem test_set_one_threshold_fails_fast :
    setLowRead (Config.standard true) false 121 = .error .threshold ∧
      setHighRead (Config.standard true) true (-21) = .error .threshold ∧
      setHighRead (Config.standard true) false 120 = .ok [.rdreg 12 1] := by decide +kernel
/-- R262: no address is derived from an index outside 1..=4; fan 3 is register 0x0009 (R223). -/
theorem test_read_fan_speed :
    readFanSpeed 0 = .error .fanIndex ∧ readFanSpeed 5 = .error .fanIndex ∧
      readFanSpeed 3 = .ok [.fanreg 3, .rdhr 9 1] ∧ fanSpeedOf [.ok [], .ok [1400]] = .done 1400 := by decide +kernel
/-- R270: the mode is read from register 3. -/
theorem test_read_mode :
    readMode (Config.standard true) = [.rdreg 3 1] ∧ modeOf [.ok [0xFFFF]] = .done .temperature ∧
      modeOf [.ok [50]] = .done (.manual 50) := by decide +kernel
/-- P4. -/
theorem test_status_assembled :
    (assembleStatus [[1], [1], [5], [4], [0x47], [0x46, 0x5A], [0xF], [0x578, 0x578, 0x578, 0x578]]).map
        (fun r => (r.pwmHz, r.fanCount, r.current, r.low, r.high)) =
      some (some 25000, 4, ⟨31, .celsius⟩, ⟨30, .celsius⟩, ⟨50, .celsius⟩) ∧
    fanStatusOf [.ok [0xF], .ok [0x578, 0x578, 0x578, 0x578]] =
      .done [⟨1, .normal, 1400⟩, ⟨2, .normal, 1400⟩, ⟨3, .normal, 1400⟩, ⟨4, .normal, 1400⟩] := by decide +kernel
/-- D35: the first error ends the operation and is returned, here a time-out of the second read. -/
theorem test_status_first_error :
    statusOf [.ok [1], (((waiting .read 2 1).raise .timeout).clientResult)] = .failed ⟨2, 0, 0, 0, some (2, 1)⟩ := by
  decide +kernel
/-- R224's properties that hold of R221's table: distinct addresses, and the counts of the table itself (log 24). -/
theorem test_map_counts :
    (RegName.all.map (fun n => (registerEntry n).addr)).Nodup ∧
      RegName.all.countP (fun n => (registerEntry n).access == .r) = 7 ∧
      RegName.all.countP (fun n => (registerEntry n).access == .rw) = 8 ∧
      RegName.all.countP (fun n => (registerEntry n).access == .w) = 1 := by decide
/-- R7, D21: another numbering. -/
theorem test_lookup_renumbered :
    seen (.hostWrite 0 0x0900000000) { fresh false with cfg := { Config.standard false with romOrder := RegName.all.reverse } }
      (fun t => (t.rval, t.rinfo)) = some (0x20, 6) := by decide +kernel

/-! ### The hypotheses of the obligations can be met: one theorem for each obligation that has any, with the values where its
clauses meet -/

/-- The reset state's parameters with one of them changed: a guard interval of two ticks. -/
def guarded : State := { sending .read 0 1 with cfg := { Config.standard false with txGuardTicks := 2 } }

/-- The reference device answers to the configured bus address; these moves are scheduled. -/
def scripted (moves : List Input) : State := (ready false).withInputs moves

theorem witness_DecodeOfEncode :
    (Config.standard false).wf = true ∧ (Instr.frameRdrsp 1 2 [71] 0x76F8).wf (Config.standard false) = true ∧
      (Instr.frameRdrsp 1 250 (List.replicate 125 0) 0).wf (Config.standard false) = true := by
  refine ⟨by decide, by decide, by simp [Instr.wf, Config.standard]⟩

theorem witness_EncodeOfDecode :
    decode (Config.standard false) (.word 0x0A000000FF) = .ok (.fanreg 255) ∧
      decode (Config.standard false) (.response [1, 3, 2, 0, 0x47, 0xF8, 0x76]) = .ok (.frameRdrsp 1 2 [0x47] 0x76F8) := by
  decide

/-- Opcodes 0, 0x0B and 0xFF are illegal; 1 and 0x0A are the ends of the table; a reserved bit next to the operand. -/
theorem witness_IllegalAndReservedWordsRefused :
    (scripted [.hostWrite 0 0x0B00000000]).phase = .idle ∧ ((0x0B00000000#40) >>> 32).toNat = 0x0B ∧
      ((0x0000000000#40) >>> 32).toNat = 0 ∧ ((0xFFFFFFFFFF#40) >>> 32).toNat = 0xFF ∧
      ((0x0A00000100#40) >>> 32).toNat = 0x0A ∧ 0x0A00000100#40 &&& Claims.reservedMask 0x0A ≠ 0 ∧
      ((0x0300100001#40) >>> 32).toNat = 3 ∧ 0x0300100001#40 &&& Claims.reservedMask 3 ≠ 0 := by decide +kernel

theorem witness_StepRunsDecodedInstruction :
    decode (scripted []).cfg (.word 0x0600000000) = .ok .getto ∧
      decode (sending .read 0 1).cfg (.request (sending .read 0 1).txbuf) = .ok (.frameRdreq 1 0 1 0x0A84) ∧
      decode (waiting .read 7 4).cfg (.response [0x01, 0x83, 0x02, 0xC0, 0xF1]) = .ok (.frameExcrspRd 1 2 0xF1C0) := by
  decide +kernel

theorem witness_BusyPortLeavesStateAlone :
    ((sending .read 0 1).withInputs [.hostWrite 0 0x0600000000]).phase ≠ .idle ∧
      ((waiting .write 3 0).withInputs [.hostWrite 0 0x0B00000000]).phase ≠ .idle := by decide +kernel

/-- One word for each clause, in order, at the ends of the ranges: 0x0B; a reserved bit; no address; count 0 and 126; a write-only
entry read; and words that pass every check, count 125 among them. -/
theorem witness_AcceptanceChecksInOrder :
    (scripted []).phase = .idle ∧ (fresh true).phase = .idle ∧ (fresh true).saValid = false ∧
      ((0x0B00000000#40) >>> 32).toNat = 0x0B ∧
      (0x0900100000#40 &&& Claims.reservedMask 9 ≠ 0 ∧ 0x03000F007D#40 &&& Claims.reservedMask 3 = 0) ∧
      ((0x0100000000#40 &&& 0xFFFF).toNat = 0 ∧ (0x010000007E#40 &&& 0xFFFF).toNat = 126) ∧
      ((ready true).cfg.romEnforceAccess = true ∧ Claims.access (Claims.nameAt (ready true).cfg 15) = 2 ∧
        Claims.access (Claims.nameAt (ready true).cfg 14) = 0) ∧
      ((0x03000F007D#40 &&& 0xFFFF).toNat = 125 ∧ ((0x03000F007D#40 >>> 16).setWidth 4 : BitVec 4) = 15) := by
  decide +kernel

/-- Not configured; counts 0, 1, 125 and 126. -/
theorem witness_RdhrOutcome :
    (fresh false).phase = .idle ∧ (fresh false).saValid = false ∧ (ready false).phase = .idle ∧ (ready false).saValid = true ∧
      (ready false).cfg.maxReadCount = 125 := by decide +kernel

theorem witness_WrsrOutcome :
    (fresh false).phase = .idle ∧ (fresh false).saValid = false ∧ (ready false).phase = .idle ∧ (ready false).saValid = true := by
  decide +kernel

theorem witness_RdregOutcome :
    (ready true).phase = .idle ∧ (ready true).saValid = true ∧ (ready true).cfg.romEnforceAccess = true ∧
      (ready false).cfg.romEnforceAccess = false ∧ (fresh true).saValid = false := by decide +kernel

theorem witness_WrregOutcome :
    (ready true).phase = .idle ∧ (ready true).saValid = true ∧ (ready true).cfg.romEnforceAccess = true ∧
      (ready false).cfg.romEnforceAccess = false ∧ (fresh true).saValid = false := by decide +kernel

theorem witness_SettoStoresTimeout :
    (ready false).phase = .idle ∧ (ready false).cfg.timeoutWidth = 32 ∧
      (Config.wf { Config.standard false with timeoutWidth := 16 }) = true := by decide +kernel
theorem witness_GettoReturnsTimeout : State.reset.phase = .idle ∧ State.reset.timeout = 10000 := ⟨rfl, rfl⟩
theorem witness_SetsaStoresAddress : State.reset.phase = .idle := rfl
theorem witness_GetsaReturnsAddress :
    (fresh false).phase = .idle ∧ (fresh false).saValid = false ∧ (ready false).phase = .idle ∧ (ready false).saValid = true := by
  decide +kernel
theorem witness_LookupReturnsRomEntry : State.reset.phase = .idle := rfl
theorem witness_FanregReturnsSpeedRegister : State.reset.phase = .idle := rfl

/-- First, middle and last byte; the guard interval just over and one tick short; outside `TX`. -/
theorem witness_TransmitStep :
    (let s := (sending .read 0 1).withInputs [.txReady]
     s.inputs = [.txReady] ∧ s.phase = .tx ∧ s.cfg.txGuardTicks.toNat ≤ s.elapsed.toNat ∧ s.txidx = 0) ∧
    (let s := ((sending .read 0 1).sentTo [⟨[0x01, 0x03, 0x00, 0x00, 0x00, 0x01, 0x84], false⟩] 7 .tx).withInputs [.txReady]
     s.phase = .tx ∧ s.txidx = 7 ∧ s.sent = [⟨[0x01, 0x03, 0x00, 0x00, 0x00, 0x01, 0x84], false⟩]) ∧
    (let s := { guarded with elapsed := 2 }
     s.phase = .tx ∧ s.cfg.txGuardTicks.toNat ≤ s.elapsed.toNat) ∧
    (let s := { guarded with elapsed := 1 }
     s.phase = .tx ∧ s.elapsed.toNat < s.cfg.txGuardTicks.toNat) ∧
    (waiting .read 0 1).phase ≠ .tx := by decide +kernel

/-- The first byte, and the one before the last of a read response of one register (six of seven). -/
theorem witness_ReceiveStoresByte :
    (let s := (waiting .read 0 1).withInputs [.rx 1]
     s.phase = .rx ∧ (s.rxbuf ++ [1]).length < 2) ∧
    (let s := { waiting .read 0 1 with rxbuf := [0x01, 0x03, 0x02, 0x00, 0x47] }
     s.phase = .rx ∧ (s.rxbuf ++ [0xF8]).length = 6 ∧ Claims.responseLength s.curOp s.curArg 0x03 = 7) := by decide +kernel

/-- The seventh byte of a read response of one register; the fifth of an exception response; the 255th of the longest one. -/
theorem witness_CompletingByteWritesResult :
    (let s := { waiting .read 0 1 with rxbuf := [0x01, 0x03, 0x02, 0x00, 0x47, 0xF8] }
     s.phase = .rx ∧ (s.rxbuf ++ [0x76]).length = Claims.responseLength s.curOp s.curArg 0x03) ∧
    (let s := { waiting .read 0 1 with rxbuf := [0x01, 0x83, 0x02, 0xC0] }
     s.phase = .rx ∧ (s.rxbuf ++ [0xF1]).length = Claims.responseLength s.curOp s.curArg 0x83) ∧
    Claims.responseLength .read 125 0x03 = 255 := by decide +kernel

theorem witness_BytesDroppedOutsideReception :
    ((ready false).withInputs [.rx 1]).phase ≠ .rx ∧ ((sending .read 0 1).withInputs [.rxFrame [1, 3]]).phase ≠ .rx := by
  decide +kernel

/-- Idle; one tick before expiry; the expiring tick, also with `CUR_TO` = 0 and the largest `CUR_TO`. -/
theorem witness_TickCountsAndExpires :
    ((ready false).withInputs [.tick]).phase = .idle ∧
    (let s := { sending .read 0 1 with curTo := 2, inputs := [.tick] }
     s.phase ≠ .idle ∧ (s.elapsed + 1).toNat < s.curTo.toNat) ∧
    (let s := { sending .read 0 1 with curTo := 1, inputs := [.tick] }
     s.phase ≠ .idle ∧ s.curTo.toNat ≤ (s.elapsed + 1).toNat) ∧
    (let s := { sending .read 0 1 with curTo := 0, inputs := [.tick] }
     s.phase ≠ .idle ∧ s.curTo.toNat ≤ (s.elapsed + 1).toNat) ∧
    (let s := { waiting .read 0 1 with curTo := 0xFFFFFFFF, elapsed := 0xFFFFFFFE, inputs := [.tick] }
     s.phase ≠ .idle ∧ s.curTo.toNat ≤ (s.elapsed + 1).toNat) := by decide +kernel

theorem witness_LinkFaultEndsExchange :
    ((ready false).withInputs [.linkfault 0]).phase = .idle ∧ ((sending .read 0 1).withInputs [.linkfault 0xFF]).phase ≠ .idle := by
  decide +kernel

theorem witness_FirstEndingEventWins :
    let s := scripted ([.rx 1, .rxFrame [1, 3], .tick, .rxTick 2, .linkfault 3, .txReady, .txFrame] ++ [.reset])
    s.phase = .idle ∧ s.inputs = [.rx 1, .rxFrame [1, 3], .tick, .rxTick 2, .linkfault 3, .txReady, .txFrame] ++ [.reset] :=
  ⟨rfl, rfl⟩

/-- The completing byte together with the expiring tick, with the tie rule on and off. -/
theorem witness_CompletionWinsTheTie :
    { Config.standard false with completionFirst := false }.completionFirst = false ∧
    let s := { waiting .read 0 1 with rxbuf := [0x01, 0x03, 0x02, 0x00, 0x47, 0xF8], curTo := 1, inputs := [.rxTick 0x76] }
    s.phase = .rx ∧ s.cfg.completionFirst = true ∧ (s.rxbuf ++ [0x76]).length = Claims.responseLength s.curOp s.curArg 0x03 ∧
      s.curTo.toNat ≤ (s.elapsed + 1).toNat := by decide +kernel

/-- From the first byte, from the last, outside `TX`, within the guard interval, another frame. -/
theorem witness_ReadRequestGoesOut :
    (let s := sending .read 7 4
     s.phase = .tx ∧ s.txidx = 0 ∧
        s.txbuf = [0x01, s.cfg.fnRead, hi8 7, lo8 7, hi8 4, lo8 4, lo8 0xC8F5, hi8 0xC8F5]) ∧
    (let s := (sending .read 7 4).sentTo [⟨[0x01, 0x03, 0x00, 0x07, 0x00, 0x04, 0xF5], false⟩] 7 .tx
     s.phase = .tx ∧ 0 < s.txidx.toNat ∧ s.txidx.toNat < 8 ∧ s.sent ≠ []) ∧
    (waiting .read 7 4).phase ≠ .tx ∧ guarded.elapsed.toNat < guarded.cfg.txGuardTicks.toNat ∧
    (sending .read 7 3).txbuf ≠ [0x01, 0x03, hi8 7, lo8 7, hi8 4, lo8 4, lo8 0xC8F5, hi8 0xC8F5] := by decide +kernel

theorem witness_WriteRequestGoesOut :
    (let s := sending .write 3 100
     s.phase = .tx ∧ s.txidx = 0 ∧
        s.txbuf = [0x01, s.cfg.fnWrite, hi8 3, lo8 3, hi8 100, lo8 100, lo8 0x2178, hi8 0x2178]) ∧
    (let s := (sending .write 3 100).sentTo [⟨[0x01], false⟩] 1 .tx
     s.phase = .tx ∧ 0 < s.txidx.toNat ∧ s.txidx.toNat < 8 ∧ s.sent ≠ []) ∧
    (waiting .write 3 100).phase ≠ .tx ∧ guarded.elapsed.toNat < guarded.cfg.txGuardTicks.toNat ∧
    (sending .read 3 100).txbuf ≠ [0x01, 0x06, hi8 3, lo8 3, hi8 100, lo8 100, lo8 0x2178, hi8 0x2178] := by decide +kernel

/-- One value, and 125; the carried checksum right (V9) and wrong. -/
theorem witness_ReadResponseReceived :
    (let s := waiting .read 0 1
     s.cfg.wf = true ∧ s.phase = .rx ∧ s.rxbuf = [] ∧ s.curOp = .read ∧ [(0x47 : Word)].length = s.curArg.toNat) ∧
    (let s := waiting .read 0 125
     s.phase = .rx ∧ s.rxbuf = [] ∧ (List.replicate 125 (0 : Word)).length = s.curArg.toNat) ∧
    crc16 (Config.standard false) ([0x01, 0x03, 0x02] ++ [(0x47 : Word)].flatMap (fun v => [hi8 v, lo8 v])) = 0x76F8 := by decide +kernel

theorem witness_WriteResponseReceived :
    (let s := waiting .write 3 100
     s.cfg.wf = true ∧ s.phase = .rx ∧ s.rxbuf = [] ∧ s.curOp = .write ∧ s.curSa = 1 ∧ s.curReg = 3 ∧ s.curArg = 100) ∧
    crc16 (Config.standard false) [0x01, 0x06, 0x00, 0x03, 0x00, 0x64] = 0x2178 := by decide +kernel

theorem witness_ReadExceptionReceived :
    (let s := waiting .read 7 4
     s.cfg.wf = true ∧ s.phase = .rx ∧ s.rxbuf = [] ∧ s.curOp = .read) ∧ (waiting .write 3 100).curOp = .write ∧
    crc16 (Config.standard false) [0x01, 0x83, 0x02] = 0xF1C0 := by decide +kernel

theorem witness_WriteExceptionReceived :
    (let s := waiting .write 3 100
     s.cfg.wf = true ∧ s.phase = .rx ∧ s.rxbuf = [] ∧ s.curOp = .write) ∧ (waiting .read 7 4).curOp = .read ∧
    crc16 (Config.standard false) [0x01, 0x86, 0x03] = 0x6102 := by decide +kernel

/-- No byte, one byte, one byte too few, exactly enough, and more. -/
theorem witness_ReceivedBytesCutByContent :
    let s := waiting .read 0 1
    s.phase = .rx ∧ s.rxbuf = [] ∧ ([] : List Byte).length < 2 ∧ [(1 : Byte)].length < 2 ∧
      [(1 : Byte), 3, 2, 0, 0x47, 0xF8].length < Claims.responseLength s.curOp s.curArg 3 ∧
      Claims.responseLength s.curOp s.curArg 3 = [(1 : Byte), 3, 2, 0, 0x47, 0xF8, 0x76].length ∧
      Claims.responseLength s.curOp s.curArg 0x83 ≤ [(1 : Byte), 0x83, 2, 0xC0, 0xF1, 0].length ∧
      Claims.responseLength .write 300 3 = 8 ∧ Claims.responseLength .read 2 6 = 9 := by decide +kernel

theorem witness_FramesAreTheirBytes :
    (sending .read 0 1).txbuf = encodeBytes (sending .read 0 1).cfg (.frameRdreq 1 0 1 0x0A84) ∧
      (sending .write 3 100).txbuf = encodeBytes (sending .write 3 100).cfg (.frameWrreq 1 3 100 0x2178) := by decide +kernel

/-- V9's frame, with its first and last bit flipped. -/
theorem witness_ChecksumDetectsSingleBitErrors :
    let c := Config.standard false
    let f : List Byte := [0x01, 0x03, 0x02, 0x00, 0x47, 0xF8, 0x76]
    2 ≤ f.length ∧ c.crcLsbFirst = true ∧ c.crcXorOut = 0 ∧ verify c f = true ∧ verify c (Claims.flip f 0 0) = false ∧
      verify c (Claims.flip f 6 7) = false := by decide +kernel

theorem witness_CodecProperties :
    (Config.standard false).wf = true ∧
      dec (Config.standard false) .read 1 0 1 [0x01, 0x03, 0x02, 0x00, 0x47, 0xF8, 0x76] = .okRead [0x47] ∧
      dec (Config.standard false) .write 1 3 100 [0x01, 0x06, 0x00, 0x03, 0x00, 0x64, 0x78, 0x21] = .okWrite := by decide +kernel

theorem witness_EchoAcceptedExactlyWhenEqual : (Config.standard false).wf = true := by decide

/-- One frame for each clause: of the wrong length; with a bad checksum; of another bus address; an exception; of another function;
and frames that reach the data checks (R139; V22 to V28, V58, V61). -/
theorem witness_FirstDefectIsReported :
    let verdict := fun (s : List Byte) => dec (Config.standard true) .read 1 0 1 s
    verdict [0x01, 0x03, 0x02, 0x00] = .frame .length ∧
    verdict [0x02, 0x03, 0x02, 0x00, 0x47, 0xF8, 0x76] = .frame .crc ∧
    verdict [0x02, 0x03, 0x02, 0x00, 0x47, 0xBC, 0x76] = .frame .address ∧
    verdict [0x01, 0x83, 0xFF, 0x01, 0x70] = .deviceException 0xFF ∧
    verdict [0x01, 0x86, 0x02, 0xC3, 0xA1] = .frame .function ∧
    verdict [0x01, 0x03, 0x04, 0x00, 0x47, 0x18, 0x77] = .frame .byteCount ∧
    dec (Config.standard true) .write 1 3 101 [0x01, 0x06, 0x00, 0x03, 0x00, 0x64, 0x78, 0x21] = .echoMismatch := by
  decide +kernel

theorem ready_inv : Inv (ready false) where
  params := by decide
  buffer := rfl
  timer := by decide
  registers := by decide
  lines := fun r h => absurd h List.not_mem_nil
  results := ⟨by decide, by decide, by decide, by decide, by decide, by decide, by decide, by decide, by decide⟩
  busy := fun h => absurd rfl h
  tx := fun h => nomatch h
  rx := fun h => nomatch h

theorem witness_StepKeepsInvariant : Inv ((ready false).withInputs [.hostWrite 0 0x010000007D]) ∧
    (seen (.hostWrite 0 0x010000007D) (ready false) (fun t => t.phase) = some .tx) :=
  ⟨{ params := ready_inv.params, buffer := ready_inv.buffer, timer := ready_inv.timer, registers := ready_inv.registers, lines := ready_inv.lines,
     results := ⟨ready_inv.results.errf, ready_inv.results.kind, ready_inv.results.sub, ready_inv.results.exc,
       ready_inv.results.link, ready_inv.results.info, ready_inv.results.present, ready_inv.results.scalar,
       ready_inv.results.data⟩
     busy := fun h => absurd rfl h, tx := fun h => (nomatch h), rx := fun h => (nomatch h) }, by decide +kernel⟩

theorem witness_AddressOnlyBySetsa :
    seen (.hostWrite 0 0x0700000002) (ready false) (fun t => decide (t.slaveAddr ≠ (ready false).slaveAddr)) = some true ∧
      seen .reset (ready false) (fun t => decide (t.saValid ≠ (ready false).saValid)) = some true := by decide +kernel

theorem witness_TimeoutOnlyBySetto :
    seen (.hostWrite 0 0x0500000000) (ready false) (fun t => decide (t.timeout ≠ (ready false).timeout)) = some true := by
  decide +kernel

theorem witness_LatchesOnlyAtAcceptance :
    seen (.hostWrite 0 0x020003FFFF) (ready false) (fun t => decide (t.txbuf ≠ (ready false).txbuf)) = some true := by
  decide +kernel

/-- A good write request on the line; the device then stores 100 in register 3. -/
theorem witness_ParametersAndDeviceFrame :
    seen (.deviceAct 0) (waiting .write 3 100) (fun t => decide (t.device ≠ (waiting .write 3 100).device)) = some true := by
  decide +kernel

theorem witness_BytesGoOutOnlyInTx :
    seen .txReady (sending .read 0 1) (fun t => decide (t.sent.map (·.bytes) ≠ [])) = some true := by decide +kernel

theorem witness_RunningExchangeIgnoresSession :
    let s := (waiting .read 0 1).withInputs [.tick]
    s.phase ≠ .idle ∧ s.inputs.head? ≠ some .reset ∧ seen .tick (waiting .read 0 1) (fun t => t.elapsed) = some 1 := by
  decide +kernel

theorem witness_ErrorCompletionFrame :
    let s := (waiting .read 0 1).withInputs [.linkfault 7]
    s.phase ≠ .idle ∧ s.inputs.head? ≠ some .reset ∧
      seen (.linkfault 7) (waiting .read 0 1) (fun t => (t.phase, t.err)) = some (.idle, 1) := by decide +kernel

/-- After a time-out the next command is accepted. -/
theorem witness_NextCommandRecovers :
    let s := ((waiting .read 0 1).raise .timeout).withInputs [.hostWrite 0 0x0600000000]
    s.phase = .idle ∧ s.err = 2 ∧ s.inputs = [.hostWrite 0 0x0600000000] := by decide +kernel

/-- As many ticks as are left, with `CUR_TO` 3 and one gone, and with `CUR_TO` 0; the host polls `STATUS` between them. -/
theorem witness_TimeoutBoundsEveryExchange :
    (let s := { waiting .read 0 1 with curTo := 3, elapsed := 1, inputs := [.tick, .rx 9, .hostRead 1, .tick] }
     s.elapsed.toNat < max s.curTo.toNat 1 ∧ (∀ e ∈ s.inputs, Claims.driving e = true) ∧
       max s.curTo.toNat 1 - s.elapsed.toNat ≤ Claims.ticks s.inputs) ∧
    (let s := { waiting .read 0 1 with curTo := 0, inputs := [.tick] }
     s.elapsed.toNat < max s.curTo.toNat 1 ∧ (∀ e ∈ s.inputs, Claims.driving e = true) ∧
       max s.curTo.toNat 1 - s.elapsed.toNat ≤ Claims.ticks s.inputs) := by decide +kernel

theorem witness_ResetGivesResetValues : ((waiting .read 0 1).withInputs [.reset]).inputs = [.reset] := rfl

/-- The ends of the number ranges: entries 0 and 124 of `RDATA`, with 125 values held. -/
theorem witness_HostReadsResultRegisters :
    let s := { ready false with rdata := List.replicate 125 7, rval := 5, rvalValid := true, ctxValid := true }
    s.rvalValid = true ∧ s.ctxValid = true ∧ (0 < s.cfg.maxReadCount ∧ 0 < s.rdata.length) ∧
      (124 < s.cfg.maxReadCount ∧ 124 < s.rdata.length) := by decide +kernel

/-- The same ranges where no value is held. -/
theorem witness_ReadingNoValueFaults :
    let s := ready false
    s.rvalValid = false ∧ s.ctxValid = false ∧ (0 < s.cfg.maxReadCount ∧ s.rdata.length ≤ 0) ∧
      (124 < s.cfg.maxReadCount ∧ s.rdata.length ≤ 124) := by decide +kernel

/-- The numbers 0, 11, 255, 381 = 256 + 125, and a write to `STATUS`. -/
theorem witness_OtherHostMovesRefused :
    (scripted [.hostRead 381]).inputs = [.hostRead 381] ∧ 256 + (scripted []).cfg.maxReadCount ≤ 381 ∧
      (scripted [.hostWrite 1 0]).inputs = [.hostWrite 1 0] := by decide +kernel

/-- The widest readable stretch (15 registers from 0) and one register. -/
theorem witness_ReadExchangeReturnsDeviceValues :
    let s := scripted ([.hostWrite 0 (0x01#8 ++ 0#16 ++ 15#16), .txFrame, .deviceAct 0] ++ List.replicate (5 + 2 * 15) .rxLine)
    s.cfg.wf = true ∧ s.cfg.txGuardTicks = 0 ∧ s.phase = .idle ∧ s.saValid = true ∧ s.device.addr = s.slaveAddr ∧
      s.inFlight = [] ∧ 15 ≤ s.cfg.maxReadCount ∧ (∀ i < 15, deviceReadable (0 + i) = true) ∧ deviceReadable 15 = false ∧
      s.deviceOwes = false := by
  decide +kernel

/-- A register that reads as written, the bus address, and the write-only one. -/
theorem witness_WriteExchangeStoresInDevice :
    let s := scripted ([.hostWrite 0 (0x02#8 ++ 2#16 ++ 42#16), .txFrame, .deviceAct 0] ++ List.replicate 8 .rxLine)
    s.cfg.wf = true ∧ s.cfg.txGuardTicks = 0 ∧ s.phase = .idle ∧ s.saValid = true ∧ s.device.addr = s.slaveAddr ∧
      s.inFlight = [] ∧ s.device.regs.wf = true ∧ deviceWritable 2 = true ∧ deviceWritable 3 = true ∧
      deviceWritable 0x20 = true ∧ s.deviceOwes = false := by decide +kernel

/-- The write-only register alone, and a stretch whose last register is the first hole. -/
theorem witness_UnreadableRegisterEndsInException :
    let s := scripted ([.hostWrite 0 (0x01#8 ++ 0x20#16 ++ 1#16), .txFrame, .deviceAct 0] ++ List.replicate 5 .rxLine)
    s.cfg.wf = true ∧ s.cfg.txGuardTicks = 0 ∧ s.phase = .idle ∧ s.saValid = true ∧ s.device.addr = s.slaveAddr ∧
      s.inFlight = [] ∧ deviceReadable (0x20 + 0) = false ∧ deviceReadable (0 + 15) = false := by decide +kernel

/-- The shortest time-outs, 0 and 1, and 2. -/
theorem witness_TimedOutWriteMayStillLand :
    let s := { scripted ([.hostWrite 0 (0x02#8 ++ 3#16 ++ 100#16), .txFrame] ++ List.replicate 2 .tick ++ [.deviceAct 0]) with
      timeout := 2 }
    s.cfg.wf = true ∧ s.cfg.txGuardTicks = 0 ∧ s.phase = .idle ∧ s.saValid = true ∧ s.device.addr = s.slaveAddr ∧
      s.device.regs.wf = true ∧ deviceWritable 3 = true ∧ max s.timeout.toNat 1 = 2 ∧ max (0 : Nat) 1 = 1 := by decide +kernel

/-- A step of any kind with an acted request on the line, a byte of a new one in front of it; and that request acted on again. -/
theorem witness_RequestActedOnAtMostOnce :
    let old : Request := ⟨[1, 6, 0, 3, 0, 100, 0x78, 0x21], true⟩
    let s := (sending .write 3 100).sentTo [old] 0 .tx
    seen .txReady s (fun t => t.sent) = some [⟨[1], false⟩, old] ∧ s.sent[0]? = some old ∧ old.acted = true ∧
      (let fresh : Request := ⟨old.bytes, false⟩
       let u := s.sentTo [fresh] 8 .rx
       fresh.bytes.length = 8 ∧ fresh.acted = false ∧ u.sent[0]? = some fresh ∧
         seen (.deviceAct 0) u (fun t => t.sent) = some [old]) := by
  decide +kernel

/-- Each clause at its ends. -/
theorem witness_TemperatureCodecRoundTrips :
    registerToCelsius (celsiusToRegister (-20)) = -20 ∧ registerToCelsius (celsiusToRegister 120) = 120 ∧
      parseCombinedTemperature (encodeCombinedTemperature (-20) 120) = (-20, 120) := by decide +kernel

/-- 0 and 255 are out of range, 1 and 254 in it (R262). -/
theorem witness_SetAddrWritesThenUpdatesCache :
    let c := Config.standard true
    c.wf = true ∧ setAddr c 0 = .error .address ∧ setAddr c 255 = .error .address ∧
      setAddr c 1 = .ok [.wrreg 2 1, .setsa 1] ∧ setAddr c 254 = .ok [.wrreg 2 254, .setsa 254] := by decide +kernel

/-- The ends of the range, and the two failures R262 names. -/
theorem witness_ThresholdsValidatedAndEncoded :
    (Config.standard true).wf = true ∧ validThresholds (-20) 120 = true ∧ validThresholds (-21) 120 = false ∧ validThresholds (-20) 121 = false ∧
      validThresholds 40 40 = false ∧ validThresholds 119 120 = true := by decide +kernel

end Sys2Proof.Tests
end

section
/-! The invariant of R42 is kept by every operation, and so by every step (O38, O39). -/

namespace Sys2Proof

/-- R7's defaults are well-formed, whatever the open parameter is. -/
theorem Config.wf_standard (enforce : Bool) : (Config.standard enforce).wf = true := by cases enforce <;> decide

/-- `TIMEOUT` holds the ten seconds it has after reset (R7, R21). -/
theorem Config.resetTimeout_lt {c : Config} (hc : c.wf = true) :
    (BitVec.ofNat 32 (10 * c.tickHz)).toNat < 2 ^ c.timeoutWidth := by
  rw [BitVec.toNat_ofNat]
  exact (Nat.mod_le _ _).trans_lt (Config.wf_timeout hc).2

end Sys2Proof

namespace Sys2Proof.Machine

/-! ### The result registers -/

/-- No error is shown, no value in `RDATA`; what is left to say is that the scalar result agrees. -/
theorem resultsOk_of_noError {s : State}
    (he : s.errf = false ∧ s.err = 0 ∧ s.sub = 0 ∧ s.exc = 0 ∧ s.linkCause = 0 ∧ s.rdata = [])
    (hi : s.rinfo.extractLsb' 0 2 ≠ 3) (hp : s.rinfo ≠ 0 → s.rvalValid = true)
    (hv : s.rvalValid = true → s.done = true) : ResultsOk s := by
  obtain ⟨hf, he, hs, hx, hl, hd⟩ := he
  exact {
    errf := by simp [hf, he]
    kind := by simp [he]
    sub := absurd hs
    exc := absurd hx
    link := absurd hl
    info := hi
    present := hp
    scalar := fun h => ⟨hv h, he⟩
    data := absurd hd }

/-- No result of any kind is shown. -/
theorem resultsOk_of_clear {s : State}
    (he : s.errf = false ∧ s.err = 0 ∧ s.sub = 0 ∧ s.exc = 0 ∧ s.linkCause = 0 ∧ s.rdata = [])
    (hv : s.rvalValid = false) (hi : s.rinfo = 0) : ResultsOk s :=
  resultsOk_of_noError he (by simp [hi]) (absurd hi) (by simp [hv])

/-- Every error leaves agreeing result registers, where no scalar result is shown (R291, R292, R296). -/
theorem resultsOk_raise {s : State} (hv : s.rvalValid = false) (hi : s.rinfo = 0) (e : Error) : ResultsOk (s.raise e) where
  errf := by cases e <;> simp [Error.code]
  kind := by cases e <;> simp [Error.code]
  sub := by cases e <;> simp [Error.code, Error.subCode]
  exc := by cases e <;> simp [Error.code, Error.excCode]
  link := by cases e <;> simp [Error.code, Error.linkCode]
  info := by simp [hi]
  present := absurd hi
  scalar := by simp [hv]
  data := absurd rfl

theorem BusyOk.noScalar {s : State} (h : BusyOk s) : s.rvalValid = false ∧ s.rinfo = 0 := by
  obtain ⟨-, -, -, hv, hi⟩ := h.quiet
  exact ⟨hv, hi⟩

/-- Completion without error of a running exchange (R187). -/
theorem resultsOk_succeed {s : State} (h : ResultsOk s) (hb : BusyOk s) {vs : List Word}
    (hd : vs ≠ [] → s.curOp = .read ∧ vs.length = s.curArg.toNat) : ResultsOk (s.succeed vs) := by
  obtain ⟨-, he, -, hv, hi⟩ := hb.quiet
  exact {
    errf := by simp
    kind := by simp
    sub := fun hs => by simpa [he] using h.sub hs
    exc := fun hx => by simpa [he] using h.exc hx
    link := fun hl => by simpa [he] using h.link hl
    info := h.info
    present := h.present
    scalar := by simp [hv]
    data := fun hne => by
      obtain ⟨hop, hl⟩ := hd hne
      exact ⟨rfl, rfl, hop, hl, hl ▸ (hb.count hop).2⟩ }

/-! ### States in `IDLE`, and changes outside the block -/

/-- In `IDLE` the invariant asks for nothing of the exchange. -/
theorem inv_of_idle {s t : State} (h : Inv s) (hp : t.phase = .idle) (hc : t.cfg = s.cfg) (hb : t.txbuf.length = 8)
    (ht : t.timeout.toNat < 2 ^ s.cfg.timeoutWidth) (hd : t.device = s.device) (hs : t.sent = s.sent)
    (hr : ResultsOk t) : Inv t where
  params := hc ▸ h.params
  buffer := hb
  timer := hc ▸ ht
  registers := hd ▸ h.registers
  lines := hs ▸ h.lines
  results := hr
  busy := absurd hp
  tx := by simp [hp]
  rx := by simp [hp]

/-- An exchange that the receiver, the timer or the link ends. -/
theorem inv_of_ended {s t : State} (h : Inv s) (hp : t.phase = .idle) (hf : ReceiveFrame s t) (hr : ResultsOk t) : Inv t :=
  inv_of_idle h hp hf.cfg (hf.txbuf ▸ h.buffer) (hf.timeout ▸ h.timer) hf.device hf.sent hr

/-- What is on the line while an exchange runs, said of the bytes alone. -/
theorem sentOk_iff (s : State) :
    SentOk s ↔ (0 < s.txidx.toNat → (s.sent.map (·.bytes)).head? = some (s.txbuf.take s.txidx.toNat)) := by
  unfold SentOk
  cases s.sent <;> simp

/-- The invariant does not look at what the host holds, the bytes in flight, the moves to come or whether requests have been acted
on, and at no more of the device than the form of its register list. -/
theorem Inv.environment {s : State} (h : Inv s) (hostData : BitVec 32) {d : Device} {sent : List Request}
    (inFlight : List Byte) (inputs : List Input) (hd : d.regs.wf = true)
    (hs : sent.map (·.bytes) = s.sent.map (·.bytes)) :
    Inv { s with hostData := hostData, device := d, sent := sent, inFlight := inFlight, inputs := inputs } where
  params := h.params
  buffer := h.buffer
  timer := h.timer
  registers := hd
  lines := by
    have hl : ∀ b ∈ s.sent.map (·.bytes), b.length ≤ 8 := List.forall_mem_map.mpr h.lines
    exact List.forall_mem_map.mp (hs ▸ hl)
  results := { h.results with }
  busy := fun hp => by
    obtain ⟨hb, hs'⟩ := h.busy hp
    refine ⟨{ hb with }, ?_⟩
    rw [sentOk_iff] at hs' ⊢
    exact hs ▸ hs'
  tx := h.tx
  rx := h.rx

theorem inv_withInputs {s : State} (h : Inv s) (l : List Input) : Inv (s.withInputs l) :=
  h.environment _ _ l h.registers rfl

/-! ### Reset -/

theorem inv_resetBlock {s : State} (h : Inv s) : Inv s.resetBlock :=
  inv_of_idle h rfl rfl rfl (Config.resetTimeout_lt h.params) rfl rfl
    (resultsOk_of_clear ⟨rfl, rfl, rfl, rfl, rfl, rfl⟩ rfl rfl)

/-! ### Command words -/

theorem inv_start {s : State} (h : Inv s) {op : Op} {reg arg : Word} (hv : s.saValid = true)
    (hc : op = .read → 1 ≤ arg.toNat ∧ arg.toNat ≤ s.cfg.maxReadCount) : Inv (s.cleared.start op reg arg) where
  params := h.params
  buffer := length_encRequest ..
  timer := h.timer
  registers := h.registers
  lines := h.lines
  results := resultsOk_of_clear ⟨rfl, rfl, rfl, rfl, rfl, rfl⟩ rfl rfl
  busy := fun _ => by
    refine ⟨⟨hv, ⟨rfl, rfl, rfl⟩, rfl, hc, ⟨rfl, rfl, rfl, rfl, rfl⟩, ?_⟩, nofun⟩
    show 0 < max _ 1
    omega
  tx := fun _ => ⟨Nat.zero_lt_succ 7, rfl⟩
  rx := nofun

theorem inv_wordEffect {w : BitVec 40} {s t : State} (h : Inv s) (hp : s.phase = .idle) (ht : WordEffect w s t) : Inv t := by
  cases ht with
  | refused why => exact inv_of_idle h rfl rfl h.buffer h.timer rfl rfl (resultsOk_raise rfl rfl _)
  | started op reg arg hv hc => exact inv_start h hv hc
  | setto ticks =>
    exact inv_of_idle h hp rfl h.buffer (timeoutBits_lt _ _) rfl rfl
      (resultsOk_of_clear ⟨rfl, rfl, rfl, rfl, rfl, rfl⟩ rfl rfl)
  | setsa sa =>
    exact inv_of_idle h hp rfl h.buffer h.timer rfl rfl
      (resultsOk_of_clear ⟨rfl, rfl, rfl, rfl, rfl, rfl⟩ rfl rfl)
  | answered v info hi =>
    exact inv_of_idle h hp rfl h.buffer h.timer rfl rfl
      (resultsOk_of_noError ⟨rfl, rfl, rfl, rfl, rfl, rfl⟩ hi (fun _ => rfl) (fun _ => rfl))
  | absent =>
    exact inv_of_idle h hp rfl h.buffer h.timer rfl rfl
      (resultsOk_of_clear ⟨rfl, rfl, rfl, rfl, rfl, rfl⟩ rfl rfl)

/-! ### Receiving -/

/-- `DEC` comes to the fields after the function only in a frame of the expected length with the request's function (R139). -/
theorem dec_cases (c : Config) (op : Op) (sa : Byte) (reg arg : Word) (bs : List Byte) :
    (∃ sub, dec c op sa reg arg bs = .frame sub) ∨ (∃ code, dec c op sa reg arg bs = .deviceException code) ∨
    (bs.length = explen op arg (bs.getD 1 0) ∧ bs.getD 1 0 = fnOf c op ∧ dec c op sa reg arg bs = decData op reg arg bs) := by
  unfold dec
  split
  · exact .inl ⟨_, rfl⟩
  rename_i hl
  split
  · exact .inl ⟨_, rfl⟩
  split
  · exact .inl ⟨_, rfl⟩
  split
  · exact .inr (.inl ⟨_, rfl⟩)
  split
  · exact .inl ⟨_, rfl⟩
  rename_i hf
  exact .inr (.inr ⟨by omega, Decidable.not_not.mp hf, rfl⟩)

theorem decWr_ne_okRead (reg v : Word) (bs : List Byte) (vs : List Word) : decWr reg v bs ≠ .okRead vs := by
  unfold decWr
  split <;> nofun

/-- The values of a read response of the expected length are as many as were asked for (R140). -/
theorem decRd_okRead {n : Word} {bs : List Byte} {vs : List Word} (hl : bs.length = 5 + 2 * n.toNat)
    (h : decRd n bs = .okRead vs) : vs.length = n.toNat := by
  unfold decRd at h
  split at h
  · cases h
  · obtain rfl := DecResult.okRead.inj h
    refine length_bytesWords _ _ ?_
    rw [List.length_take, List.length_drop]
    omega

/-- What `DEC` takes for a read response answers a read, with as many values as were asked for. -/
theorem dec_okRead {c : Config} (hc : c.wf = true) {op : Op} {sa : Byte} {reg arg : Word} {bs : List Byte} {vs : List Word}
    (h : dec c op sa reg arg bs = .okRead vs) : op = .read ∧ vs.length = arg.toNat := by
  rcases dec_cases c op sa reg arg bs with ⟨sub, e⟩ | ⟨code, e⟩ | ⟨hl, hf, e⟩ <;> rw [e] at h
  · cases h
  · cases h
  cases op with
  | write => exact absurd h (decWr_ne_okRead reg arg bs vs)
  | read =>
    obtain ⟨-, hplain, -⟩ := Config.wf_codes hc
    rw [hf, fnOf, explen_plain hplain] at hl
    exact ⟨rfl, decRd_okRead hl h⟩

/-- `COMPLETE` leaves agreeing result registers. -/
theorem resultsOk_complete {s : State} (hc : s.cfg.wf = true) (h : ResultsOk s) (hb : BusyOk s) : ResultsOk s.complete := by
  obtain ⟨hv, hi⟩ := hb.noScalar
  rcases complete_cases s with ⟨vs, e, hd | ⟨rfl, -⟩⟩ | ⟨er, e, -⟩ <;> rw [e]
  · exact resultsOk_succeed h hb fun _ => dec_okRead hc hd
  · exact resultsOk_succeed h hb (absurd rfl)
  · exact resultsOk_raise hv hi er

theorem complete_phase (s : State) : s.complete.phase = .idle := by
  rcases complete_cases s with ⟨vs, e, -⟩ | ⟨er, e, -⟩ <;> rw [e] <;> rfl

/-- `RXBUF` after one more byte that does not complete the response still waits for more (R185). -/
theorem rxbuf_store_lt {s : State} {b : Byte}
    (hw : 2 ≤ s.rxbuf.length → s.rxbuf.length < explen s.curOp s.curArg (s.rxbuf.getD 1 0))
    (hc : (s.store b).responseComplete = false) (h2 : 2 ≤ (s.store b).rxbuf.length) :
    (s.store b).rxbuf.length < explen s.curOp s.curArg ((s.store b).rxbuf.getD 1 0) := by
  rw [← Bool.not_eq_true, responseComplete_iff] at hc
  have hne : (s.store b).rxbuf.length ≠ explen s.curOp s.curArg ((s.store b).rxbuf.getD 1 0) := fun he => hc ⟨h2, he⟩
  have hle : (s.store b).rxbuf.length ≤ explen s.curOp s.curArg ((s.store b).rxbuf.getD 1 0) := by
    have h5 := five_le_explen s.curOp s.curArg ((s.store b).rxbuf.getD 1 0)
    simp only [store_rxbuf, List.length_append, List.length_singleton] at h5 ⊢
    by_cases hl : 2 ≤ s.rxbuf.length
    · rw [List.getD_append _ _ _ _ hl]
      exact hw hl
    · omega
  omega

theorem inv_store {s : State} {b : Byte} (h : Inv s) (hp : s.phase = .rx) (hc : (s.store b).responseComplete = false) :
    Inv (s.store b) := by
  obtain ⟨hb, hs⟩ := h.busy (by simp [hp])
  obtain ⟨hi, hl, hw⟩ := h.rx hp
  have hw' := rxbuf_store_lt hw hc
  have hmax := explen_le_rxMax h.params (fun hop => (hb.count hop).2) ((s.store b).rxbuf.getD 1 0)
  exact {
    params := h.params
    buffer := h.buffer
    timer := h.timer
    registers := h.registers
    lines := h.lines
    results := { h.results with }
    busy := fun _ => ⟨{ hb with }, hs⟩
    tx := by simp [hp]
    rx := fun _ => ⟨hi, by simp only [store_cfg]; omega, hw'⟩ }

/-- A received byte that completes the response ends the exchange (R187). -/
theorem inv_store_complete {s : State} {b : Byte} (h : Inv s) (hp : s.phase = .rx) : Inv (s.store b).complete := by
  obtain ⟨hb, -⟩ := h.busy (by simp [hp])
  exact inv_of_ended h (complete_phase _) ((receiveFrame_store s b).trans (receiveFrame_complete _))
    (resultsOk_complete h.params { h.results with } { hb with })

theorem inv_rxByte {s : State} (h : Inv s) (b : Byte) : Inv (s.rxByte b) := by
  rcases rxByte_cases b s with ⟨-, e⟩ | ⟨hp, hc, e⟩ | ⟨hp, -, e⟩ <;> rw [e]
  · exact h
  · exact inv_store h hp hc
  · exact inv_store_complete h hp

theorem inv_rxBytes (bs : List Byte) {s : State} (h : Inv s) : Inv (s.rxBytes bs) := by
  induction bs generalizing s with
  | nil => exact h
  | cons b bs ih => exact ih (inv_rxByte h b)

theorem inv_rxLine {s : State} (h : Inv s) : Inv s.rxLine := by
  unfold State.rxLine
  split
  · exact h
  · exact inv_rxByte (h.environment _ _ _ h.registers rfl) _

/-! ### The timer and the link -/

theorem inv_count {s : State} (h : Inv s) (hp : s.phase ≠ .idle) (hc : ¬s.curTo ≤ s.elapsed + 1) : Inv s.count := by
  obtain ⟨hb, hs⟩ := h.busy hp
  exact {
    params := h.params
    buffer := h.buffer
    timer := h.timer
    registers := h.registers
    lines := h.lines
    results := { h.results with }
    busy := fun _ => ⟨{ hb with time := lt_max_of_lt_left (BitVec.not_le.mp hc) }, hs⟩
    tx := h.tx
    rx := h.rx }

theorem inv_tick {s : State} (h : Inv s) : Inv s.tick := by
  rcases tick_cases s with ⟨-, e⟩ | ⟨hp, hc, e⟩ | ⟨hp, -, e⟩ <;> rw [e]
  · exact h
  · exact inv_count h hp hc
  · obtain ⟨hv, hi⟩ := (h.busy hp).1.noScalar
    exact inv_of_ended h rfl ((receiveFrame_count s).trans (receiveFrame_raise _ _))
      (resultsOk_raise (s := s.count) hv hi _)

theorem inv_rxTick {s : State} (h : Inv s) (b : Byte) : Inv (s.rxTick b) := by
  unfold State.rxTick
  split
  · exact inv_tick (inv_rxByte h b)
  · exact inv_rxByte (inv_tick h) b

theorem inv_linkFault {s : State} (h : Inv s) (cause : Byte) : Inv (s.linkFault cause) := by
  by_cases hp : s.phase = .idle
  · rwa [linkFault_idle hp]
  · rw [linkFault_busy hp]
    obtain ⟨hv, hi⟩ := (h.busy hp).1.noScalar
    exact inv_of_ended h rfl (receiveFrame_raise _ _) (resultsOk_raise hv hi _)

/-! ### Transmitting -/

/-- The byte `TXBYTE` sends makes the newest request the first `TXIDX + 1` bytes of `TXBUF`; the older ones stay (R182, R196). -/
theorem putByte_newest {s : State} (hl : s.txbuf.length = 8) (hi : s.txidx.toNat < 8) (hs : SentOk s) :
    ∃ acted older, putByte (s.txidx == 0) (s.txbuf.getD s.txidx.toNat 0) s.sent =
      ⟨s.txbuf.take (s.txidx.toNat + 1), acted⟩ :: older ∧ older ⊆ s.sent := by
  have hlt : s.txidx.toNat < s.txbuf.length := by omega
  have htake : s.txbuf.take (s.txidx.toNat + 1) = s.txbuf.take s.txidx.toNat ++ [s.txbuf.getD s.txidx.toNat 0] := by
    rw [List.getD_eq_getElem _ _ hlt, List.take_append_getElem]
  by_cases h0 : s.txidx = 0
  · refine ⟨false, s.sent, ?_, List.Subset.refl _⟩
    rw [htake]
    simp [putByte, h0]
  · have hpos : 0 < s.txidx.toNat := by
      rw [Nat.pos_iff_ne_zero]
      exact fun h => h0 (BitVec.eq_of_toNat_eq h)
    obtain ⟨r, older, hr, hb⟩ := hs hpos
    refine ⟨r.acted, older, ?_, hr ▸ List.subset_cons_self r older⟩
    rw [htake, hr, beq_false_of_ne h0, ← hb]
    rfl

theorem inv_txByte {s : State} (h : Inv s) : Inv s.txByte := by
  rcases txByte_cases s with ⟨-, e⟩ | ⟨⟨hp, -⟩, e⟩ <;> rw [e]
  · exact h
  obtain ⟨hb, hs⟩ := h.busy (by simp [hp])
  obtain ⟨hi, hr⟩ := h.tx hp
  obtain ⟨acted, older, hput, hsub⟩ := putByte_newest h.buffer hi hs
  have hnext := toNat_txidx_succ hi
  rw [hput]
  exact {
    params := h.params
    buffer := h.buffer
    timer := h.timer
    registers := h.registers
    lines := by
      intro r hmem
      rcases List.mem_cons.mp hmem with rfl | hold
      · exact (List.length_take_le' ..).trans h.buffer.le
      · exact h.lines r (hsub hold)
    results := { h.results with }
    busy := fun _ => ⟨{ hb with }, fun _ => ⟨_, older, rfl, congrArg s.txbuf.take hnext.symm⟩⟩
    tx := fun hp' => by
      have h8 : s.txidx + 1 ≠ 8 := fun h8 => by
        rw [sentTo_phase, if_pos h8] at hp'
        cases hp'
      have hne : (s.txidx + 1).toNat ≠ 8 := fun h => h8 (BitVec.eq_of_toNat_eq h)
      exact ⟨by rw [sentTo_txidx]; omega, hr⟩
    rx := fun hp' => by
      refine ⟨?_, by simp [hr], by simp [hr]⟩
      show s.txidx + 1 = 8
      by_contra h8
      rw [sentTo_phase, if_neg h8] at hp'
      cases hp' }

theorem inv_txBytes (n : Nat) {s : State} (h : Inv s) : Inv (s.txBytes n) := by
  induction n generalizing s with
  | zero => exact h
  | succ n ih => exact ih (inv_txByte h)

/-! ### The device -/

theorem wf_onRequest {c : Config} {d : Device} (h : d.regs.wf = true) (q : List Byte) : (d.onRequest c q).1.regs.wf = true := by
  simp only [Device.onRequest]
  split
  · exact h
  split
  · simp only [Device.onRead]
    split <;> exact h
  split
  · simp only [Device.onWrite]
    split
    · exact Memory.wf_write _ _ (BitVec.isLt _) h
    · exact h
  · exact h

theorem inv_deviceAct {s : State} (h : Inv s) (k : Nat) : Inv (s.deviceAct k) := by
  unfold State.deviceAct
  split
  · split
    · exact h.environment _ _ _ (wf_onRequest h.registers _) (markActed_bytes k s.sent)
    · exact h
  · exact h

theorem inv_deviceChange {s : State} (h : Inv s) (addr value : Word) : Inv (s.deviceChange addr value) :=
  h.environment _ _ _ (Memory.wf_write _ _ addr.isLt h.registers) rfl

/-! ### Every move -/

theorem inv_runHostRead {n : Nat} {s t : State} (h : Inv s) (ht : runHostRead n s = .next t) : Inv t := by
  unfold runHostRead at ht
  split at ht
  · obtain rfl := Host.Outcome.next.inj ht
    exact h.environment _ _ _ h.registers rfl
  · cases ht
  · cases ht

/-- A word at the port keeps the invariant: at the ready port it has one of its effects, at the busy one it waits. -/
theorem inv_runWord {w : BitVec 40} {s t : State} (h : Inv s) (ht : runWord w s = .next t) : Inv t := by
  by_cases hp : s.phase = .idle
  · obtain ⟨u, hu, he⟩ := runWord_idle hp w
    obtain rfl := Host.Outcome.next.inj (hu.symm.trans ht)
    exact inv_wordEffect h hp he
  · rw [runWord_busy hp] at ht
    exact Host.Outcome.next.inj ht ▸ h

theorem inv_runInput {e : Input} {s t : State} (h : Inv s) (ht : runInput e s = .next t) : Inv t := by
  cases e with
  | hostWrite n w =>
    simp only [runInput] at ht
    split at ht
    · exact inv_runWord h ht
    · cases ht
  | hostRead n => exact inv_runHostRead h ht
  | txReady => exact Host.Outcome.next.inj ht ▸ inv_txByte h
  | txFrame =>
    rw [runInput, runRequest_eq] at ht
    exact Host.Outcome.next.inj ht ▸ inv_txBytes 8 h
  | rx b => exact Host.Outcome.next.inj ht ▸ inv_rxByte h b
  | rxFrame bytes =>
    rw [runInput, runResponse_eq] at ht
    exact Host.Outcome.next.inj ht ▸ inv_rxBytes bytes h
  | tick => exact Host.Outcome.next.inj ht ▸ inv_tick h
  | rxTick b => exact Host.Outcome.next.inj ht ▸ inv_rxTick h b
  | linkfault cause => exact Host.Outcome.next.inj ht ▸ inv_linkFault h cause
  | reset => exact Host.Outcome.next.inj ht ▸ inv_resetBlock h
  | deviceAct k => exact Host.Outcome.next.inj ht ▸ inv_deviceAct h k
  | rxLine => exact Host.Outcome.next.inj ht ▸ inv_rxLine h
  | lineLoses => exact Host.Outcome.next.inj ht ▸ h.environment _ _ _ h.registers rfl
  | deviceChange addr value => exact Host.Outcome.next.inj ht ▸ inv_deviceChange h addr value
  | deviceReaddress sa => exact Host.Outcome.next.inj ht ▸ h.environment _ _ _ h.registers rfl

/-- Settles O39: the next move keeps the invariant, whatever it is; with none scheduled the machine waits. -/
theorem stepKeepsInvariant : Obligations.StepKeepsInvariant := by
  intro s t h ht
  cases hi : s.inputs with
  | nil =>
    rw [step_nil hi] at ht
    exact Host.Outcome.next.inj ht ▸ h
  | cons e rest =>
    rw [step_cons hi] at ht
    exact inv_runInput (inv_withInputs h rest) ht

/-- The state after reset meets the invariant, for any well-formed parameters and any device in canonical form. -/
theorem inv_powerOn {c : Config} {d : Device} (hc : c.wf = true) (hd : d.regs.wf = true) : Inv (State.powerOn c d) where
  params := hc
  buffer := rfl
  timer := Config.resetTimeout_lt hc
  registers := hd
  lines := by simp [State.powerOn]
  results := resultsOk_of_clear ⟨rfl, rfl, rfl, rfl, rfl, rfl⟩ rfl rfl
  busy := absurd rfl
  tx := nofun
  rx := nofun

/-- Settles O38: R7's parameters are well-formed and the scenario's register list is in canonical form. -/
theorem invariantAtReset : Obligations.InvariantAtReset := inv_powerOn (Config.wf_standard _) (by decide)

end Sys2Proof.Machine
end

section
/-! What a step changes besides the course of an exchange: the session, the operand latches, the parameters, the device
(O40 to O43). -/

namespace Sys2Proof.Machine

/-- The session, the operand latches and `TXBUF` are as before. -/
structure CommandFrame (s t : State) : Prop where
  timeout : t.timeout = s.timeout
  slaveAddr : t.slaveAddr = s.slaveAddr
  saValid : t.saValid = s.saValid
  curOp : t.curOp = s.curOp
  curSa : t.curSa = s.curSa
  curReg : t.curReg = s.curReg
  curArg : t.curArg = s.curArg
  curTo : t.curTo = s.curTo
  txbuf : t.txbuf = s.txbuf

theorem ExchangeFrame.commandFrame {s t : State} (h : ExchangeFrame s t) : CommandFrame s t := { h with }

/-- Only reset and a word at the ready port reach the session, the operand latches and `TXBUF` (R21, R22, R24, R26). -/
theorem step_commandFrame {s t : State} (h : step s = .next t) :
    CommandFrame s t ∨
    ∃ e rest, s.inputs = e :: rest ∧
      (e = .reset ∨ ∃ w, e = .hostWrite 0 w ∧ s.phase = .idle ∧ WordEffect w (s.withInputs rest) t) := by
  rcases step_cases h with ⟨-, rfl⟩ | ⟨e, rest, hi, hm⟩
  · exact .inl (ExchangeFrame.refl t).commandFrame
  cases hm with
  | word w _ he hp ht => exact .inr ⟨e, rest, hi, .inr ⟨w, he, hp, ht⟩⟩
  | reset he => exact .inr ⟨e, rest, hi, .inl he⟩
  | sent _ _ ht => exact .inl { ht.commandFrame with }
  | received _ _ ht => exact .inl { ht.commandFrame with }
  | waits | read | line => exact .inl ⟨rfl, rfl, rfl, rfl, rfl, rfl, rfl, rfl, rfl⟩

/-- Settles O40: of the effects of a word only that of `SETSA` changes the session's address. -/
theorem addressOnlyBySetsa : Obligations.AddressOnlyBySetsa := by
  intro s t h hne
  rcases step_commandFrame h with hf | ⟨e, rest, hi, rfl | ⟨w, rfl, hp, ht⟩⟩
  · simp [hf.slaveAddr, hf.saValid] at hne
  · exact ⟨_, rest, hi, .inl rfl⟩
  refine ⟨_, rest, hi, .inr ?_⟩
  cases ht with
  | setsa sa hw => exact ⟨sa, hw ▸ rfl, hp, rfl, rfl⟩
  | refused | started | setto | answered | absent => simp [State.refuse] at hne

/-- Settles O41: of the effects of a word only that of `SETTO` changes `TIMEOUT`. -/
theorem timeoutOnlyBySetto : Obligations.TimeoutOnlyBySetto := by
  intro s t h hne
  rcases step_commandFrame h with hf | ⟨e, rest, hi, rfl | ⟨w, rfl, hp, ht⟩⟩
  · exact absurd hf.timeout hne
  · exact ⟨_, rest, hi, .inl rfl⟩
  refine ⟨_, rest, hi, .inr ?_⟩
  cases ht with
  | setto ticks hw => exact ⟨ticks, hw ▸ rfl, hp, timeoutBits_eq s.cfg ticks⟩
  | refused | started | setsa | answered | absent => exact absurd rfl hne

/-- Settles O42: of the effects of a word only the start of an exchange changes the operand latches or `TXBUF`. -/
theorem latchesOnlyAtAcceptance : Obligations.LatchesOnlyAtAcceptance := by
  intro s t h hne
  rcases step_commandFrame h with hf | ⟨e, rest, hi, rfl | ⟨w, rfl, hp, ht⟩⟩
  · simp [hf.curOp, hf.curSa, hf.curReg, hf.curArg, hf.curTo, hf.txbuf] at hne
  · exact ⟨_, rest, hi, .inl rfl⟩
  refine ⟨_, rest, hi, .inr ⟨w, rfl, hp, ?_⟩⟩
  cases ht with
  | started => exact ⟨rfl, rfl, rfl⟩
  | refused | setto | setsa | answered | absent => simp [State.refuse] at hne

/-- No word at the port reaches the parameters or the device. -/
theorem WordEffect.cfg_device {w : BitVec 40} {s t : State} (h : WordEffect w s t) : t.cfg = s.cfg ∧ t.device = s.device := by
  cases h <;> exact ⟨rfl, rfl⟩

/-- Settles O43: of the moves only the device's own reach the device, and none the parameters. -/
theorem parametersAndDeviceFrame : Obligations.ParametersAndDeviceFrame := by
  intro s t h
  rcases step_cases h with ⟨-, rfl⟩ | ⟨e, rest, hi, hm⟩
  · exact ⟨rfl, absurd rfl⟩
  cases hm with
  | word _ _ _ _ ht => exact ⟨ht.cfg_device.1, absurd ht.cfg_device.2⟩
  | sent _ _ ht => exact ⟨ht.cfg, absurd ht.device⟩
  | received _ _ ht => exact ⟨ht.cfg, absurd ht.device⟩
  | waits | read | reset => exact ⟨rfl, absurd rfl⟩
  | line _ _ _ he =>
    refine ⟨rfl, fun hne => ⟨e, rest, hi, ?_⟩⟩
    rcases he with hk | ha | hsa | ⟨-, hd⟩
    · exact .inl hk
    · exact .inr (.inl ha)
    · exact .inr (.inr hsa)
    · exact absurd hd hne

end Sys2Proof.Machine
end

section
/-! A running exchange reads the latched operands, never the session (O45): every step but acceptance and reset commutes with a
change of `TIMEOUT` and `SLAVE_ADDR`. -/

namespace Sys2Proof.Machine

/-- Another time-out and address in the session. -/
def State.withSession (tmo : BitVec 32) (sa : Byte) (s : State) : State := { s with timeout := tmo, slaveAddr := sa }

section
variable (tmo : BitVec 32) (sa : Byte)

theorem complete_withSession (s : State) : (s.withSession tmo sa).complete = s.complete.withSession tmo sa := by
  have hd : dec (s.withSession tmo sa).cfg (s.withSession tmo sa).curOp (s.withSession tmo sa).curSa (s.withSession tmo sa).curReg
      (s.withSession tmo sa).curArg (s.withSession tmo sa).rxbuf = dec s.cfg s.curOp s.curSa s.curReg s.curArg s.rxbuf := rfl
  unfold State.complete
  rw [hd]
  cases dec s.cfg s.curOp s.curSa s.curReg s.curArg s.rxbuf <;> rfl

theorem rxByte_withSession (b : Byte) (s : State) : (s.withSession tmo sa).rxByte b = (s.rxByte b).withSession tmo sa := by
  rcases rxByte_cases b s with ⟨hp, e⟩ | ⟨hp, hc, e⟩ | ⟨hp, hc, e⟩ <;> rw [e]
  · exact rxByte_drop (s := s.withSession tmo sa) hp b
  · exact (if_pos hp).trans (if_neg (Bool.eq_false_iff.mp hc))
  · exact ((if_pos hp).trans (if_pos hc)).trans (complete_withSession tmo sa (s.store b))

theorem rxBytes_withSession (bs : List Byte) (s : State) :
    (s.withSession tmo sa).rxBytes bs = (s.rxBytes bs).withSession tmo sa := by
  induction bs generalizing s with
  | nil => rfl
  | cons b bs ih => rw [rxBytes_cons, rxBytes_cons, rxByte_withSession, ih]

theorem rxLine_withSession (s : State) : (s.withSession tmo sa).rxLine = s.rxLine.withSession tmo sa := by
  cases h : s.inFlight with
  | nil => simp only [State.rxLine, State.withSession, h]
  | cons b rest =>
    have h' : (s.withSession tmo sa).inFlight = b :: rest := h
    simp only [State.rxLine, h, h']
    exact rxByte_withSession tmo sa b { s with inFlight := rest }

theorem tick_withSession (s : State) : (s.withSession tmo sa).tick = s.tick.withSession tmo sa := by
  rcases tick_cases s with ⟨hp, e⟩ | ⟨hp, hc, e⟩ | ⟨hp, hc, e⟩ <;> rw [e]
  · exact tick_idle (s := s.withSession tmo sa) hp
  · exact (if_neg hp).trans (if_neg hc)
  · exact (if_neg hp).trans (if_pos hc)

theorem rxTick_withSession (b : Byte) (s : State) : (s.withSession tmo sa).rxTick b = (s.rxTick b).withSession tmo sa := by
  by_cases h : s.cfg.completionFirst = true
  · have hl : (s.withSession tmo sa).rxTick b = ((s.withSession tmo sa).rxByte b).tick := if_pos h
    rw [hl, rxByte_withSession, tick_withSession, State.rxTick, if_pos h]
  · have hl : (s.withSession tmo sa).rxTick b = (s.withSession tmo sa).tick.rxByte b := if_neg h
    rw [hl, tick_withSession, rxByte_withSession, State.rxTick, if_neg h]

theorem linkFault_withSession (cause : Byte) (s : State) :
    (s.withSession tmo sa).linkFault cause = (s.linkFault cause).withSession tmo sa := by
  by_cases hp : s.phase = .idle
  · rw [linkFault_idle hp]
    exact linkFault_idle (s := s.withSession tmo sa) hp cause
  · rw [linkFault_busy hp]
    exact linkFault_busy (s := s.withSession tmo sa) hp cause

theorem txByte_withSession (s : State) : (s.withSession tmo sa).txByte = s.txByte.withSession tmo sa := by
  rcases txByte_cases s with ⟨hp, e⟩ | ⟨hp, e⟩ <;> rw [e]
  · exact txByte_idle (s := s.withSession tmo sa) hp
  · exact if_pos hp

theorem txBytes_withSession (n : Nat) (s : State) : (s.withSession tmo sa).txBytes n = (s.txBytes n).withSession tmo sa := by
  induction n generalizing s with
  | zero => rfl
  | succ n ih => rw [txBytes_succ, txBytes_succ, txByte_withSession, ih]

theorem deviceAct_withSession (k : Nat) (s : State) :
    (s.withSession tmo sa).deviceAct k = (s.deviceAct k).withSession tmo sa := by
  have hs : (s.withSession tmo sa).sent = s.sent := rfl
  simp only [State.deviceAct, hs]
  split
  · split <;> rfl
  · rfl

theorem runHostRead_withSession {n : Nat} {s t : State} (h : runHostRead n s = .next t) :
    runHostRead n (s.withSession tmo sa) = .next (t.withSession tmo sa) := by
  have hr : (s.withSession tmo sa).hostRead n = s.hostRead n := rfl
  unfold runHostRead at h ⊢
  rw [hr]
  split at h
  · obtain rfl := Host.Outcome.next.inj h
    rfl
  · cases h
  · cases h

/-- Every move of a running exchange but a reset does the same, whatever the session holds. -/
theorem runInput_withSession {e : Input} {s t : State} (hp : s.phase ≠ .idle) (he : e ≠ .reset) (h : runInput e s = .next t) :
    runInput e (s.withSession tmo sa) = .next (t.withSession tmo sa) := by
  cases e with
  | hostWrite n w =>
    simp only [runInput] at h ⊢
    split at h
    · rw [runWord_busy hp] at h
      obtain rfl := Host.Outcome.next.inj h
      rw [if_pos (by assumption)]
      exact runWord_busy (s := s.withSession tmo sa) hp w
    · cases h
  | hostRead n => exact runHostRead_withSession tmo sa h
  | txReady => exact Host.Outcome.next.inj h ▸ congrArg _ (txByte_withSession tmo sa s)
  | txFrame =>
    rw [runInput, runRequest_eq] at h ⊢
    exact Host.Outcome.next.inj h ▸ congrArg _ (txBytes_withSession tmo sa 8 s)
  | rx b => exact Host.Outcome.next.inj h ▸ congrArg _ (rxByte_withSession tmo sa b s)
  | rxFrame bytes =>
    rw [runInput, runResponse_eq] at h ⊢
    exact Host.Outcome.next.inj h ▸ congrArg _ (rxBytes_withSession tmo sa bytes s)
  | tick => exact Host.Outcome.next.inj h ▸ congrArg _ (tick_withSession tmo sa s)
  | rxTick b => exact Host.Outcome.next.inj h ▸ congrArg _ (rxTick_withSession tmo sa b s)
  | linkfault cause => exact Host.Outcome.next.inj h ▸ congrArg _ (linkFault_withSession tmo sa cause s)
  | reset => exact absurd rfl he
  | deviceAct k => exact Host.Outcome.next.inj h ▸ congrArg _ (deviceAct_withSession tmo sa k s)
  | rxLine => exact Host.Outcome.next.inj h ▸ congrArg _ (rxLine_withSession tmo sa s)
  | lineLoses | deviceChange | deviceReaddress =>
    obtain rfl := Host.Outcome.next.inj h
    rfl

end

/-- Settles O45: the next move commutes with the change of the session. -/
theorem runningExchangeIgnoresSession : Obligations.RunningExchangeIgnoresSession := by
  intro s t tmo sa hp hr h
  show step (s.withSession tmo sa) = .next (t.withSession tmo sa)
  cases hi : s.inputs with
  | nil =>
    rw [step_nil hi] at h
    rw [step_nil (by exact hi), Host.Outcome.next.inj h]
  | cons e rest =>
    rw [step_cons hi] at h
    rw [step_cons (show (s.withSession tmo sa).inputs = e :: rest from hi)]
    exact runInput_withSession tmo sa (s := s.withInputs rest) hp (fun he => hr (by rw [hi, he]; rfl)) h

end Sys2Proof.Machine
end

section
/-! The host's reads, and the moves it does not have (O50 to O52). -/

namespace Sys2Proof.Machine

/-! ### What a read returns -/

theorem readIf_valid {n : Nat} {valid : Bool} {v : BitVec 32} (h : valid = true) : readIf n valid v = .next v := if_pos h

theorem readIf_invalid {n : Nat} {valid : Bool} {v : BitVec 32} (h : valid = false) :
    readIf n valid v = .fault (.noValue n) := by
  rw [readIf, h]
  rfl

/-! ### Reads of the registers from 11 on: `RDATA`, or none -/

theorem hostRead_above {n : Nat} (h : 11 ≤ n) (s : State) :
    s.hostRead n = if 256 ≤ n ∧ n < 256 + s.cfg.maxReadCount then
      readIf n (decide (n - 256 < s.rdata.length)) ((s.rdata.getD (n - 256) 0).setWidth 32)
    else .refused (.noHostRegister n) := by
  obtain ⟨k, rfl⟩ := Nat.exists_eq_add_of_le' h
  rfl

/-- A number in the range of `RDATA` reads the entry, where it holds a value. -/
theorem hostRead_rdata {i : Nat} {s : State} (h : i < s.cfg.maxReadCount) :
    s.hostRead (256 + i) = readIf (256 + i) (decide (i < s.rdata.length)) ((s.rdata.getD i 0).setWidth 32) := by
  rw [hostRead_above (by omega), if_pos (by omega), Nat.add_sub_cancel_left]

/-- `CMD` and the numbers outside the table cannot be read. -/
theorem hostRead_refused {n : Nat} {s : State} (h : n = 0 ∨ (11 ≤ n ∧ n < 256) ∨ 256 + s.cfg.maxReadCount ≤ n) :
    s.hostRead n = .refused (.noHostRegister n) := by
  by_cases h0 : n = 0
  · rw [h0]
    rfl
  · rw [hostRead_above (by omega), if_neg (by omega)]

/-! ### The step of a host read is that of the register -/

section
variable {s : State} {n : Nat} {rest : List Input} (h : s.inputs = .hostRead n :: rest)
include h

theorem step_hostRead : step s = runHostRead n (s.withInputs rest) := step_cons h

theorem step_hostRead_next {v : BitVec 32} {k : Nat} (hv : s.hostRead n = .next v) (hk : BitVec.ofNat 32 k = v) :
    step s = .next { s with inputs := rest, hostData := BitVec.ofNat 32 k } := by
  have hv' : (s.withInputs rest).hostRead n = .next (BitVec.ofNat 32 k) := hk ▸ hv
  rw [step_hostRead h, runHostRead, hv']
  rfl

theorem step_hostRead_fault {r : Fault} (hr : s.hostRead n = .fault r) : step s = .fault r := by
  have hr' : (s.withInputs rest).hostRead n = .fault r := hr
  rw [step_hostRead h, runHostRead, hr']

theorem step_hostRead_refused {r : Refusal} (hr : s.hostRead n = .refused r) : step s = .refused r := by
  have hr' : (s.withInputs rest).hostRead n = .refused r := hr
  rw [step_hostRead h, runHostRead, hr']

end

/-! ### Values -/

theorem toNat_busy (s : State) : s.busy.toNat = if s.phase = .idle then 0 else 1 := by
  unfold State.busy
  cases s.phase <;> rfl

theorem ite_eq_toNat_mul (b : Bool) (k : Nat) : (if b = true then k else 0) = b.toNat * k := by cases b <;> simp

/-- The bits of `STATUS` as a number (R28). -/
theorem toNat_status (s : State) :
    s.status.toNat = (if s.phase = .idle then 0 else 1) + (if s.done then 2 else 0) + (if s.errf then 4 else 0) +
      (if s.saValid then 8 else 0) := by
  rw [← toNat_busy, ite_eq_toNat_mul, ite_eq_toNat_mul, ite_eq_toNat_mul]
  simp only [State.status, toNat_append_cmd, BitVec.toNat_ofBool, BitVec.toNat_ofNat]
  omega

theorem ofNat_rcount (s : State) : BitVec.ofNat 32 (s.rdata.length % 256) = s.rcount.setWidth 32 := by
  rw [← BitVec.ofNat_toNat, State.rcount, BitVec.toNat_ofNat]

/-- Settles O50: the read of each register, one after another. -/
theorem hostReadsResultRegisters : Obligations.HostReadsResultRegisters := by
  intro s n rest h
  refine ⟨?status, ?err, ?sub, ?exc, ?linkCause, ?rcount, ?rval, ?rinfo, ?ctxReg, ?ctxVal, ?rdata⟩
  case status => rintro rfl; exact step_hostRead_next h rfl (toNat_status s ▸ BitVec.ofNat_toNat ..)
  case err => rintro rfl; exact step_hostRead_next h rfl (BitVec.ofNat_toNat ..)
  case sub => rintro rfl; exact step_hostRead_next h rfl (BitVec.ofNat_toNat ..)
  case exc => rintro rfl; exact step_hostRead_next h rfl (BitVec.ofNat_toNat ..)
  case linkCause => rintro rfl; exact step_hostRead_next h rfl (BitVec.ofNat_toNat ..)
  case rcount => rintro rfl; exact step_hostRead_next h rfl (ofNat_rcount s)
  case rval => rintro rfl hv; exact step_hostRead_next h (readIf_valid hv) (by rw [BitVec.ofNat_toNat, BitVec.setWidth_eq])
  case rinfo => rintro rfl; exact step_hostRead_next h rfl (BitVec.ofNat_toNat ..)
  case ctxReg => rintro rfl hv; exact step_hostRead_next h (readIf_valid hv) (BitVec.ofNat_toNat ..)
  case ctxVal => rintro rfl hv; exact step_hostRead_next h (readIf_valid hv) (BitVec.ofNat_toNat ..)
  case rdata =>
    rintro i rfl hi hl
    exact step_hostRead_next h ((hostRead_rdata hi).trans (readIf_valid (decide_eq_true hl))) (BitVec.ofNat_toNat ..)

/-- Settles O51: an element without a value, in each of the four registers that may hold none. -/
theorem readingNoValueFaults : Obligations.ReadingNoValueFaults := by
  intro s n rest h
  refine ⟨?_, ?_, ?_⟩
  · rintro rfl hv
    exact step_hostRead_fault h (readIf_invalid hv)
  · rintro (rfl | rfl) hv
    · exact step_hostRead_fault h (readIf_invalid hv)
    · exact step_hostRead_fault h (readIf_invalid hv)
  · rintro i rfl hi hl
    exact step_hostRead_fault h ((hostRead_rdata hi).trans (readIf_invalid (decide_eq_false (Nat.not_lt.mpr hl))))

/-- Settles O52: no register has the number, or it is no register the host writes. -/
theorem otherHostMovesRefused : Obligations.OtherHostMovesRefused := by
  intro s n rest
  constructor
  · intro h hn
    exact step_hostRead_refused h (hostRead_refused hn)
  · intro w h hn
    rw [step_cons h]
    exact if_neg hn

end Sys2Proof.Machine
end

section
/-! What is on the line: no step takes a request away or undoes that the device has acted on it (O57). -/

namespace Sys2Proof.Machine

/-- No word at the port reaches the line. -/
theorem WordEffect.sent {w : BitVec 40} {s t : State} (h : WordEffect w s t) : t.sent = s.sent := by cases h <;> rfl

theorem actedKept_of_eq {a b : List Request} (h : b = a) : ActedKept a b := h ▸ .refl a

/-- Every move keeps the requests on the line, and those acted on as such (R78). -/
theorem actedKept_runInput {e : Input} {s t : State} (h : runInput e s = .next t) : ActedKept s.sent t.sent := by
  cases moveEffect_of_runInput h with
  | word _ _ _ _ ht => exact actedKept_of_eq ht.sent
  | received _ _ ht => exact actedKept_of_eq ht.sent
  | waits | read | reset => exact .refl _
  | sent _ he =>
    rcases he with rfl | rfl
    · exact Host.Outcome.next.inj h ▸ actedKept_txByte s
    · exact Host.Outcome.next.inj ((runRequest_eq s).symm.trans h) ▸ actedKept_txBytes 8 s
  | line _ _ _ he =>
    rcases he with ⟨k, rfl⟩ | ⟨a, v, rfl⟩ | ⟨sa, rfl⟩ | ⟨rfl, -⟩
    · exact Host.Outcome.next.inj h ▸ actedKept_deviceAct k s
    all_goals exact Host.Outcome.next.inj h ▸ ActedKept.refl s.sent

theorem step_actedKept {s t : State} (h : step s = .next t) : ActedKept s.sent t.sent := by
  cases hi : s.inputs with
  | nil => exact Host.Outcome.next.inj ((step_nil hi).symm.trans h) ▸ .refl s.sent
  | cons e rest =>
    rw [step_cons hi] at h
    exact actedKept_runInput (s := s.withInputs rest) h

/-- Settles O57: every move keeps what is on the line; what the device's own move does depends on whether the request was acted on. -/
theorem requestActedOnAtMostOnce : Obligations.RequestActedOnAtMostOnce := by
  refine fun s t => ⟨step_actedKept, fun k r rest hi hr => ⟨fun hb ha => ?_, fun ha => ?_⟩⟩
  all_goals rw [step_cons hi]
  · exact ⟨_, _, congrArg Host.Outcome.next (deviceAct_waiting (s := s.withInputs rest) hr hb ha)⟩
  · exact congrArg Host.Outcome.next (deviceAct_acted (s := s.withInputs rest) hr ha)

end Sys2Proof.Machine
end

section
/-! The frames of an exchange with the reference device: what the device makes of a request of the block, and what the block makes of
the answer. -/

namespace Sys2Proof.Machine

/-! ### What the device makes of a request (R76) -/

/-- A request frame with a good checksum, to the device's address: its function decides what the device does with its two fields. -/
theorem onRequest_trailer (c : Config) (d : Device) (f : Byte) (a v : Word) :
    d.onRequest c (trailer c ([d.addr, f] ++ be16 a ++ be16 v)) =
      if f = c.fnRead then d.onRead c a.toNat v.toNat
      else if f = c.fnWrite then d.onWrite c a v
      else (d, exceptionResponse c d.addr f 0x01) := by
  rw [Device.onRequest, verify_trailer]
  simp [trailer, be16]

theorem onRequest_encRd (c : Config) (d : Device) (reg n : Word) :
    d.onRequest c (encRd c d.addr reg n) = d.onRead c reg.toNat n.toNat :=
  (onRequest_trailer c d c.fnRead reg n).trans (if_pos rfl)

theorem onRequest_encWr {c : Config} (hc : c.wf = true) (d : Device) (reg v : Word) :
    d.onRequest c (encWr c d.addr reg v) = d.onWrite c reg v := by
  obtain ⟨hne, -, -⟩ := Config.wf_codes hc
  rw [encWr, onRequest_trailer, if_neg hne.symm, if_pos rfl]

theorem onRead_readable {d : Device} {a n : Nat} (c : Config) (h1 : 1 ≤ n) (h2 : n ≤ 125)
    (h : ∀ i < n, deviceReadable (a + i) = true) :
    d.onRead c a n = (d, readResponse c d.addr (d.regs.readMany a n)) :=
  if_pos ⟨h1, h2, by simpa using h⟩

theorem onRead_unreadable {d : Device} {a n : Nat} (c : Config) (h : ∃ i < n, deviceReadable (a + i) = false) :
    d.onRead c a n = (d, exceptionResponse c d.addr c.fnRead 0x02) :=
  if_neg fun ⟨_, _, hall⟩ => by
    obtain ⟨i, hi, hr⟩ := h
    have := List.all_eq_true.mp hall i (List.mem_range.mpr hi)
    simp [hr] at this

theorem onWrite_writable {d : Device} {a : Word} (c : Config) (h : deviceWritable a.toNat = true) (v : Word) :
    d.onWrite c a v =
      ({ addr := if a = 0x0002 then lo8 v else d.addr, regs := d.regs.write a.toNat v }, encWr c d.addr a v) :=
  if_pos h

theorem length_readResponse (c : Config) (sa : Byte) (vs : List Word) : (readResponse c sa vs).length = 5 + 2 * vs.length := by
  simp [readResponse]
  omega

theorem length_exceptionResponse (c : Config) (sa f code : Byte) : (exceptionResponse c sa f code).length = 5 := rfl

/-! ### What the block makes of the answer (R139) -/

/-- A frame of the expected length with a good checksum, from the address asked: its function decides how it is judged. -/
theorem dec_trailer (c : Config) {op : Op} (sa : Byte) (reg : Word) {arg : Word} {f : Byte} {rest : List Byte}
    (hl : explen op arg f = rest.length + 4) :
    dec c op sa reg arg (trailer c (sa :: f :: rest)) =
      if f = excFn (fnOf c op) then decExc (trailer c (sa :: f :: rest))
      else if f ≠ fnOf c op then .frame .function
      else decData op reg arg (trailer c (sa :: f :: rest)) := by
  have h := dec_of_body c op sa reg arg (sa :: f :: rest) (crc16 c (sa :: f :: rest)) _ sa f rfl rfl rfl (by simpa using hl)
  rwa [if_neg (not_not_intro rfl), if_neg (not_not_intro rfl)] at h

theorem fnOf_msb {c : Config} (hc : c.wf = true) (op : Op) : (fnOf c op).msb = false := by
  obtain ⟨-, hr, hw⟩ := Config.wf_codes hc
  cases op <;> assumption

/-- Such a frame with the request's own function is judged by its fields. -/
theorem dec_trailer_fnOf {c : Config} (hc : c.wf = true) {op : Op} (sa : Byte) (reg : Word) {arg : Word} {rest : List Byte}
    (hl : explen op arg (fnOf c op) = rest.length + 4) :
    dec c op sa reg arg (trailer c (sa :: fnOf c op :: rest)) =
      decData op reg arg (trailer c (sa :: fnOf c op :: rest)) := by
  rw [dec_trailer c sa reg hl, if_neg (excFn_ne (fnOf_msb hc op)).symm, if_neg (not_not_intro rfl)]

theorem explen_read {c : Config} (hc : c.wf = true) (n : Word) : explen .read n c.fnRead = 5 + 2 * n.toNat :=
  explen_plain (fnOf_msb hc .read) .read n

theorem explen_write {c : Config} (hc : c.wf = true) (n : Word) : explen .write n c.fnWrite = 8 :=
  explen_plain (fnOf_msb hc .write) .write n

/-- A read response with as many values as asked for yields them (R140). -/
theorem dec_readResponse {c : Config} (hc : c.wf = true) (sa : Byte) (reg : Word) {n : Word} {vs : List Word}
    (hn : vs.length = n.toNat) (h : n.toNat ≤ 125) :
    dec c .read sa reg n (readResponse c sa vs) = .okRead vs := by
  have hl : explen .read n c.fnRead = (BitVec.ofNat 8 (2 * vs.length) :: wordsBytes vs).length + 4 := by
    rw [explen_read hc, List.length_cons, length_wordsBytes]
    omega
  refine (dec_trailer_fnOf hc sa reg hl).trans ?_
  have hb : (BitVec.ofNat 8 (2 * vs.length)).toNat = 2 * n.toNat := by
    rw [BitVec.toNat_ofNat]
    omega
  have hv : (wordsBytes vs).length = 2 * n.toNat := by rw [length_wordsBytes, hn]
  simp [decData, decRd, trailer, hb, ← hv]

/-- The echo of a write request answers it (R141). -/
theorem dec_echo {c : Config} (hc : c.wf = true) (sa : Byte) (reg v : Word) :
    dec c .write sa reg v (encWr c sa reg v) = .okWrite := by
  refine (dec_trailer_fnOf (rest := be16 reg ++ be16 v) hc sa reg (explen_write hc v)).trans ?_
  simp [decData, decWr, trailer, be16]

/-- An exception response to the request's function ends in its code (R142). -/
theorem dec_exceptionResponse (c : Config) (op : Op) (sa : Byte) (reg arg : Word) (code : Byte) :
    dec c op sa reg arg (exceptionResponse c sa (fnOf c op) code) = .deviceException code :=
  (dec_trailer c sa reg (explen_excFn op arg _)).trans (if_pos rfl)

end Sys2Proof.Machine
end

section
/-! The run of an exchange beside the reference device, move by move: the command word, the request going out, the device acting, the
bytes of the answer arriving. -/

namespace Sys2Proof.Machine

/-! ### Runs, one step more -/

theorem step_withInputs (s : State) (e : Input) (l : List Input) :
    step (s.withInputs (e :: l)) = runInput e (s.withInputs l) := step_cons rfl

theorem stepsTo_succ {s t : State} (h : step s = .next t) (n : Nat) : stepsTo (n + 1) s = stepsTo n t := by
  simp only [stepsTo, h]

theorem referenceRun_succ {s t : State} (hm : s.referenceMove = true) (h : step s = .next t) (n : Nat) :
    referenceRun (n + 1) s = referenceRun n t := by
  simp only [referenceRun, hm, h, Bool.true_and]

/-! ### The command words that start an exchange (R172, R173) -/

theorem decodeWord_rdhr (addr count : Word) : decodeWord (cmdWord 0x01 addr count) = .ok (.rdhr addr count) := by
  simp [decodeWord]

theorem decodeWord_wrsr (addr value : Word) : decodeWord (cmdWord 0x02 addr value) = .ok (.wrsr addr value) := by
  simp [decodeWord]

theorem configured_of_valid {s : State} (h : s.saValid = true) (run : State → State) : configured run s = run s := if_pos h

theorem countInRange_of_le {s : State} {n : Word} (h1 : 1 ≤ n.toNat) (h2 : n.toNat ≤ s.cfg.maxReadCount)
    (run : State → State) : countInRange n run s = run s := if_pos ⟨h1, h2⟩

/-- At the ready port this word starts this exchange. -/
def Starts (w : BitVec 40) (op : Op) (reg arg : Word) (s : State) : Prop :=
  ∀ l, runWord w (s.withInputs l) = .next ((s.withInputs l).cleared.start op reg arg)

theorem starts_rdhr {s : State} (hp : s.phase = .idle) (hv : s.saValid = true) (addr : Word) {count : Word}
    (h1 : 1 ≤ count.toNat) (h2 : count.toNat ≤ s.cfg.maxReadCount) :
    Starts (cmdWord 0x01 addr count) .read addr count s := by
  intro l
  simp only [runWord, decode, decodeWord_rdhr, exec, execRdhr]
  rw [atPort_idle (by exact hp), configured_of_valid (by exact hv), countInRange_of_le h1 (by exact h2)]

theorem starts_wrsr {s : State} (hp : s.phase = .idle) (hv : s.saValid = true) (addr value : Word) :
    Starts (cmdWord 0x02 addr value) .write addr value s := by
  intro l
  simp only [runWord, decode, decodeWord_wrsr, exec, execWrsr]
  rw [atPort_idle (by exact hp), configured_of_valid (by exact hv)]

/-! ### The request goes out and the device acts on it -/

/-- The exchange of this request, just started (R181). -/
def State.requested (op : Op) (reg arg : Word) (s : State) : State := s.cleared.start op reg arg

/-- The exchange of this request, its frame gone out (R182). -/
def State.awaiting (op : Op) (reg arg : Word) (s : State) : State :=
  (s.requested op reg arg).sentTo (⟨encRequest s.cfg op s.slaveAddr reg arg, false⟩ :: s.sent) 8 .rx

/-- What the device makes of this request. -/
def State.served (op : Op) (reg arg : Word) (s : State) : Device × List Byte :=
  s.device.onRequest s.cfg (encRequest s.cfg op s.slaveAddr reg arg)

/-- The line once the device has acted on this request. -/
def State.servedLine (op : Op) (reg arg : Word) (s : State) : List Request :=
  ⟨encRequest s.cfg op s.slaveAddr reg arg, true⟩ :: s.sent

section
variable {s : State} {w : BitVec 40} {op : Op} {reg arg : Word} {l : List Input}

theorem step_requested (hs : Starts w op reg arg s) (hi : s.inputs = .hostWrite 0 w :: l) :
    step s = .next ((s.withInputs l).requested op reg arg) :=
  (step_cons hi).trans (hs l)

theorem step_awaiting (hg : s.cfg.txGuardTicks = 0) :
    step ((s.withInputs (.txFrame :: l)).requested op reg arg) = .next ((s.withInputs l).awaiting op reg arg) := by
  have hguard : ((s.withInputs l).requested op reg arg).cfg.txGuardTicks ≤ ((s.withInputs l).requested op reg arg).elapsed := by
    simp [State.requested, hg]
  have hout := txFrame_whole ((s.withInputs l).requested op reg arg) rfl hguard (length_encRequest ..) rfl
  exact (step_withInputs (s.requested op reg arg) .txFrame l).trans ((runRequest_eq _).trans (congrArg Host.Outcome.next hout))

/-- The device's move on a complete request that it has not acted on. -/
theorem step_deviceAct {k : Nat} {r : Request} (h : s.sent[k]? = some r) (hb : r.bytes.length = 8) (ha : r.acted = false) :
    step (s.withInputs (.deviceAct k :: l)) =
      .next ((s.withInputs l).withLine (s.device.onRequest s.cfg r.bytes).1 (s.sent.set k { r with acted := true })
        (s.inFlight ++ (s.device.onRequest s.cfg r.bytes).2)) :=
  (step_withInputs s (.deviceAct k) l).trans (congrArg Host.Outcome.next (deviceAct_waiting (s := s.withInputs l) h hb ha))

theorem step_served : step ((s.withInputs (.deviceAct 0 :: l)).awaiting op reg arg) =
    .next (((s.withInputs l).awaiting op reg arg).withLine (s.served op reg arg).1 (s.servedLine op reg arg)
      (s.inFlight ++ (s.served op reg arg).2)) :=
  step_deviceAct (s := s.awaiting op reg arg) (k := 0) (r := ⟨encRequest s.cfg op s.slaveAddr reg arg, false⟩) rfl
    (length_encRequest ..) rfl

/-! ### The answer's bytes arrive -/

theorem complete_withLine (s : State) (d : Device) (q : List Request) (f : List Byte) :
    (s.withLine d q f).complete = s.complete.withLine d q f := by
  have hd : dec (s.withLine d q f).cfg (s.withLine d q f).curOp (s.withLine d q f).curSa (s.withLine d q f).curReg
      (s.withLine d q f).curArg (s.withLine d q f).rxbuf = dec s.cfg s.curOp s.curSa s.curReg s.curArg s.rxbuf := rfl
  unfold State.complete
  rw [hd]
  cases dec s.cfg s.curOp s.curSa s.curReg s.curArg s.rxbuf <;> rfl

theorem rxByte_withLine (b : Byte) (s : State) (d : Device) (q : List Request) (f : List Byte) :
    (s.withLine d q f).rxByte b = (s.rxByte b).withLine d q f := by
  rcases rxByte_cases b s with ⟨hp, e⟩ | ⟨hp, hc, e⟩ | ⟨hp, hc, e⟩ <;> rw [e]
  · exact rxByte_drop (s := s.withLine d q f) hp b
  · exact (if_pos (by exact hp)).trans (if_neg (Bool.eq_false_iff.mp hc))
  · exact (if_pos (by exact hp)).trans ((if_pos hc).trans (complete_withLine (s.store b) d q f))

theorem step_rxLine (b : Byte) (s : State) (d : Device) (q : List Request) (f : List Byte) :
    step ((s.withInputs (.rxLine :: l)).withLine d q (b :: f)) = .next (((s.rxByte b).withInputs l).withLine d q f) := by
  refine (step_withInputs (s.withLine d q (b :: f)) .rxLine l).trans (congrArg Host.Outcome.next ?_)
  exact (rxByte_withLine b (s.withInputs l) d q f).trans (congrArg (State.withLine d q f) (rxByte_withInputs b s l))

/-- Bytes in flight, delivered one move each, are the bytes delivered together. -/
theorem stepsTo_rxLines (bs : List Byte) (s : State) (d : Device) (q : List Request) :
    stepsTo bs.length ((s.withInputs (List.replicate bs.length .rxLine)).withLine d q bs) =
      some (((s.rxBytes bs).withInputs []).withLine d q []) := by
  induction bs generalizing s with
  | nil => rfl
  | cons b bs ih => exact (stepsTo_succ (step_rxLine b s d q bs) _).trans (ih (s.rxByte b))

end

/-- Where nothing waits for the device, deliveries alone are a run of R76's device. -/
theorem referenceRun_rxLines (n : Nat) {s : State} (hi : s.inputs = List.replicate n .rxLine) (ho : s.deviceOwes = false) :
    referenceRun n s = true := by
  induction n generalizing s with
  | zero => rfl
  | succ n ih =>
    rw [List.replicate_succ] at hi
    have hframe := receiveFrame_rxLine (s.withInputs (List.replicate n .rxLine))
    have hmove : s.referenceMove = true := by simp [State.referenceMove, hi, ho]
    have hstep : step s = .next (s.withInputs (List.replicate n .rxLine)).rxLine := step_cons hi
    rw [referenceRun_succ hmove hstep]
    exact ih hframe.inputs ((congrArg (List.any · Request.waiting) hframe.sent).trans ho)

/-- A response of exactly the expected length is judged whole. -/
theorem rxBytes_exact {bs : List Byte} {s : State} (h : s.phase = .rx) (hr : s.rxbuf = [])
    (hl : explen s.curOp s.curArg (bs.getD 1 0) = bs.length) : s.rxBytes bs = (s.withRx bs).complete := by
  rw [rxBytes_cut bs s h hr hl.le, hl, List.take_length]

/-! ### The exchange as a whole -/

section
variable {s : State} {w : BitVec 40} {op : Op} {reg arg : Word} {n : Nat} {d : Device} {answer : List Byte}
  (hs : Starts w op reg arg s) (hg : s.cfg.txGuardTicks = 0)
  (hi : s.inputs = .hostWrite 0 w :: .txFrame :: .deviceAct 0 :: List.replicate n .rxLine)
include hs hg hi

/-- The exchange ends with the device's answer judged, once the answer is as long as expected (R185, R187). -/
theorem stepsTo_exchange (hf : s.inFlight = []) (ha : s.served op reg arg = (d, answer)) (hn : answer.length = n)
    (hx : explen op arg (answer.getD 1 0) = n) :
    stepsTo s.inputs.length s =
      some ((((s.awaiting op reg arg).withRx answer).complete.withInputs []).withLine d (s.servedLine op reg arg) []) := by
  have hlen : s.inputs.length = n + 1 + 1 + 1 := by simp [hi]
  have hjudged : (s.awaiting op reg arg).rxBytes answer = _ := rxBytes_exact rfl rfl (hx.trans hn.symm)
  rw [hlen, stepsTo_succ (step_requested hs hi), stepsTo_succ (step_awaiting hg), stepsTo_succ step_served, ha, hf, ← hjudged,
    ← hn]
  exact stepsTo_rxLines answer (s.awaiting op reg arg) d _

/-- Where no earlier request waits, the exchange is a run of R76's device: it acts at once. -/
theorem referenceRun_exchange (ho : s.deviceOwes = false) : referenceRun s.inputs.length s = true := by
  have hlen : s.inputs.length = n + 1 + 1 + 1 := by simp [hi]
  have hword : s.referenceMove = true := by simp [State.referenceMove, hi, ho]
  have hout : ((s.withInputs (.txFrame :: .deviceAct 0 :: List.replicate n .rxLine)).requested op reg arg).referenceMove = true :=
    congrArg not ho
  have hact : ((s.withInputs (.deviceAct 0 :: List.replicate n .rxLine)).awaiting op reg arg).referenceMove = true := by
    simp [State.referenceMove, State.awaiting, State.requested, Request.waiting]
  rw [hlen, referenceRun_succ hword (step_requested hs hi), referenceRun_succ hout (step_awaiting hg),
    referenceRun_succ hact step_served]
  exact referenceRun_rxLines n rfl (by simpa [State.deviceOwes, State.servedLine, State.withLine, Request.waiting] using ho)

end

end Sys2Proof.Machine
end

section
/-! The exchanges with the reference device, end to end: a read, a write, a read that the device refuses (O53 to O55). -/

namespace Sys2Proof.Machine

theorem complete_okRead {s : State} {vs : List Word}
    (h : dec s.cfg s.curOp s.curSa s.curReg s.curArg s.rxbuf = .okRead vs) : s.complete = s.succeed vs := by
  simp only [State.complete, h]

theorem complete_okWrite {s : State} (h : dec s.cfg s.curOp s.curSa s.curReg s.curArg s.rxbuf = .okWrite) :
    s.complete = s.succeed [] := by
  simp only [State.complete, h]

theorem complete_deviceException {s : State} {code : Byte}
    (h : dec s.cfg s.curOp s.curSa s.curReg s.curArg s.rxbuf = .deviceException code) :
    s.complete = s.raise (.deviceException code) := by
  simp only [State.complete, h]

theorem served_read {s : State} (h : s.device.addr = s.slaveAddr) (reg n : Word) :
    s.served .read reg n = s.device.onRead s.cfg reg.toNat n.toNat := by
  rw [State.served, ← h]
  exact onRequest_encRd ..

theorem served_write {s : State} (hc : s.cfg.wf = true) (h : s.device.addr = s.slaveAddr) (reg v : Word) :
    s.served .write reg v = s.device.onWrite s.cfg reg v := by
  rw [State.served, ← h]
  exact onRequest_encWr hc ..

/-- Settles O53: the answer carries the values, and the block takes them from it. -/
theorem readExchangeReturnsDeviceValues : Obligations.ReadExchangeReturnsDeviceValues := by
  intro s addr count hc hg hp hv hda hf h1 hmax h125 hread hi
  have hs := starts_rdhr hp hv addr h1 hmax
  have hlen := Memory.length_readMany s.device.regs addr.toNat count.toNat
  have hserved := (served_read hda addr count).trans (onRead_readable s.cfg h1 h125 hread)
  rw [hda] at hserved
  have hrun := stepsTo_exchange hs hg hi hf hserved (by rw [length_readResponse, hlen]) (explen_read hc count)
  rw [complete_okRead (dec_readResponse hc s.slaveAddr addr hlen h125)] at hrun
  exact ⟨_, hrun, rfl, rfl, rfl, rfl, rfl, rfl, referenceRun_exchange hs hg hi⟩

/-- Settles O54: the answer echoes the request, from the address the device had; the register table stores the value. -/
theorem writeExchangeStoresInDevice : Obligations.WriteExchangeStoresInDevice := by
  intro s addr value hc hg hp hv hda hf hwf hwrite hi
  have hs := starts_wrsr hp hv addr value
  have hserved := (served_write hc hda addr value).trans (onWrite_writable s.cfg hwrite value)
  rw [hda] at hserved
  have hrun := stepsTo_exchange hs hg hi hf hserved (length_encWr ..) (explen_write hc value)
  rw [complete_okWrite (dec_echo hc s.slaveAddr addr value)] at hrun
  exact ⟨_, hrun, rfl, rfl, rfl, rfl, Memory.read_write_self _ _ _ 0 hwf, fun a ha => Memory.read_write_ne _ _ 0 hwf ha,
    hda ▸ rfl, rfl, referenceRun_exchange hs hg hi⟩

/-- Settles O55: the answer is an exception response with code 2, whatever else the stretch holds. -/
theorem unreadableRegisterEndsInException : Obligations.UnreadableRegisterEndsInException := by
  intro s addr count hc hg hp hv hda hf h1 hmax hhole hi
  have hs := starts_rdhr hp hv addr h1 hmax
  have hserved := (served_read hda addr count).trans (onRead_unreadable s.cfg hhole)
  rw [hda] at hserved
  have hrun := stepsTo_exchange hs hg hi hf hserved (length_exceptionResponse ..) (explen_excFn ..)
  rw [complete_deviceException (dec_exceptionResponse s.cfg .read s.slaveAddr addr count 0x02)] at hrun
  exact ⟨_, hrun, rfl, rfl, rfl, rfl, rfl⟩

end Sys2Proof.Machine
end

section
/-! A write that is given up, and what may still become of it (O56). -/

namespace Sys2Proof.Machine

/-- `ELAPSED` counts without wrapping while time is left (R188). -/
theorem toNat_elapsed_succ {s : State} (h : s.elapsed.toNat < max s.curTo.toNat 1) :
    (s.elapsed + 1).toNat = s.elapsed.toNat + 1 := by
  have := s.curTo.isLt
  rw [BitVec.toNat_add, show (1 : BitVec 32).toNat = 1 from rfl, Nat.mod_eq_of_lt (by omega)]

/-- The tick that finds the time up is the last of `CUR_TO`, of which 0 counts as 1 (R188). -/
theorem curTo_le_iff {s : State} (h : s.elapsed.toNat < max s.curTo.toNat 1) :
    s.curTo ≤ s.elapsed + 1 ↔ s.elapsed.toNat + 1 = max s.curTo.toNat 1 := by
  rw [BitVec.le_def, toNat_elapsed_succ h]
  omega

/-- The tick counter at this value. -/
def State.withElapsed (n : BitVec 32) (s : State) : State := { s with elapsed := n }

section
variable {s : State} {l : List Input}

theorem step_tick_counts (hp : s.phase ≠ .idle) (h : ¬s.curTo ≤ s.elapsed + 1) :
    step (s.withInputs (.tick :: l)) = .next (s.count.withInputs l) := by
  have htick : (s.withInputs l).tick = _ := (if_neg hp).trans (if_neg h)
  exact (step_withInputs s .tick l).trans (congrArg Host.Outcome.next htick)

theorem step_tick_expires (hp : s.phase ≠ .idle) (h : s.curTo ≤ s.elapsed + 1) :
    step (s.withInputs (.tick :: l)) = .next ((s.count.raise .timeout).withInputs l) := by
  have htick : (s.withInputs l).tick = _ := (if_neg hp).trans (if_pos h)
  exact (step_withInputs s .tick l).trans (congrArg Host.Outcome.next htick)

end

/-- As many ticks as are left of the time, and nothing between them: the exchange ends in `Timeout`, and only `ELAPSED` has changed
besides (R188). -/
theorem stepsTo_ticks (n : Nat) {s : State} (l : List Input) (hp : s.phase ≠ .idle)
    (hn : s.elapsed.toNat + (n + 1) = max s.curTo.toNat 1) :
    ∃ e, stepsTo (n + 1) (s.withInputs (List.replicate (n + 1) .tick ++ l)) =
      some (((s.withElapsed e).raise .timeout).withInputs l) := by
  have hle := curTo_le_iff (s := s) (by omega)
  induction n generalizing s with
  | zero => exact ⟨_, stepsTo_succ (step_tick_expires hp (hle.mpr hn)) 0⟩
  | succ n ih =>
    have hleft : s.count.elapsed.toNat + (n + 1) = max s.count.curTo.toNat 1 := by
      rw [count_elapsed, count_curTo, toNat_elapsed_succ (by omega)]
      omega
    obtain ⟨e, he⟩ := ih (s := s.count) hp hleft (curTo_le_iff (by omega))
    exact ⟨e, (stepsTo_succ (step_tick_counts hp (mt hle.mp (by omega))) _).trans he⟩

/-- Settles O56: the ticks end the exchange without reaching the request on the line, so the device may act on it afterwards. -/
theorem timedOutWriteMayStillLand : Obligations.TimedOutWriteMayStillLand := by
  intro s addr value later hc hg hp hv hda hwf hwrite hi
  obtain ⟨n, hn⟩ : ∃ n, max s.timeout.toNat 1 = n + 1 := ⟨max s.timeout.toNat 1 - 1, by omega⟩
  rw [hn] at hi
  obtain ⟨e, hticks⟩ := stepsTo_ticks n (s := s.awaiting .write addr value) (.deviceAct 0 :: later) nofun
    ((Nat.zero_add _).trans hn.symm)
  have hrun : stepsTo (n + 1 + 1 + 1) s = _ :=
    (stepsTo_succ (step_requested (starts_wrsr hp hv addr value) hi) _).trans ((stepsTo_succ (step_awaiting hg) _).trans hticks)
  have hact := step_deviceAct (l := later) (s := ((s.awaiting .write addr value).withElapsed e).raise .timeout)
    (k := 0) (r := ⟨encWr s.cfg s.slaveAddr addr value, false⟩) rfl (length_encWr ..) rfl
  have hlanded : (s.served .write addr value).1.regs.read addr.toNat = value := by
    rw [served_write hc hda, onWrite_writable s.cfg hwrite]
    exact Memory.read_write_self _ _ _ 0 hwf
  rw [hn, show 2 + (n + 1) = n + 1 + 1 + 1 by omega]
  exact ⟨_, _, hrun, hact, rfl, rfl, rfl, hlanded, rfl, rfl, rfl⟩

end Sys2Proof.Machine
end

section
/-! A word at the ready port that is no command: its opcode names none, or it has a 1 in a bit that carries no operand (O4). -/

namespace Sys2Proof.Machine

/-! ### What the decoder rejects (R103) -/

/-- The opcode as the shift that leaves the top byte of the word (R101). -/
theorem toNat_ushiftRight_opcode (w : BitVec 40) : (w >>> 32).toNat = (cmdOp w).toNat := by
  rw [toNat_cmdOp, BitVec.toNat_ushiftRight, Nat.shiftRight_eq_div_pow]

theorem decodeWord_illegalOpcode {w : BitVec 40} (h : (cmdOp w).toNat = 0 ∨ 0x0B ≤ (cmdOp w).toNat) :
    decodeWord w = .error .illegalOpcode := by
  unfold decodeWord
  split
  case h_11 => rfl
  all_goals omega

/-- A mask acts on the fields of a command word one by one. -/
theorem and_cmdWord (w : BitVec 40) (op : Byte) (a b : Word) :
    w &&& cmdWord op a b = cmdWord (cmdOp w &&& op) (cmdA w &&& a) (cmdB w &&& b) := by
  conv_lhs => rw [← cmdWord_fields w]
  exact BitVec.and_append.trans (congrArg (· ++ (cmdB w &&& b)) BitVec.and_append)

theorem and_cmdWord_eq_zero {w : BitVec 40} {a b : Word} (ha : cmdA w &&& a = 0) (hb : cmdB w &&& b = 0) :
    w &&& cmdWord 0 a b = 0 := by
  rw [and_cmdWord, ha, hb, show cmdOp w &&& 0 = 0 from BitVec.and_zero]
  rfl

/-- A field found zero has nothing under any mask. -/
theorem and_mask_zero {a m : Word} (h : (a == 0) = true) : a &&& m = 0 := by simp [beq_iff_eq.mp h]

/-- A field with an index in its low four bits and zeros above has nothing under the mask of those above. -/
theorem and_mask_idx {a : Word} (h : (a.extractLsb' 4 12 == 0) = true) : a &&& 0xFFF0 = 0 := by
  have low : ∀ v : BitVec 4, (v.setWidth 16 : Word) &&& 0xFFF0 = 0 := by decide
  rw [← setWidth_low_idx (beq_iff_eq.mp h)]
  exact low _

/-- The same for a field with one byte in it. -/
theorem and_mask_hi8 {b : Word} (h : (hi8 b == 0) = true) : b &&& 0xFF00 = 0 := by
  have low : ∀ v : Byte, (v.setWidth 16 : Word) &&& 0xFF00 = 0 := by decide
  rw [← setWidth_lo8 (beq_iff_eq.mp h)]
  exact low _

/-- Where a 1 stands under a mask, the decoder's check of the one field fails that the mask covers. -/
theorem unlessReserved_masked_field {w : BitVec 40} {m : Word} {za : Bool} {i : Instr} (hw : w &&& cmdWord 0 m 0 ≠ 0)
    (ha : za = true → cmdA w &&& m = 0) : unlessReserved za i = .error .reservedBits :=
  if_neg fun hz => hw (and_cmdWord_eq_zero (ha hz) BitVec.and_zero)

/-- The same where the mask covers both fields: one of the two checks fails. -/
theorem unlessReserved_masked_fields {w : BitVec 40} {m n : Word} {za zb : Bool} {i : Instr} (hw : w &&& cmdWord 0 m n ≠ 0)
    (ha : za = true → cmdA w &&& m = 0) (hb : zb = true → cmdB w &&& n = 0) :
    unlessReserved (za && zb) i = .error .reservedBits :=
  if_neg fun hz => by
    obtain ⟨hza, hzb⟩ := Bool.and_eq_true_iff.mp hz
    exact hw (and_cmdWord_eq_zero (ha hza) (hb hzb))

/-- A word of the table's opcodes with a 1 in a bit that carries no operand (R102): one case for each kind of row. -/
theorem decodeWord_reservedBits {w : BitVec 40} (h1 : 1 ≤ (cmdOp w).toNat) (h10 : (cmdOp w).toNat ≤ 0x0A)
    (hw : w &&& Claims.reservedMask (cmdOp w).toNat ≠ 0) : decodeWord w = .error .reservedBits := by
  unfold decodeWord
  split <;> rename_i hop
  case h_11 =>
    exfalso
    interval_cases h : (cmdOp w).toNat <;> contradiction
  all_goals rw [hop] at hw
  case h_1 | h_2 | h_5 => exact absurd BitVec.and_zero hw
  case h_3 | h_4 => exact unlessReserved_masked_field (m := 0xFFF0) hw and_mask_idx
  case h_6 | h_8 => exact unlessReserved_masked_fields (m := 0xFFFF) (n := 0xFFFF) hw and_mask_zero and_mask_zero
  case h_7 | h_10 => exact unlessReserved_masked_fields (m := 0xFFFF) (n := 0xFF00) hw and_mask_zero and_mask_hi8
  case h_9 => exact unlessReserved_masked_fields (m := 0xFFF0) (n := 0xFFFF) hw and_mask_idx and_mask_zero

/-! ### What the port makes of it (R171) -/

/-- A word refused at the ready port changes the result registers alone. -/
theorem atPort_refuse {s : State} (hp : s.phase = .idle) (why : BadCommand) :
    atPort (State.refuse why) s = .next (Claims.refused why.code s) := by
  rw [atPort_idle hp]
  cases s
  cases hp
  rfl

/-- The presentation of a word that does not decode. -/
theorem step_refuseWord {s : State} {w : BitVec 40} {rest : List Input} {e : DecodeError}
    (hi : s.inputs = .hostWrite 0 w :: rest) (hd : decodeWord w = .error e) :
    step s = refuseWord e (s.withInputs rest) := by
  rw [step_cons hi, runInput, if_pos rfl, runWord, decode, hd]

/-- Settles O4: each clause is one way the word fails to decode. -/
theorem illegalAndReservedWordsRefused : Obligations.IllegalAndReservedWordsRefused := by
  intro s w rest hp hi
  rw [toNat_ushiftRight_opcode]
  have hport := atPort_refuse (s := s.withInputs rest) hp
  exact ⟨fun h => (step_refuseWord hi (decodeWord_illegalOpcode h)).trans (hport .illegalOpcode),
    fun h1 h10 hm => (step_refuseWord hi (decodeWord_reservedBits h1 h10 hm)).trans (hport .reservedBits)⟩

end Sys2Proof.Machine
end

section
/-! How the receiver cuts a response out of the bytes it is given (O32), and which one it takes for the echo of a write (O36). -/

namespace Sys2Proof.Machine

/-! ### The cut by content (R106, R138) -/

theorem responseLength_eq_explen (op : Op) (arg : Word) (f : Byte) : Claims.responseLength op arg f = explen op arg f := by
  cases op <;> rfl

/-- `COMPLETE` writes the result of `DEC` into the result registers, and nothing else (R187). -/
theorem complete_eq_judged (s : State) :
    s.complete = Claims.judged (dec s.cfg s.curOp s.curSa s.curReg s.curArg s.rxbuf) s := by
  unfold State.complete
  cases dec s.cfg s.curOp s.curSa s.curReg s.curArg s.rxbuf with
  | frame sub => cases sub <;> rfl
  | okRead _ | okWrite | deviceException _ | echoMismatch => rfl

/-- Settles O32: too few bytes wait in `RXBUF`, of enough bytes the expected ones are judged. -/
theorem receivedBytesCutByContent : Obligations.ReceivedBytesCutByContent := by
  intro s bytes rest hp hr hi
  have hstep : step s = .next ((s.withInputs rest).rxBytes bytes) := (step_cons hi).trans (runResponse_eq ..)
  rw [hstep, responseLength_eq_explen]
  refine ⟨fun hfew => ?_, fun _ henough => ?_⟩
  · exact congrArg _ (rxBytes_short bytes (s.withInputs rest) hp hr hfew)
  · exact congrArg _ ((rxBytes_cut bytes (s.withInputs rest) hp hr henough).trans (complete_eq_judged _))

/-! ### The echo of a write (R98, R141) -/

/-- The fields compared are the third to sixth byte of the frame. -/
theorem decWr_eq_okWrite {reg v : Word} {a f r1 r0 v1 v0 : Byte} {rest : List Byte} :
    decWr reg v (a :: f :: r1 :: r0 :: v1 :: v0 :: rest) = .okWrite ↔ fromBe16 r1 r0 = reg ∧ fromBe16 v1 v0 = v := by
  simp only [decWr, List.getD_cons_zero, List.getD_cons_succ]
  split
  next h => exact ⟨nofun, fun ⟨hr, hv⟩ => h.elim (absurd hr) (absurd hv)⟩
  next h => exact ⟨fun _ => by simpa using h, fun _ => rfl⟩

/-- A frame of eight bytes, from its length. -/
theorem eq_of_length_eight : ∀ {s : List Byte}, s.length = 8 →
    ∃ a f r1 r0 v1 v0 c0 c1, s = [a, f, r1, r0, v1, v0, c0, c1]
  | [a, f, r1, r0, v1, v0, c0, c1], _ => ⟨a, f, r1, r0, v1, v0, c0, c1, rfl⟩

/-- What `DEC` accepts of a write has passed the checks that come before the function's (R139). -/
theorem verify_address_of_dec_okWrite {c : Config} {op : Op} {sa : Byte} {reg arg : Word} {s : List Byte}
    (h : dec c op sa reg arg s = .okWrite) : verify c s = true ∧ s.getD 0 0 = sa := by
  unfold dec at h
  split at h
  · cases h
  split at h
  · cases h
  next hverify =>
  split at h
  · cases h
  next haddress => exact ⟨by simpa using hverify, not_not.mp haddress⟩

/-- The checks leave no byte of the request's echo open. -/
theorem eq_encWr_of_dec_okWrite {c : Config} (hc : c.wf = true) {sa : Byte} {reg v : Word} {s : List Byte}
    (h : dec c .write sa reg v s = .okWrite) : s = encWr c sa reg v := by
  obtain ⟨hverify, haddress⟩ := verify_address_of_dec_okWrite h
  rcases dec_cases c .write sa reg v s with ⟨_, e⟩ | ⟨_, e⟩ | ⟨hlength, hfunction, e⟩
  · cases e.symm.trans h
  · cases e.symm.trans h
  rw [hfunction, fnOf, explen_write hc] at hlength
  obtain ⟨a, f, r1, r0, v1, v0, c0, c1, rfl⟩ := eq_of_length_eight hlength
  obtain rfl : a = sa := haddress
  obtain rfl : f = c.fnWrite := hfunction
  have hcrc : crc16 c [a, c.fnWrite, r1, r0, v1, v0] = fromLe16 c0 c1 :=
    eq_of_beq ((verify_append_pair c [a, c.fnWrite, r1, r0, v1, v0] c0 c1).symm.trans hverify)
  have hecho : decWr reg v [a, c.fnWrite, r1, r0, v1, v0, c0, c1] = .okWrite := e.symm.trans h
  obtain ⟨rfl, rfl⟩ := decWr_eq_okWrite.mp hecho
  simp [encWr, trailer, be16, le16, hcrc]

/-- Settles O36: the request's echo is accepted, and nothing else is. -/
theorem echoAcceptedExactlyWhenEqual : Obligations.EchoAcceptedExactlyWhenEqual := by
  intro c sa reg v s hc
  exact ⟨eq_encWr_of_dec_okWrite hc, fun h => h ▸ dec_echo hc sa reg v⟩

end Sys2Proof.Machine
end

section
/-! A request frame as one instruction: it goes out whole, or its rest does, or nothing (O26, O27). -/

namespace Sys2Proof.Machine

section
variable {s : State} {frame : List Byte}

/-- The whole frame goes out from the start of `TXBUF` (R182). -/
theorem sendRequest_whole (hl : frame.length = 8) (hp : s.phase = .tx) (hg : s.cfg.txGuardTicks.toNat ≤ s.elapsed.toNat)
    (hb : s.txbuf = frame) (h0 : s.txidx = 0) :
    s.sendRequest frame = s.sentTo (⟨frame, false⟩ :: s.sent) 8 .rx := by
  subst hb
  exact (if_pos rfl).trans (txFrame_whole s hp hg hl h0)

/-- Of a frame that has begun to go out the rest follows (R182). -/
theorem sendRequest_rest {r : Request} {older : List Request} (hl : frame.length = 8) (hp : s.phase = .tx)
    (hg : s.cfg.txGuardTicks.toNat ≤ s.elapsed.toNat) (hb : s.txbuf = frame) (h0 : 0 < s.txidx.toNat) (h8 : s.txidx.toNat < 8)
    (hs : s.sent = r :: older) :
    s.sendRequest frame = s.sentTo ({ r with bytes := r.bytes ++ frame.drop s.txidx.toNat } :: older) 8 .rx := by
  subst hb
  exact (if_pos rfl).trans (txBytes_rest 8 s r older hp hg hl h0 h8 (Nat.le_add_left ..) hs)

/-- Nothing goes out outside `TX`, within the guard interval, or of another frame (R75, R105, R182). -/
theorem sendRequest_nothing
    (h : s.phase ≠ .tx ∨ s.elapsed.toNat < s.cfg.txGuardTicks.toNat ∨ s.txbuf ≠ frame) : s.sendRequest frame = s := by
  by_cases hb : s.txbuf = frame
  · have hidle : ¬(s.phase = .tx ∧ s.cfg.txGuardTicks ≤ s.elapsed) := by
      rintro ⟨hp, hg⟩
      rcases h with h | h | h
      · exact h hp
      · exact Nat.not_le.mpr h hg
      · exact h hb
    exact (if_pos hb).trans (txBytes_idle hidle 8)
  · exact if_neg hb

end

/-- Settles O26: the read request is eight bytes long, so each clause is what the block does with such a frame. -/
theorem readRequestGoesOut : Obligations.ReadRequestGoesOut := fun _ _ _ _ _ =>
  ⟨fun hp hg hb h0 => congrArg Host.Outcome.next (sendRequest_whole rfl hp hg hb h0),
    fun _ _ hp hg hb h0 h8 hs => congrArg Host.Outcome.next (sendRequest_rest rfl hp hg hb h0 h8 hs),
    fun h => congrArg Host.Outcome.next (sendRequest_nothing h)⟩

/-- Settles O27: the write request is eight bytes long too. -/
theorem writeRequestGoesOut : Obligations.WriteRequestGoesOut := fun _ _ _ _ _ =>
  ⟨fun hp hg hb h0 => congrArg Host.Outcome.next (sendRequest_whole rfl hp hg hb h0),
    fun _ _ hp hg hb h0 h8 hs => congrArg Host.Outcome.next (sendRequest_rest rfl hp hg hb h0 h8 hs),
    fun h => congrArg Host.Outcome.next (sendRequest_nothing h)⟩

end Sys2Proof.Machine
end

section
/-! A response frame as one instruction, received by a waiting exchange (O28 to O31). -/

namespace Sys2Proof.Machine

/-! ### The checks after the address: the function, then the fields (R139) -/

/-- What `DEC` makes of a frame `s` with this function byte, once length, checksum and address are found good. -/
def decFunction (c : Config) (op : Op) (reg arg : Word) (f : Byte) (s : List Byte) : DecResult :=
  if f = excFn (fnOf c op) then decExc s else if f ≠ fnOf c op then .frame .function else decData op reg arg s

theorem fnOf_injective {c : Config} (hc : c.wf = true) {op op' : Op} (h : fnOf c op = fnOf c op') : op = op' := by
  obtain ⟨hne, -, -⟩ := Config.wf_codes hc
  cases op <;> cases op'
  · rfl
  · exact absurd h hne
  · exact absurd h.symm hne
  · rfl

section
variable {c : Config} (hc : c.wf = true)
include hc

/-- The request's own function brings its fields to be checked. -/
theorem decFunction_fnOf (op : Op) (reg arg : Word) (s : List Byte) :
    decFunction c op reg arg (fnOf c op) s = decData op reg arg s :=
  (if_neg (excFn_ne (fnOf_msb hc op)).symm).trans (if_neg (not_not_intro rfl))

/-- An exception form answers the operation it is of, and no other (R142). -/
theorem decFunction_excFn (op op' : Op) (reg arg : Word) (s : List Byte) :
    decFunction c op reg arg (excFn (fnOf c op')) s = if op = op' then decExc s else .frame .function := by
  by_cases h : op = op'
  · subst h
    exact (if_pos rfl).trans (if_pos rfl).symm
  · have hx : excFn (fnOf c op') ≠ excFn (fnOf c op) := fun e =>
      h (fnOf_injective hc (excFn_inj (fnOf_msb hc op') (fnOf_msb hc op) e)).symm
    exact (if_neg hx).trans ((if_pos (excFn_ne (fnOf_msb hc op))).trans (if_neg h).symm)

/-- As many values as asked for: the byte-count decides (R140). -/
theorem decFunction_readResponse {op : Op} (hop : op = .read) (sa bc : Byte) (reg : Word) {n : Word} {vs : List Word}
    (hn : vs.length = n.toNat) (trailing : List Byte) :
    decFunction c op reg n c.fnRead (sa :: c.fnRead :: bc :: wordsBytes vs ++ trailing) =
      if bc.toNat ≠ 2 * vs.length then .frame .byteCount else .okRead vs := by
  subst hop
  refine (decFunction_fnOf hc .read reg n _).trans ?_
  rw [decData, decRd, ← hn]
  simp [List.take_left' (length_wordsBytes vs)]

/-- The echoed register and value decide (R141). -/
theorem decFunction_writeResponse {op : Op} (hop : op = .write) (sa : Byte) (reg v reg' v' : Word) (trailing : List Byte) :
    decFunction c op reg v c.fnWrite ([sa, c.fnWrite, hi8 reg', lo8 reg', hi8 v', lo8 v'] ++ trailing) =
      if reg' ≠ reg ∨ v' ≠ v then .echoMismatch else .okWrite := by
  subst hop
  refine (decFunction_fnOf hc .write reg v _).trans ?_
  simp [decData, decWr]

end

/-! ### The state that each frame leaves (R187) -/

theorem judged_ite {p : Prop} [Decidable p] {a b : DecResult} (s : State) :
    Claims.judged (if p then a else b) s = if p then Claims.judged a s else Claims.judged b s :=
  apply_ite (Claims.judged · s) p a b

/-- A frame of the expected length ends the exchange by the first check that fails; `q` is the last one, between the results `a`
and `b`. -/
theorem rxBytes_response {s : State} (hp : s.phase = .rx) (hr : s.rxbuf = []) {sa f : Byte} {rest : List Byte} {crc : Word}
    {q : Prop} [Decidable q] {a b : DecResult} (hl : explen s.curOp s.curArg f = rest.length + 4)
    (hd : decFunction s.cfg s.curOp s.curReg s.curArg f (sa :: f :: rest ++ [lo8 crc, hi8 crc]) = if q then a else b) :
    s.rxBytes (sa :: f :: rest ++ [lo8 crc, hi8 crc]) =
      let t := s.withRx (sa :: f :: rest ++ [lo8 crc, hi8 crc])
      if crc16 s.cfg (sa :: f :: rest) ≠ crc then Claims.failed 3 2 0 0 t
      else if sa ≠ s.curSa then Claims.failed 3 3 0 0 t
      else if q then Claims.judged a t
      else Claims.judged b t := by
  have hdec := dec_of_body s.cfg s.curOp s.curSa s.curReg s.curArg (sa :: f :: rest) crc _ sa f rfl rfl rfl hl
  rw [← decFunction, hd] at hdec
  rw [rxBytes_exact hp hr (by simpa using hl), complete_eq_judged]
  simp only [withRx_cfg, withRx_curOp, withRx_curSa, withRx_curReg, withRx_curArg, withRx_rxbuf, hdec, judged_ite]
  rfl

/-- Settles O28: the last check is that of the byte-count. -/
theorem readResponseReceived : Obligations.ReadResponseReceived := by
  intro s sa bc vs crc hc hp hr hop _ hn
  have hl : explen s.curOp s.curArg s.cfg.fnRead = (bc :: wordsBytes vs).length + 4 := by
    rw [hop, explen_read hc, List.length_cons, length_wordsBytes]
    omega
  exact congrArg Host.Outcome.next (rxBytes_response hp hr hl (decFunction_readResponse hc hop sa bc s.curReg hn _))

/-- Settles O29: the last check is that of the echo. -/
theorem writeResponseReceived : Obligations.WriteResponseReceived := by
  intro s sa reg v crc hc hp hr hop
  have hl : explen s.curOp s.curArg s.cfg.fnWrite = 8 := hop ▸ explen_write hc s.curArg
  exact congrArg Host.Outcome.next (rxBytes_response hp hr hl (decFunction_writeResponse hc hop sa s.curReg s.curArg reg v _))

/-- Settles O30: the last check is that of the function, here the read's. -/
theorem readExceptionReceived : Obligations.ReadExceptionReceived := fun s _ _ _ hc hp hr =>
  congrArg Host.Outcome.next (rxBytes_response hp hr (explen_excFn ..) (decFunction_excFn hc s.curOp .read ..))

/-- Settles O31: the last check is that of the function, here the write's. -/
theorem writeExceptionReceived : Obligations.WriteExceptionReceived := fun s _ _ _ hc hp hr =>
  congrArg Host.Outcome.next (rxBytes_response hp hr (explen_excFn ..) (decFunction_excFn hc s.curOp .write ..))

end Sys2Proof.Machine
end

section
/-! What the checksum detects, and which frames the codec accepts (O34, O35). -/

namespace Sys2Proof.Machine

/-! ### The checksum (R132) -/

theorem verify_iff (c : Config) (s : List Byte) : verify c s = true ↔ crc16 c (s.take (s.length - 2)) = carriedCrc s :=
  beq_iff_eq

theorem exists_append_pair {s : List Byte} (h : 2 ≤ s.length) : ∃ body a b, s = body ++ [a, b] := by
  obtain ⟨a, b, hab⟩ : ∃ a b, s.drop (s.length - 2) = [a, b] := List.length_eq_two.mp (by rw [List.length_drop]; omega)
  exact ⟨s.take (s.length - 2), a, b, by rw [← hab, List.take_append_drop]⟩

/-- With R130's procedure a frame passes exactly when the checksum runs to zero over its trailer. -/
theorem verify_iff_crc16_eq_zero {c : Config} (hc : c.crcLsbFirst = true) (hx : c.crcXorOut = 0) {s : List Byte}
    (h : 2 ≤ s.length) : verify c s = true ↔ crc16 c s = 0 := by
  obtain ⟨body, a, b, rfl⟩ := exists_append_pair h
  have hcrc : ∀ l, crc16 c l = crcFrom c Config.crcInit l := fun l => by simp [crc16, hx]
  rw [verify_append_pair, beq_iff_eq, hcrc, hcrc, crcFrom_append, crcFrom_pair_eq_zero hc]

section
variable {g : Byte → Byte} {s : List Byte} {j : Nat}

theorem carriedCrc_modify_body (h : j < s.length - 2) : carriedCrc (s.modify j g) = carriedCrc s := by
  have hget : ∀ k, j < k → (s.modify j g).getD k 0 = s.getD k 0 := fun k hk => by
    rw [List.getD_eq_getElem?_getD, List.getElem?_modify_ne g s hk.ne, List.getD_eq_getElem?_getD]
  rw [carriedCrc, carriedCrc, List.length_modify, hget _ h, hget _ (by omega)]

theorem carriedCrc_modify_trailer (hg : ∀ b, g b ≠ b) (h2 : 2 ≤ s.length) (hj : s.length - 2 ≤ j) (hlt : j < s.length) :
    carriedCrc (s.modify j g) ≠ carriedCrc s := by
  have hself : (s.modify j g).getD j 0 ≠ s.getD j 0 := by
    simpa [List.getD_eq_getElem?_getD, List.getElem?_eq_getElem hlt] using hg s[j]
  intro h
  rw [carriedCrc, carriedCrc, List.length_modify, fromLe16_inj] at h
  obtain ⟨hlow, hhigh⟩ := h
  obtain rfl | rfl : j = s.length - 2 ∨ j = s.length - 1 := by omega
  · exact hself hlow
  · exact hself hhigh

/-- One changed byte of a good frame is detected, in the body by its checksum, in the trailer by the comparison. -/
theorem verify_modify {c : Config} (hg : ∀ b, g b ≠ b) (h2 : 2 ≤ s.length) (hj : j < s.length) (hv : verify c s = true) :
    verify c (s.modify j g) = false := by
  rw [verify_iff] at hv
  rw [← Bool.not_eq_true, verify_iff, List.length_modify, List.take_modify]
  by_cases hbody : j < s.length - 2
  · rw [carriedCrc_modify_body hbody, ← hv]
    exact crc16_modify_ne c g hg _ j (by rw [List.length_take]; omega)
  · rw [List.modify_eq_self (by rw [List.length_take]; omega), hv]
    exact (carriedCrc_modify_trailer hg h2 (by omega) hj).symm

end

theorem xor_twoPow_ne {k : Nat} (hk : k < 8) (b : Byte) : b ^^^ BitVec.twoPow 8 k ≠ b := by
  intro h
  have := congrArg (BitVec.getLsbD · k) h
  simp [hk] at this

/-- Settles O34: the comparison is `VERIFY`'s definition; a flipped bit is a changed byte. -/
theorem checksumDetectsSingleBitErrors : Obligations.ChecksumDetectsSingleBitErrors := fun c s h2 =>
  ⟨verify_iff c s, fun hc hx => verify_iff_crc16_eq_zero hc hx h2,
    fun _ _ hj hk hv => verify_modify (xor_twoPow_ne hk) h2 hj hv⟩

/-! ### The frames that are accepted (R143) -/

/-- A result without an error. -/
def DecResult.isOk : DecResult → Bool
  | .okRead _ | .okWrite => true
  | .frame _ | .deviceException _ | .echoMismatch => false

theorem DecResult.isOk_iff {r : DecResult} : r.isOk = true ↔ (∃ vs, r = .okRead vs) ∨ r = .okWrite := by
  cases r <;> simp [DecResult.isOk]

/-- What is accepted has passed every check before that of the fields (R139). -/
theorem checks_of_dec_isOk {c : Config} {op : Op} {sa : Byte} {reg arg : Word} {s : List Byte}
    (h : (dec c op sa reg arg s).isOk = true) :
    s.length = explen op arg (s.getD 1 0) ∧ verify c s = true ∧ s.getD 0 0 = sa ∧ s.getD 1 0 = fnOf c op := by
  unfold dec at h
  split at h
  · cases h
  next hlength =>
  split at h
  · cases h
  next hverify =>
  split at h
  · cases h
  next haddress =>
  split at h
  · cases h
  split at h
  · cases h
  next hfunction =>
  exact ⟨by omega, by simpa using hverify, not_not.mp haddress, not_not.mp hfunction⟩

/-- Settles O35: what the block builds is accepted; what is accepted has passed the checks, which another address, another
function or a flipped bit does not. -/
theorem codecProperties : Obligations.CodecProperties := by
  intro c hc
  refine ⟨dec_echo hc, ?_, ?_⟩
  · intro sa reg vs _ h125
    have hn : (BitVec.ofNat 16 vs.length).toNat = vs.length := by
      rw [BitVec.toNat_ofNat]
      omega
    exact dec_readResponse hc sa reg hn.symm (hn.le.trans h125)
  · intro op sa reg arg s
    simp only [← DecResult.isOk_iff, responseLength_eq_explen]
    refine ⟨?_, ?_, checks_of_dec_isOk⟩
    · intro hne hok
      obtain ⟨-, -, haddress, hfunction⟩ := checks_of_dec_isOk hok
      exact hne.elim (absurd haddress) (absurd hfunction)
    · intro j k hj hk hok hflipped
      obtain ⟨hlength, hverify, -, -⟩ := checks_of_dec_isOk hok
      obtain ⟨-, hverify', -, -⟩ := checks_of_dec_isOk hflipped
      have h5 := five_le_explen op arg (s.getD 1 0)
      have hdetected := verify_modify (xor_twoPow_ne hk) (by omega) hj hverify
      cases hdetected.symm.trans hverify'

end Sys2Proof.Machine
end

section
/-! What the commands do at the ready port, and that the busy port waits (O6, O8 to O15). -/

namespace Sys2Proof.Machine

/-- Settles O6: a word at the busy port leaves the machine as it is. -/
theorem busyPortLeavesStateAlone : Obligations.BusyPortLeavesStateAlone := by
  intro s w rest hp hi
  rw [step_cons hi, runInput, if_pos rfl]
  exact runWord_busy (s := s.withInputs rest) hp w

/-! ### The checks of a command just accepted, in the states that the rules write out -/

section
variable {s : State} (hp : s.phase = .idle)
include hp

theorem refuse_cleared (why : BadCommand) : s.cleared.refuse why = Claims.refused why.code s :=
  Host.Outcome.next.inj ((atPort_idle hp _).symm.trans (atPort_refuse hp why))

theorem configured_cleared (run : State → State) :
    configured run s.cleared = if s.saValid = false then Claims.refused 3 s else run s.cleared := by
  rcases configured_cases run s.cleared with ⟨hv, e⟩ | ⟨hv, e⟩ <;> rw [e]
  · exact (if_neg (Bool.not_eq_false _ ▸ hv)).symm
  · exact (refuse_cleared hp .notConfigured).trans (if_pos hv).symm

theorem countInRange_cleared (n : Word) (run : State → State) :
    countInRange n run s.cleared =
      if n.toNat = 0 ∨ s.cfg.maxReadCount < n.toNat then Claims.refused 4 s else run s.cleared := by
  rcases countInRange_cases n run s.cleared with ⟨hn, e⟩ | ⟨hn, e⟩ <;> rw [e] <;> rw [cleared_cfg] at hn
  · exact (if_neg (by omega)).symm
  · exact (refuse_cleared hp .badCount).trans (if_pos (by omega)).symm

end

/-! ### The ROM entry of an index, by the map written out (R221) -/

theorem romEntry_addr (c : Config) (idx : BitVec 4) : (romEntry c idx).addr = Claims.address (Claims.nameAt c idx) := by
  unfold romEntry Claims.nameAt
  cases c.romOrder.getD idx.toNat .tempCurrent <;> rfl

theorem romEntry_access_code (c : Config) (idx : BitVec 4) :
    (romEntry c idx).access.code = Claims.access (Claims.nameAt c idx) := by
  unfold romEntry Claims.nameAt
  cases c.romOrder.getD idx.toNat .tempCurrent <;> rfl

theorem Access.code_inj {m m' : Access} : m.code = m'.code ↔ m = m' := by cases m <;> cases m' <;> decide

theorem accessAllowed_cleared {s : State} (hp : s.phase = .idle) (idx : BitVec 4) (m : Access) (run : State → State) :
    accessAllowed idx m run s.cleared =
      if s.cfg.romEnforceAccess = true ∧ Claims.access (Claims.nameAt s.cfg idx) = m.code then Claims.refused 5 s
      else run s.cleared := by
  have hdenied : (s.cfg.romEnforceAccess = true ∧ Claims.access (Claims.nameAt s.cfg idx) = m.code) ↔
      (romEntry s.cfg idx).access = m ∧ s.cfg.romEnforceAccess = true := by
    rw [← romEntry_access_code, Access.code_inj, and_comm]
  rcases accessAllowed_cases idx m run s.cleared with ⟨h, e⟩ | ⟨h, e⟩ <;> rw [e]
  · exact (refuse_cleared hp .accessDenied).trans (if_pos (hdenied.mpr h)).symm
  · exact (if_neg (mt hdenied.mp h)).symm

/-! ### The exchange commands (R172 to R175) -/

/-- Step `START` after acceptance, its request written out (R93, R94, R181). -/
theorem start_cleared (op : Op) (reg arg : Word) (s : State) : s.cleared.start op reg arg = Claims.started op reg arg s := by
  cases op <;> rfl

/-- Settles O8: the two checks, then the start. -/
theorem rdhrOutcome : Obligations.RdhrOutcome := by
  intro s addr count hp
  have hport : exec (.rdhr addr count) s = .next (configured (countInRange count (State.start .read addr count)) s.cleared) :=
    atPort_idle hp _
  rw [hport, configured_cleared hp, countInRange_cleared hp, start_cleared]

/-- Settles O9: the one check, then the start. -/
theorem wrsrOutcome : Obligations.WrsrOutcome := by
  intro s addr value hp
  have hport : exec (.wrsr addr value) s = .next (configured (State.start .write addr value) s.cleared) := atPort_idle hp _
  rw [hport, configured_cleared hp, start_cleared]

/-- Settles O10: the three checks, then the start at the entry's address. -/
theorem rdregOutcome : Obligations.RdregOutcome := by
  intro s idx count hp
  have hport : exec (.rdreg idx count) s = .next (configured (countInRange count
      (accessAllowed idx .w (State.start .read (romEntry s.cfg idx).addr count))) s.cleared) := atPort_idle hp _
  rw [hport, configured_cleared hp, countInRange_cleared hp, accessAllowed_cleared hp, start_cleared, romEntry_addr]
  rfl

/-- Settles O11: the two checks of a write, then the start at the entry's address. -/
theorem wrregOutcome : Obligations.WrregOutcome := by
  intro s idx value hp
  have hport : exec (.wrreg idx value) s = .next (configured
      (accessAllowed idx .r (State.start .write (romEntry s.cfg idx).addr value)) s.cleared) := atPort_idle hp _
  rw [hport, configured_cleared hp, accessAllowed_cleared hp, start_cleared, romEntry_addr]
  rfl

/-! ### The session commands (R176 to R179) -/

/-- Settles O12: `TIMEOUT` holds the low bits of the operand, with the default width all of them. -/
theorem settoStoresTimeout : Obligations.SettoStoresTimeout := by
  intro s ticks hp
  have hport : exec (.setto ticks) s =
      .next { Claims.accepted s with timeout := timeoutBits s.cfg ticks, done := true } := by
    rw [exec, execSetto, atPort_idle hp]
    rfl
  exact ⟨fun hw => by rw [hport, timeoutBits_full hw], by rw [hport, timeoutBits_eq]⟩

/-- Settles O13: acceptance has cleared every result register that `GETTO` does not write. -/
theorem gettoReturnsTimeout : Obligations.GettoReturnsTimeout := fun _ hp => atPort_idle hp _

/-- Settles O14: no operand of `SETSA` is refused. -/
theorem setsaStoresAddress : Obligations.SetsaStoresAddress := by
  intro s sa hp
  rw [exec, execSetsa, atPort_idle hp]
  rfl

/-- Settles O15: the one check, then the answer. -/
theorem getsaReturnsAddress : Obligations.GetsaReturnsAddress := by
  intro s hp
  have hport : exec .getsa s =
      .next (configured (fun t => t.answer (t.slaveAddr.setWidth 32) 0) s.cleared) := atPort_idle hp _
  have hzext : s.slaveAddr.setWidth 32 = 0#24 ++ s.slaveAddr := BitVec.setWidth_eq_append (by decide)
  rw [hport, configured_cleared hp, cleared_slaveAddr, hzext]
  rfl

end Sys2Proof.Machine
end

section
/-! The steps of a running exchange: transmitting, receiving, the timer, the link (O18 to O23, O25, O44). -/

namespace Sys2Proof.Machine

/-! ### Transmitting (R182) -/

theorem txidx_succ_eq_eight {i : BitVec 4} : i + 1 = 8 ↔ i = 7 := by revert i; decide

/-- Settles O18: one readiness is one `TXBYTE`, or nothing. -/
theorem transmitStep : Obligations.TransmitStep := by
  intro s rest hi
  have hstep : step s = .next (s.withInputs rest).txByte := step_cons hi
  refine ⟨fun hp hg => ⟨_, hstep, ?_⟩, fun hidle => ?_⟩
  · have hsends : (s.withInputs rest).txByte = _ := if_pos ⟨hp, hg⟩
    rw [hsends]
    refine ⟨rfl, if_congr txidx_succ_eq_eight rfl rfl, fun h0 => ?_, fun r older hne hs => ?_⟩
    · simp [putByte, h0]
    · rw [withInputs_txidx, withInputs_sent, beq_false_of_ne hne, hs]
      rfl
  · refine hstep.trans (congrArg _ (txByte_idle ?_))
    rintro ⟨hp, hg⟩
    exact hidle.elim (absurd hp) (Nat.not_lt.mpr hg)

/-- Settles O44: of the effects of a move only that of the transmitter's moves reaches what is on the line. -/
theorem bytesGoOutOnlyInTx : Obligations.BytesGoOutOnlyInTx := by
  intro s t h hne
  rcases step_cases h with ⟨-, rfl⟩ | ⟨e, rest, hi, hm⟩
  · exact absurd rfl hne
  cases hm with
  | word _ _ _ _ ht => exact absurd (congrArg _ ht.sent) hne
  | received _ _ ht => exact absurd (congrArg _ ht.sent) hne
  | line _ _ _ _ hs => exact absurd hs hne
  | waits | read | reset => exact absurd rfl hne
  | sent _ he _ hidle =>
    have hp : s.phase = .tx := by
      by_contra hp
      exact hne (by rw [hidle hp, withInputs_sent])
    rcases he with rfl | rfl
    · exact ⟨hp, rest, .inl hi⟩
    · exact ⟨hp, rest, .inr hi⟩

/-! ### Receiving (R185 to R187) -/

section
variable {s : State} {b : Byte}

/-- A byte with which the response is not complete is stored (R185). -/
theorem rxByte_waits (hp : s.phase = .rx)
    (h : (s.rxbuf ++ [b]).length < 2 ∨
      (s.rxbuf ++ [b]).length ≠ Claims.responseLength s.curOp s.curArg ((s.rxbuf ++ [b]).getD 1 0)) :
    s.rxByte b = s.store b := by
  rw [responseLength_eq_explen] at h
  have hc : ¬(s.store b).responseComplete = true := by
    rw [responseComplete_iff]
    exact fun ⟨h2, hl⟩ => h.elim (Nat.not_lt.mpr h2) (absurd hl)
  exact (if_pos hp).trans (if_neg hc)

/-- The byte with which it is complete ends the exchange by the result of `DEC` (R185, R187). -/
theorem rxByte_completes (hp : s.phase = .rx) (h2 : 2 ≤ (s.rxbuf ++ [b]).length)
    (hl : (s.rxbuf ++ [b]).length = Claims.responseLength s.curOp s.curArg ((s.rxbuf ++ [b]).getD 1 0)) :
    s.rxByte b = (s.store b).complete := by
  rw [responseLength_eq_explen] at hl
  have hc : (s.store b).responseComplete = true := (responseComplete_iff _).mpr ⟨h2, hl⟩
  exact (if_pos hp).trans (if_pos hc)

end

/-- Settles O19: the byte is stored, and nothing is judged yet. -/
theorem receiveStoresByte : Obligations.ReceiveStoresByte := by
  intro s b rest hi hp _ hwaits
  exact (step_cons hi).trans (congrArg _ (rxByte_waits (s := s.withInputs rest) hp hwaits))

/-- Settles O20: the completing byte is stored, then the response is judged. -/
theorem completingByteWritesResult : Obligations.CompletingByteWritesResult := by
  intro s b rest hi hp _ h2 hl
  exact (step_cons hi).trans (congrArg _
    ((rxByte_completes (s := s.withInputs rest) hp h2 hl).trans (complete_eq_judged _)))

theorem rxLine_drop {s : State} (h : s.phase ≠ .rx) : s.rxLine = { s with inFlight := s.inFlight.drop 1 } := by
  unfold State.rxLine
  cases hf : s.inFlight with
  | nil =>
    cases s
    cases hf
    rfl
  | cons b rest => exact rxByte_drop (s := { s with inFlight := rest }) h b

/-- Settles O21: each way of delivery comes down to single bytes, and each of these is dropped. -/
theorem bytesDroppedOutsideReception : Obligations.BytesDroppedOutsideReception := by
  intro s rest hp
  have hdrop : ∀ bytes, Host.Outcome.next (s.rxBytes bytes) = (.next s : Host.Outcome State Fault Refusal) :=
    fun bytes => congrArg _ (rxBytes_drop hp bytes)
  have hp' : (s.withInputs rest).phase ≠ .rx := hp
  exact ⟨fun b hi => (step_cons hi).trans (congrArg _ (rxByte_drop hp' b)),
    fun bytes hi => (step_cons hi).trans ((runResponse_eq ..).trans (congrArg _ (rxBytes_drop hp' bytes))),
    fun hi => (step_cons hi).trans (congrArg _ (rxLine_drop hp')),
    fun _ _ _ _ => hdrop _, fun _ _ _ _ => hdrop _, fun _ _ _ => hdrop _, fun _ _ _ => hdrop _⟩

/-! ### The timer and the link (R188, R189) -/

section
variable {s : State} (hp : s.phase ≠ .idle)
include hp

theorem tick_counts (h : (s.elapsed + 1).toNat < s.curTo.toNat) : s.tick = s.count :=
  (if_neg hp).trans (if_neg (Nat.not_le.mpr h))

theorem tick_expires (h : s.curTo.toNat ≤ (s.elapsed + 1).toNat) : s.tick = Claims.failed 2 0 0 0 s.count :=
  (if_neg hp).trans (if_pos h)

end

/-- Settles O22: a tick finds no exchange, time left or the time up. -/
theorem tickCountsAndExpires : Obligations.TickCountsAndExpires := by
  intro s rest hi
  have hstep : step s = .next (s.withInputs rest).tick := step_cons hi
  exact ⟨fun hp => hstep.trans (congrArg _ (tick_idle (s := s.withInputs rest) hp)),
    fun hp h => hstep.trans (congrArg _ (tick_counts (s := s.withInputs rest) hp h)),
    fun hp h => hstep.trans (congrArg _ (tick_expires (s := s.withInputs rest) hp h))⟩

/-- Settles O23: a fault finds an exchange to end, or none. -/
theorem linkFaultEndsExchange : Obligations.LinkFaultEndsExchange := by
  intro s c rest hi
  have hstep : step s = .next ((s.withInputs rest).linkFault c) := step_cons hi
  exact ⟨fun hp => hstep.trans (congrArg _ (linkFault_idle (s := s.withInputs rest) hp c)),
    fun hp => hstep.trans (congrArg _ (linkFault_busy (s := s.withInputs rest) hp c))⟩

/-! ### Byte and tick together (R190 (b), D12) -/

theorem tick_withInputs (s : State) (l : List Input) : (s.withInputs l).tick = s.tick.withInputs l := by
  rcases tick_cases s with ⟨hp, e⟩ | ⟨hp, hc, e⟩ | ⟨hp, hc, e⟩ <;> rw [e]
  · exact tick_idle (s := s.withInputs l) hp
  · exact (if_neg hp).trans (if_neg hc)
  · exact (if_neg hp).trans (if_pos hc)

/-- Settles O25: the completing byte leaves the tick nothing to expire; the expiring tick leaves the byte nothing to complete. -/
theorem completionWinsTheTie : Obligations.CompletionWinsTheTie := by
  intro s b rest hi got
  have hstep : step s = .next ((s.withInputs rest).rxTick b) := step_cons hi
  refine ⟨fun hfirst hp h2 hl => ?_, fun hfirst => ?_⟩
  · have hbyte := rxByte_completes (s := s.withInputs rest) hp h2 hl
    have hended : ((s.withInputs rest).rxByte b).phase = .idle := hbyte ▸ complete_phase _
    have htie : (s.withInputs rest).rxTick b = (s.withInputs rest).rxByte b := (if_pos hfirst).trans (tick_idle hended)
    rw [hstep, step_withInputs, htie]
    rfl
  · have htie : (s.withInputs rest).rxTick b = (s.withInputs rest).tick.rxByte b := if_neg (Bool.not_eq_true _ ▸ hfirst)
    rw [hstep, htie]
    refine ⟨⟨_, rfl, ?_⟩, fun hp hup => ?_⟩
    · have htick : step (s.withInputs (.tick :: .rx b :: rest)) = .next (s.tick.withInputs (.rx b :: rest)) :=
        (step_withInputs ..).trans (congrArg _ (tick_withInputs ..))
      rw [stepsTo_succ htick, stepsTo_succ (step_withInputs ..), tick_withInputs]
      rfl
    · rw [tick_expires (s := s.withInputs rest) hp hup]
      exact congrArg _ (rxByte_drop (by simp [Claims.failed]) b)

end Sys2Proof.Machine
end

section
/-! A wire frame as one instruction is its bytes, one step after another (O33). -/

namespace Sys2Proof.Machine

theorem stepsTo_rx (bs : List Byte) (s : State) (rest : List Input) :
    stepsTo (bs.map Input.rx).length (s.withInputs (bs.map .rx ++ rest)) = some ((s.rxBytes bs).withInputs rest) := by
  induction bs generalizing s with
  | nil => rfl
  | cons b bs ih =>
    have hbyte : step (s.withInputs ((b :: bs).map .rx ++ rest)) = .next ((s.rxByte b).withInputs (bs.map .rx ++ rest)) :=
      (step_withInputs s (.rx b) _).trans (congrArg _ (rxByte_withInputs b s _))
    exact (stepsTo_succ hbyte _).trans (ih (s.rxByte b))

theorem stepsTo_txReady (n : Nat) (s : State) (rest : List Input) :
    stepsTo n (s.withInputs (List.replicate n .txReady ++ rest)) = some ((s.txBytes n).withInputs rest) := by
  induction n generalizing s with
  | zero => rfl
  | succ n ih =>
    have hbyte : step (s.withInputs (List.replicate (n + 1) .txReady ++ rest)) =
        .next (s.txByte.withInputs (List.replicate n .txReady ++ rest)) :=
      (step_withInputs s .txReady _).trans (congrArg _ (txByte_withInputs s _))
    exact (stepsTo_succ hbyte _).trans (ih s.txByte)

/-- Settles O33: a response frame is received byte by byte, and the frame in `TXBUF` is sent by eight `TXBYTE` steps. -/
theorem framesAreTheirBytes : Obligations.FramesAreTheirBytes := by
  intro s i rest bytes oneByOne
  constructor
  · intro hi
    have hexec : exec i s = .next (s.rxBytes bytes) := by
      rcases hi with ⟨_, _, _, _, rfl⟩ | ⟨_, _, _, _, rfl⟩ | ⟨_, _, _, rfl⟩ | ⟨_, _, _, rfl⟩ <;> rfl
    exact ⟨_, hexec, stepsTo_rx bytes s rest⟩
  · intro hi hbuf
    have hexec : exec i s = .next (s.sendRequest bytes) := by
      rcases hi with ⟨_, _, _, _, rfl⟩ | ⟨_, _, _, _, rfl⟩ <;> rfl
    have hsend : s.sendRequest bytes = s.txBytes 8 := if_pos hbuf
    exact ⟨_, hexec.trans (congrArg _ hsend), stepsTo_txReady 8 s rest⟩

end Sys2Proof.Machine
end

section
/-! Every exchange ends within the ticks left of its time, whatever else happens (O48). -/

namespace Sys2Proof.Machine

/-- The ticks left of `CUR_TO`, of which 0 counts as 1 (R188). -/
def State.timeLeft (s : State) : Nat := max s.curTo.toNat 1 - s.elapsed.toNat

/-- After a move that brought this many ticks the exchange has ended, or they are counted and time is left. -/
def Counted (ticks : Nat) (s t : State) : Prop :=
  t.phase = .idle ∨ (t.timeLeft + ticks = s.timeLeft ∧ 0 < t.timeLeft)

/-! ### Moves that bring no tick -/

/-- The timer and the moves still to come are as before. -/
structure TimerFrame (s t : State) : Prop where
  curTo : t.curTo = s.curTo
  elapsed : t.elapsed = s.elapsed
  inputs : t.inputs = s.inputs

theorem ExchangeFrame.timerFrame {s t : State} (h : ExchangeFrame s t) (he : t.elapsed = s.elapsed) : TimerFrame s t :=
  ⟨h.curTo, he, h.inputs⟩

theorem TimerFrame.timeLeft {s t : State} (h : TimerFrame s t) : t.timeLeft = s.timeLeft := by
  rw [State.timeLeft, h.curTo, h.elapsed, State.timeLeft]

theorem TimerFrame.counted {s t : State} (h : TimerFrame s t) (hleft : 0 < s.timeLeft) : Counted 0 s t :=
  .inr ⟨h.timeLeft, h.timeLeft ▸ hleft⟩

@[simp] theorem complete_elapsed (s : State) : s.complete.elapsed = s.elapsed := by
  rcases complete_cases s with ⟨vs, e, -⟩ | ⟨er, e, -⟩ <;> rw [e] <;> rfl

@[simp] theorem rxByte_elapsed (b : Byte) (s : State) : (s.rxByte b).elapsed = s.elapsed := by
  rcases rxByte_cases b s with ⟨-, e⟩ | ⟨-, -, e⟩ | ⟨-, -, e⟩ <;> simp [e]

@[simp] theorem rxBytes_elapsed (bs : List Byte) (s : State) : (s.rxBytes bs).elapsed = s.elapsed := by
  induction bs generalizing s with
  | nil => rfl
  | cons b bs ih => rw [rxBytes_cons, ih, rxByte_elapsed]

@[simp] theorem rxLine_elapsed (s : State) : s.rxLine.elapsed = s.elapsed := by
  unfold State.rxLine
  split
  · rfl
  · exact rxByte_elapsed ..

@[simp] theorem txByte_elapsed (s : State) : s.txByte.elapsed = s.elapsed := by
  rcases txByte_cases s with ⟨-, e⟩ | ⟨-, e⟩ <;> simp [e]

@[simp] theorem txBytes_elapsed (n : Nat) (s : State) : (s.txBytes n).elapsed = s.elapsed := by
  induction n generalizing s with
  | zero => rfl
  | succ n ih => rw [txBytes_succ, ih, txByte_elapsed]

theorem timerFrame_rxByte (b : Byte) (s : State) : TimerFrame s (s.rxByte b) :=
  (receiveFrame_rxByte b s).timerFrame (rxByte_elapsed b s)

theorem timerFrame_deviceAct (k : Nat) (s : State) : TimerFrame s (s.deviceAct k) := by
  unfold State.deviceAct
  split
  · split <;> exact ⟨rfl, rfl, rfl⟩
  · exact ⟨rfl, rfl, rfl⟩

/-- The registers of these numbers always hold a value (R38, R41). -/
theorem hostRead_of_driving {n : Nat} (h : Claims.driving (.hostRead n) = true) (s : State) :
    ∃ v, s.hostRead n = .next v := by
  simp only [Claims.driving, Bool.or_eq_true, Bool.and_eq_true, decide_eq_true_eq, beq_iff_eq] at h
  obtain ⟨h1, h6⟩ | rfl := h
  · interval_cases n <;> exact ⟨_, rfl⟩
  · exact ⟨_, rfl⟩

/-! ### Moves that bring one -/

section
variable {s : State} (hleft : 0 < s.timeLeft)
include hleft

theorem counted_tick : Counted 1 s s.tick := by
  have hlt : s.elapsed.toNat < max s.curTo.toNat 1 := Nat.lt_of_sub_pos hleft
  rcases tick_cases s with ⟨hp, e⟩ | ⟨-, hc, e⟩ | ⟨-, -, e⟩ <;> rw [e]
  · exact .inl hp
  · rw [curTo_le_iff hlt] at hc
    right
    simp only [State.timeLeft, count_curTo, count_elapsed, toNat_elapsed_succ hlt]
    omega
  · exact .inl rfl

/-- Whichever of the two comes first (R190 (b)). -/
theorem counted_rxTick (b : Byte) : Counted 1 s (s.rxTick b) := by
  unfold State.rxTick
  split
  · have hbyte := (timerFrame_rxByte b s).timeLeft
    exact (counted_tick (hbyte ▸ hleft)).imp_right fun h => hbyte ▸ h
  · rcases counted_tick hleft with hp | h
    · exact .inl (by rw [rxByte_drop (by simp [hp]), hp])
    · exact .inr ((timerFrame_rxByte b s.tick).timeLeft.symm ▸ h)

/-- No move of a running exchange but a reset, or a host move that R38 does not give, stops the machine or the count. -/
theorem runInput_counted {e : Input} (hp : s.phase ≠ .idle) (he : Claims.driving e = true) :
    ∃ t, runInput e s = .next t ∧ t.inputs = s.inputs ∧ Counted (Claims.ticks [e]) s t := by
  have quiet : ∀ {t}, TimerFrame s t → t.inputs = s.inputs ∧ Counted 0 s t := fun h => ⟨h.inputs, h.counted hleft⟩
  have same : TimerFrame s s := ⟨rfl, rfl, rfl⟩
  cases e with
  | hostWrite n w =>
    obtain rfl : n = 0 := eq_of_beq he
    exact ⟨s, runWord_busy hp w, quiet same⟩
  | hostRead n =>
    obtain ⟨v, hv⟩ := hostRead_of_driving he s
    exact ⟨{ s with hostData := v }, by rw [runInput, runHostRead, hv], quiet ⟨rfl, rfl, rfl⟩⟩
  | txReady => exact ⟨_, rfl, quiet ((exchangeFrame_txByte s).timerFrame (txByte_elapsed s))⟩
  | txFrame => exact ⟨_, runRequest_eq s, quiet ((exchangeFrame_txFrame s).timerFrame (txBytes_elapsed 8 s))⟩
  | rx b => exact ⟨_, rfl, quiet (timerFrame_rxByte b s)⟩
  | rxFrame bytes =>
    exact ⟨_, runResponse_eq bytes s, quiet ((receiveFrame_rxBytes bytes s).timerFrame (rxBytes_elapsed bytes s))⟩
  | tick => exact ⟨_, rfl, (receiveFrame_tick s).inputs, counted_tick hleft⟩
  | rxTick b => exact ⟨_, rfl, (receiveFrame_rxTick b s).inputs, counted_rxTick hleft b⟩
  | linkfault cause => exact ⟨_, rfl, (receiveFrame_linkFault cause s).inputs, .inl (by rw [linkFault_busy hp]; rfl)⟩
  | reset => cases he
  | deviceAct k => exact ⟨_, rfl, quiet (timerFrame_deviceAct k s)⟩
  | rxLine => exact ⟨_, rfl, quiet ((receiveFrame_rxLine s).timerFrame (rxLine_elapsed s))⟩
  | lineLoses | deviceChange | deviceReaddress => exact ⟨_, rfl, quiet ⟨rfl, rfl, rfl⟩⟩

end

/-! ### The whole schedule -/

theorem ticks_cons (e : Input) (l : List Input) : Claims.ticks (e :: l) = Claims.ticks [e] + Claims.ticks l :=
  List.countP_append (l₁ := [e])

/-- Some prefix of a schedule that brings the ticks left runs without a stop and ends in `IDLE`. -/
theorem exists_stepsTo_idle {l : List Input} {s : State} (hi : s.inputs = l) (hleft : 0 < s.timeLeft)
    (hd : ∀ e ∈ l, Claims.driving e = true) (hticks : s.timeLeft ≤ Claims.ticks l) :
    ∃ k t, k ≤ l.length ∧ stepsTo k s = some t ∧ t.phase = .idle := by
  induction l generalizing s with
  | nil => exact absurd hticks (Nat.not_le.mpr hleft)
  | cons e l ih =>
    by_cases hp : s.phase = .idle
    · exact ⟨0, s, Nat.zero_le _, rfl, hp⟩
    obtain ⟨he, hd⟩ := List.forall_mem_cons.mp hd
    obtain ⟨t, hrun, hinputs, hcount⟩ := runInput_counted (s := s.withInputs l) hleft hp he
    have hstep : step s = .next t := (step_cons hi).trans hrun
    rcases hcount with hidle | ⟨hcounted, htime⟩
    · exact ⟨1, t, Nat.le_add_left .., stepsTo_succ hstep 0, hidle⟩
    · have htotal : (s.withInputs l).timeLeft = s.timeLeft := rfl
      rw [ticks_cons] at hticks
      obtain ⟨k, u, hk, hu, hidle⟩ := ih hinputs htime hd (by omega)
      exact ⟨k + 1, u, Nat.succ_le_succ hk, (stepsTo_succ hstep k).trans hu, hidle⟩

/-- Settles O48: each tick brings the end nearer, and no other move takes it away. -/
theorem timeoutBoundsEveryExchange : Obligations.TimeoutBoundsEveryExchange := fun _ hlt hd hticks =>
  exists_stepsTo_idle rfl (Nat.sub_pos_of_lt hlt) hd hticks

end Sys2Proof.Machine
end

section
/-! The ROM commands: the entry of an index, and the speed register of a fan (O16, O17). -/

namespace Sys2Proof.Machine

/-! ### R221's numbering, read off the map written out -/

section
variable {c : Config} (horder : c.romOrder = RegName.all) (idx : BitVec 4)
include horder

/-- The addresses run with the index up to the gap below the reset command's. -/
theorem address_nameAt_numbering :
    (Claims.address (Claims.nameAt c idx)).setWidth 32 = if idx = 15 then 0x20 else idx.setWidth 32 := by
  rw [Claims.nameAt, horder]
  revert idx
  decide

theorem rinfo_nameAt_numbering :
    1#1 ++ Claims.access (Claims.nameAt c idx) =
      if idx = 15 then 6 else if idx.toNat ≤ 1 ∨ (7 ≤ idx.toNat ∧ idx.toNat ≤ 10) ∨ idx = 14 then 4 else 5 := by
  rw [Claims.nameAt, horder]
  revert idx
  decide

end

/-- Settles O16: the answer is the entry's for every numbering, R221's among them. -/
theorem lookupReturnsRomEntry : Obligations.LookupReturnsRomEntry := by
  intro s idx hp name
  have hport : exec (.lookup idx) s = .next { Claims.accepted s with
      rval := (Claims.address name).setWidth 32, rvalValid := true, rinfo := 1#1 ++ Claims.access name, done := true } := by
    rw [exec, execLookup, atPort_idle hp, romEntry_addr, presentInfo, romEntry_access_code]
    rfl
  refine ⟨hport, fun horder => ?_⟩
  rw [hport, address_nameAt_numbering horder, rinfo_nameAt_numbering horder]

/-! ### The fan-index function (R223) -/

theorem fanRegister_cases (i : Byte) :
    ((1 ≤ i.toNat ∧ i.toNat ≤ 4) ∧ fanRegister i = some (0x0006 + i.setWidth 16)) ∨
    (¬(1 ≤ i.toNat ∧ i.toNat ≤ 4) ∧ fanRegister i = none) := by
  by_cases h : 1 ≤ i.toNat ∧ i.toNat ≤ 4
  · exact .inl ⟨h, if_pos h⟩
  · exact .inr ⟨h, if_neg h⟩

/-- A fan's speed register, zero-extended: the sum does not wrap. -/
theorem setWidth_fanAddress (i : Byte) : (0x0006#16 + i.setWidth 16).setWidth 32 = BitVec.ofNat 32 (6 + i.toNat) := by
  bv_omega

/-- Settles O17: the index is that of a fan, or it is absent and acceptance has left `RVAL` without a value. -/
theorem fanregReturnsSpeedRegister : Obligations.FanregReturnsSpeedRegister := by
  intro s i hp
  rw [exec, execFanreg, atPort_idle hp]
  rcases fanRegister_cases i with ⟨hfan, e⟩ | ⟨habsent, e⟩ <;> rw [e]
  · rw [if_pos hfan, ← setWidth_fanAddress]
    rfl
  · rw [if_neg habsent]
    rfl

end Sys2Proof.Machine
end

section
/-! The host software outside the block: the temperature codecs (R250 to R256) and what its validated operations write (O58, O59, O60). -/

namespace Sys2Proof.Machine

/-! ### The temperature codecs -/

/-- What fits in the width is not truncated. -/
theorem toNat_ofInt_of_lt {n : Nat} {x : Int} (h0 : 0 ≤ x) (hlt : x < (2 ^ n : Nat)) : ((BitVec.ofInt n x).toNat : Int) = x := by
  rw [BitVec.toNat_ofInt, Int.emod_eq_of_lt h0 hlt, Int.toNat_of_nonneg h0]

theorem registerToCelsius_celsiusToRegister {t : Int} (h : -20 ≤ t ∧ t ≤ 120) : registerToCelsius (celsiusToRegister t) = t := by
  rw [registerToCelsius, celsiusToRegister, toNat_ofInt_of_lt (by omega) (by omega), Int.add_sub_cancel]

/-- The combined register holds the low threshold in its high byte and the high one in its low byte (R256). -/
theorem encodeCombinedTemperature_eq_fromBe16 (low high : Int) :
    encodeCombinedTemperature low high = fromBe16 (BitVec.ofInt 8 (low + 40)) (BitVec.ofInt 8 (high + 40)) := rfl

theorem parseCombinedTemperature_fromBe16 (a b : Byte) :
    parseCombinedTemperature (fromBe16 a b) = ((a.toNat : Int) - 40, (b.toNat : Int) - 40) := by
  rw [parseCombinedTemperature, hi8_fromBe16, lo8_fromBe16]

theorem parseCombinedTemperature_encodeCombinedTemperature {low high : Int} (hl : -20 ≤ low ∧ low ≤ 120)
    (hh : -20 ≤ high ∧ high ≤ 120) : parseCombinedTemperature (encodeCombinedTemperature low high) = (low, high) := by
  rw [encodeCombinedTemperature_eq_fromBe16, parseCombinedTemperature_fromBe16,
    toNat_ofInt_of_lt (x := low + 40) (by omega) (by omega), toNat_ofInt_of_lt (x := high + 40) (by omega) (by omega),
    Int.add_sub_cancel, Int.add_sub_cancel]

/-- Settles O58: an encoded temperature is at most 160, so neither the word nor a byte of it truncates the value. -/
theorem temperatureCodecRoundTrips : Obligations.TemperatureCodecRoundTrips :=
  ⟨fun _ h0 h1 => registerToCelsius_celsiusToRegister ⟨h0, h1⟩,
    fun _ _ hl0 hl1 hh0 hh1 => parseCombinedTemperature_encodeCombinedTemperature ⟨hl0, hl1⟩ ⟨hh0, hh1⟩⟩

/-! ### Validation before any command (R259, R262) -/

theorem validated_of_valid {ok : Bool} (h : ok = true) (e : ValidationError) (plan : List Instr) :
    validated ok e plan = .ok plan := if_pos h

theorem validated_of_invalid {ok : Bool} (h : ¬ok = true) (e : ValidationError) (plan : List Instr) :
    validated ok e plan = .error e := if_neg h

theorem validAddress_iff {v : Int} : validAddress v = true ↔ 1 ≤ v ∧ v ≤ 254 := by
  simp only [validAddress, Bool.and_eq_true, decide_eq_true_eq]

theorem validThresholds_iff {low high : Int} :
    validThresholds low high = true ↔ -20 ≤ low ∧ low ≤ 120 ∧ -20 ≤ high ∧ high ≤ 120 ∧ low < high := by
  simp only [validThresholds, validTemperature, Bool.and_eq_true, decide_eq_true_eq, and_assoc]

/-! ### The operations -/

/-- Settles O59: a valid address fits in the register's word and in the cache's byte. -/
theorem setAddrWritesThenUpdatesCache : Obligations.SetAddrWritesThenUpdatesCache := by
  intro c v err hc
  constructor
  · intro hout
    exact validated_of_invalid (validAddress_iff.not.mpr (by omega)) _ _
  · intro h1 h254
    exact ⟨romIndex c .busAddr, BitVec.ofInt 16 v, BitVec.ofInt 8 v, _, romOrder_romIndex hc .busAddr,
      toNat_ofInt_of_lt (by omega) (by omega), toNat_ofInt_of_lt (by omega) (by omega),
      validated_of_valid (validAddress_iff.mpr ⟨h1, h254⟩) _ _, rfl, fun herr => if_pos herr, fun herr => if_neg herr⟩

/-- Settles O60: the check is exactly the stated range and order, and on it both expansions write the codec's values. -/
theorem thresholdsValidatedAndEncoded : Obligations.ThresholdsValidatedAndEncoded := by
  intro c low high hc
  constructor
  · intro h
    have hvalid := validThresholds_iff.mpr h
    obtain ⟨hl0, hl1, hh0, hh1, -⟩ := h
    exact ⟨romIndex c .tempCombined, romIndex c .tempLow, romIndex c .tempHigh,
      encodeCombinedTemperature low high, celsiusToRegister low, celsiusToRegister high,
      romOrder_romIndex hc _, romOrder_romIndex hc _, romOrder_romIndex hc _,
      validated_of_valid hvalid _ _, parseCombinedTemperature_encodeCombinedTemperature ⟨hl0, hl1⟩ ⟨hh0, hh1⟩,
      validated_of_valid hvalid _ _, registerToCelsius_celsiusToRegister ⟨hl0, hl1⟩,
      registerToCelsius_celsiusToRegister ⟨hh0, hh1⟩⟩
  · intro h combined
    exact validated_of_invalid (validThresholds_iff.not.mpr h) _ _

end Sys2Proof.Machine
end

section
/-! Errors and their ends: what follows the event that ends an exchange, which defect of a frame is reported, what an error leaves behind
and how the next command clears it (O24, O37, O46, O47). -/

namespace Sys2Proof.Machine

/-! ### After the end (R298) -/

/-- None of the moves of a running exchange does anything in `IDLE`. -/
theorem runInput_idle_keeps {s : State} (hp : s.phase = .idle) {e : Input}
    (he : (∃ b, e = .rx b) ∨ (∃ b, e = .rxFrame b) ∨ e = .tick ∨ (∃ b, e = .rxTick b) ∨ (∃ c, e = .linkfault c) ∨
      e = .txReady ∨ e = .txFrame) :
    runInput e s = .next s := by
  have hrx : s.phase ≠ .rx := by simp [hp]
  have htx : s.phase ≠ .tx := by simp [hp]
  rcases he with ⟨b, rfl⟩ | ⟨bs, rfl⟩ | rfl | ⟨b, rfl⟩ | ⟨c, rfl⟩ | rfl | rfl
  · exact congrArg _ (rxByte_drop hrx b)
  · exact (runResponse_eq bs s).trans (congrArg _ (rxBytes_drop hrx bs))
  · exact congrArg _ (tick_idle hp)
  · have htie : s.rxTick b = s := by rw [State.rxTick, rxByte_drop hrx, tick_idle hp, rxByte_drop hrx, ite_self]
    exact congrArg _ htie
  · exact congrArg _ (linkFault_idle hp c)
  · exact congrArg _ (txByte_not_tx htx)
  · exact (runRequest_eq s).trans (congrArg _ (txFrame_not_tx htx))

/-- Settles O24, by induction on the later events: each one finds the state that the one before it found. -/
theorem firstEndingEventWins : Obligations.FirstEndingEventWins := by
  intro s l rest hp hi hl
  induction l generalizing s with
  | nil =>
    subst hi
    rfl
  | cons e l ih =>
    obtain ⟨he, hl⟩ := List.forall_mem_cons.mp hl
    have hstep : step s = .next (s.withInputs (l ++ rest)) :=
      (step_cons hi).trans (runInput_idle_keeps (s := s.withInputs (l ++ rest)) hp he)
    exact (stepsTo_succ hstep l.length).trans (ih (s.withInputs (l ++ rest)) hp rfl hl)

/-! ### The first defect of a frame (R299) -/

/-- A function byte with bit 7 is its own exception form. -/
theorem msb_of_ne_excFn {f : Byte} (h : f ≠ excFn f) : f.msb = false := by
  revert f
  decide

theorem decWr_cases (reg v : Word) (s : List Byte) : decWr reg v s = .echoMismatch ∨ decWr reg v s = .okWrite := by
  unfold decWr
  split
  · exact .inl rfl
  · exact .inr rfl

theorem decRd_cases {n : Word} {s : List Byte} (hl : s.length = 5 + 2 * n.toNat) :
    decRd n s = .frame .byteCount ∨ ∃ vs, decRd n s = .okRead vs ∧ vs.length = n.toNat := by
  by_cases h : (s.getD 2 0).toNat ≠ 2 * n.toNat
  · exact .inl (if_pos h)
  · exact .inr ⟨_, if_neg h, decRd_okRead hl (if_neg h)⟩

section
variable {c : Config} {op : Op} {sa : Byte} {reg arg : Word} {s : List Byte}

theorem dec_length (h : ¬(5 ≤ s.length ∧ s.length = explen op arg (s.getD 1 0))) :
    dec c op sa reg arg s = .frame .length :=
  if_pos (by omega)

variable (hlength : 5 ≤ s.length ∧ s.length = explen op arg (s.getD 1 0))
include hlength

theorem dec_of_length :
    dec c op sa reg arg s =
      if !verify c s then .frame .crc
      else if s.getD 0 0 ≠ sa then .frame .address
      else decFunction c op reg arg (s.getD 1 0) s :=
  if_neg (by omega)

theorem dec_crc (hv : verify c s = false) : dec c op sa reg arg s = .frame .crc := by
  rw [dec_of_length hlength, hv]
  rfl

variable (hv : verify c s = true)
include hv

theorem dec_address (ha : s.getD 0 0 ≠ sa) : dec c op sa reg arg s = .frame .address := by
  rw [dec_of_length hlength, hv]
  exact if_pos ha

theorem dec_eq_decFunction (ha : s.getD 0 0 = sa) : dec c op sa reg arg s = decFunction c op reg arg (s.getD 1 0) s := by
  rw [dec_of_length hlength, hv]
  exact if_neg (not_not_intro ha)

end

/-- Settles O37: one clause for each check of `DEC`, in their order. -/
theorem firstDefectIsReported : Obligations.FirstDefectIsReported := by
  intro c op sa reg arg s r f lengthOk addressOk exception functionOk
  have hlen : lengthOk → 5 ≤ s.length ∧ s.length = explen op arg (s.getD 1 0) := by
    simp only [lengthOk, responseLength_eq_explen, imp_self]
  refine ⟨fun hl => dec_length ?_, fun hl hv => dec_crc (hlen hl) hv, fun hl hv ha => dec_address (hlen hl) hv ha,
    fun hl hv ha hx => ?_, fun hl hv ha hx hf => ?_, fun hl hv ha hx hf => ?_⟩
  · rwa [← responseLength_eq_explen]
  · exact (dec_eq_decFunction (hlen hl) hv ha).trans (if_pos hx)
  · exact (dec_eq_decFunction (hlen hl) hv ha).trans ((if_neg hx).trans (if_pos hf))
  · have hdata : r = decData op reg arg s :=
      (dec_eq_decFunction (hlen hl) hv ha).trans ((if_neg hx).trans (if_neg (not_not_intro hf)))
    have hplain : (s.getD 1 0).msb = false := msb_of_ne_excFn fun h => hx (h.trans (congrArg excFn hf))
    rw [hdata]
    constructor
    · rintro rfl
      exact decRd_cases ((hlen hl).2.trans (explen_plain hplain .read arg))
    · rintro rfl
      exact decWr_cases reg arg s

/-! ### What an error leaves behind (R296) -/

/-- If the exchange has ended in an error, the result registers say so: an error kind of an exchange, and no values. -/
def Reported (t : State) : Prop :=
  t.phase = .idle → t.err ≠ 0 → t.errf = true ∧ t.done = true ∧ t.rdata = [] ∧ 1 ≤ t.err.toNat ∧ t.err.toNat ≤ 5

theorem reported_of_busy {s : State} (hp : s.phase ≠ .idle) : Reported s := fun h => absurd h hp

theorem reported_succeed (s : State) (vs : List Word) : Reported (s.succeed vs) := fun _ herr => absurd rfl herr

/-- Every error but a refusal of a command word has a kind from 1 to 5 (R291). -/
theorem toNat_code_of_ne_badCommand {e : Error} (he : ∀ why, e ≠ .badCommand why) : 1 ≤ e.code.toNat ∧ e.code.toNat ≤ 5 := by
  cases e with
  | badCommand why => exact absurd rfl (he why)
  | link | timeout | frame | deviceException | echoMismatch => simp [Error.code]

theorem reported_raise (s : State) {e : Error} (he : ∀ why, e ≠ .badCommand why) : Reported (s.raise e) :=
  fun _ _ => ⟨rfl, rfl, rfl, toNat_code_of_ne_badCommand he⟩

theorem reported_complete (s : State) : Reported s.complete := by
  rcases complete_cases s with ⟨vs, e, -⟩ | ⟨er, e, ⟨sub, rfl⟩ | ⟨code, rfl⟩ | rfl⟩ <;> rw [e]
  · exact reported_succeed s vs
  · exact reported_raise s nofun
  · exact reported_raise s nofun
  · exact reported_raise s nofun

theorem reported_linkFault {s : State} (h : Reported s) (c : Byte) : Reported (s.linkFault c) := by
  by_cases hp : s.phase = .idle
  · rwa [linkFault_idle hp]
  · rw [linkFault_busy hp]
    exact reported_raise s nofun

theorem reported_tick {s : State} (h : Reported s) : Reported s.tick := by
  rcases tick_cases s with ⟨-, e⟩ | ⟨hp, -, e⟩ | ⟨-, -, e⟩ <;> rw [e]
  · exact h
  · exact reported_of_busy (s := s.count) hp
  · exact reported_raise s.count nofun

theorem reported_rxByte {s : State} (h : Reported s) (b : Byte) : Reported (s.rxByte b) := by
  rcases rxByte_cases b s with ⟨-, e⟩ | ⟨hp, -, e⟩ | ⟨-, -, e⟩ <;> rw [e]
  · exact h
  · exact reported_of_busy (by simp [hp])
  · exact reported_complete _

theorem reported_rxBytes : ∀ (bs : List Byte) {s : State}, Reported s → Reported (s.rxBytes bs)
  | [], _, h => h
  | b :: bs, _, h => reported_rxBytes bs (reported_rxByte h b)

theorem reported_rxTick {s : State} (h : Reported s) (b : Byte) : Reported (s.rxTick b) := by
  unfold State.rxTick
  split
  · exact reported_tick (reported_rxByte h b)
  · exact reported_rxByte (reported_tick h) b

theorem reported_rxLine {s : State} (h : Reported s) : Reported s.rxLine := by
  unfold State.rxLine
  split
  · exact h
  · next rest _ => exact reported_rxByte (s := { s with inFlight := rest }) h _

theorem reported_received {e : Input} {s t : State} (he : e.isReceive = true) (hr : runInput e s = .next t) (h : Reported s) :
    Reported t := by
  cases e with
  | rx b => exact Host.Outcome.next.inj hr ▸ reported_rxByte h b
  | rxFrame bs => exact Host.Outcome.next.inj ((runResponse_eq bs s).symm.trans hr) ▸ reported_rxBytes bs h
  | tick => exact Host.Outcome.next.inj hr ▸ reported_tick h
  | rxTick b => exact Host.Outcome.next.inj hr ▸ reported_rxTick h b
  | linkfault c => exact Host.Outcome.next.inj hr ▸ reported_linkFault h c
  | rxLine => exact Host.Outcome.next.inj hr ▸ reported_rxLine h
  | hostWrite | hostRead | txReady | txFrame | reset | deviceAct | lineLoses | deviceChange | deviceReaddress => cases he

theorem txByte_busy {s : State} (hp : s.phase ≠ .idle) : s.txByte.phase ≠ .idle := by
  rcases txByte_cases s with ⟨-, e⟩ | ⟨-, e⟩ <;> rw [e]
  · exact hp
  · rw [sentTo_phase]
    split <;> nofun

theorem txBytes_busy : ∀ (n : Nat) {s : State}, s.phase ≠ .idle → (s.txBytes n).phase ≠ .idle
  | 0, _, hp => hp
  | n + 1, _, hp => txBytes_busy n (txByte_busy hp)

/-- Besides a reset, only the receiver, the timer and the link end an exchange. -/
theorem runInput_ends {e : Input} {s t : State} (hr : runInput e s = .next t) (he : e ≠ .reset) (hp : s.phase ≠ .idle)
    (ht : t.phase = .idle) : ReceiveFrame s t ∧ Reported t := by
  cases moveEffect_of_runInput hr with
  | received _ hreceive hframe => exact ⟨hframe, reported_received hreceive hr (reported_of_busy hp)⟩
  | sent _ hsent =>
    rcases hsent with rfl | rfl
    · obtain rfl : s.txByte = t := Host.Outcome.next.inj hr
      exact absurd ht (txByte_busy hp)
    · obtain rfl : s.txFrame = t := Host.Outcome.next.inj ((runRequest_eq s).symm.trans hr)
      exact absurd ht (txBytes_busy 8 hp)
  | word _ _ _ hidle => exact absurd hidle hp
  | waits | read | line => exact absurd ht hp
  | reset hreset => exact absurd hreset he

/-- Settles O46: the step that ends the exchange reports the error, within the frame of the receiver's, the timer's and the link's
moves. -/
theorem errorCompletionFrame : Obligations.ErrorCompletionFrame := by
  intro s t hp hreset h ht herr
  cases hi : s.inputs with
  | nil =>
    obtain rfl := Host.Outcome.next.inj ((step_nil hi).symm.trans h)
    exact absurd ht hp
  | cons e rest =>
    have he : e ≠ .reset := fun he => hreset (by rw [hi, he]; rfl)
    obtain ⟨frame, reported⟩ := runInput_ends (s := s.withInputs rest) ((step_cons hi).symm.trans h) he hp ht
    obtain ⟨herrf, hdone, hdata, hkind⟩ := reported ht herr
    exact ⟨herrf, hdone, hdata, hkind.1, hkind.2, frame.timeout, frame.slaveAddr, frame.saValid, frame.curOp, frame.curSa,
      frame.curReg, frame.curArg, frame.curTo, frame.rval, frame.rvalValid, frame.rinfo, frame.ctxValid⟩

/-! ### The next command (R300) -/

/-- Settles O47: acceptance clears the error registers, and of what a word can do only its refusal sets them. -/
theorem nextCommandRecovers : Obligations.NextCommandRecovers := by
  intro s w rest hp hi
  obtain ⟨t, hrun, heffect⟩ := runWord_idle (s := s.withInputs rest) hp w
  refine ⟨t, (step_cons hi).trans hrun, ?_⟩
  cases heffect with
  | refused why => exact ⟨rfl, rfl, rfl, .inl ⟨rfl, rfl, rfl, rfl⟩⟩
  | started => exact ⟨rfl, rfl, rfl, .inr ⟨rfl, rfl, rfl, nofun, nofun⟩⟩
  | setto | setsa | answered | absent => exact ⟨rfl, rfl, rfl, .inr ⟨rfl, rfl, rfl, fun _ => hp, fun _ => rfl⟩⟩

end Sys2Proof.Machine
end

section
/-! The checks at acceptance, in their order (O7). -/

namespace Sys2Proof.Machine

/-! ### A word that no reserved bit stops (R102, R103) -/

/-- A mask over both fields finds nothing only where it finds nothing in either. -/
theorem fields_of_and_cmdWord_eq_zero {w : BitVec 40} {a b : Word} (h : w &&& cmdWord 0 a b = 0) :
    cmdA w &&& a = 0 ∧ cmdB w &&& b = 0 := by
  rw [and_cmdWord] at h
  have hA := congrArg cmdA h
  have hB := congrArg cmdB h
  rw [cmdA_cmdWord] at hA
  rw [cmdB_cmdWord] at hB
  exact ⟨hA, hB⟩

/-! The decoder's checks of a field, from the masks of the bits that carry no operand. -/

theorem eq_zero_of_and_mask {a : Word} (h : a &&& 0xFFFF = 0) : (a == 0) = true := by
  rw [← BitVec.and_allOnes (x := a)]
  exact beq_iff_eq.mpr h

theorem idx_high_of_and_mask {a : Word} (h : a &&& 0xFFF0 = 0) : (a.extractLsb' 4 12 == 0) = true := by
  have hx := congrArg (BitVec.extractLsb' 4 12) h
  rw [BitVec.extractLsb'_and] at hx
  rw [← BitVec.and_allOnes (x := a.extractLsb' 4 12)]
  exact beq_iff_eq.mpr hx

theorem hi8_of_and_mask {b : Word} (h : b &&& 0xFF00 = 0) : (hi8 b == 0) = true := by
  have hx := congrArg (BitVec.extractLsb' 8 8) h
  rw [BitVec.extractLsb'_and] at hx
  rw [← BitVec.and_allOnes (x := hi8 b)]
  exact beq_iff_eq.mpr hx

/-- A word of one of the table's opcodes with zeros wherever no operand stands is an instruction. -/
theorem exists_decodeWord {w : BitVec 40} (h1 : 1 ≤ (cmdOp w).toNat) (h10 : (cmdOp w).toNat ≤ 0x0A)
    (hclean : w &&& Claims.reservedMask (cmdOp w).toNat = 0) : ∃ i, decodeWord w = .ok i := by
  have clean : ∀ {z : Bool} {i : Instr}, z = true → ∃ j, unlessReserved z i = .ok j := fun hz => ⟨_, if_pos hz⟩
  unfold decodeWord
  split <;> rename_i hop
  case h_11 =>
    exfalso
    interval_cases h : (cmdOp w).toNat <;> contradiction
  all_goals rw [hop] at hclean
  case h_1 | h_2 | h_5 => exact ⟨_, rfl⟩
  case h_3 | h_4 => exact clean (idx_high_of_and_mask (fields_of_and_cmdWord_eq_zero (b := 0) hclean).1)
  case h_6 | h_8 =>
    obtain ⟨ha, hb⟩ := fields_of_and_cmdWord_eq_zero (a := 0xFFFF) (b := 0xFFFF) hclean
    exact clean (Bool.and_eq_true_iff.mpr ⟨eq_zero_of_and_mask ha, eq_zero_of_and_mask hb⟩)
  case h_7 | h_10 =>
    obtain ⟨ha, hb⟩ := fields_of_and_cmdWord_eq_zero (a := 0xFFFF) (b := 0xFF00) hclean
    exact clean (Bool.and_eq_true_iff.mpr ⟨eq_zero_of_and_mask ha, hi8_of_and_mask hb⟩)
  case h_9 =>
    obtain ⟨ha, hb⟩ := fields_of_and_cmdWord_eq_zero (a := 0xFFF0) (b := 0xFFFF) hclean
    exact clean (Bool.and_eq_true_iff.mpr ⟨idx_high_of_and_mask ha, eq_zero_of_and_mask hb⟩)

/-! ### The fields as masks and shifts of the word (R101) -/

theorem toNat_and_count (w : BitVec 40) : (w &&& 0xFFFF).toNat = (cmdB w).toNat := by
  rw [toNat_cmdB, BitVec.toNat_and]
  exact Nat.and_two_pow_sub_one_eq_mod w.toNat 16

theorem setWidth_ushiftRight_idx (w : BitVec 40) : (w >>> 16).setWidth 4 = (cmdA w).extractLsb' 0 4 := by
  apply BitVec.eq_of_toNat_eq
  simp [cmdA, Nat.shiftRight_eq_div_pow]

/-! ### The checks that are left to the instruction, by its opcode (R297) -/

/-- The check `NotConfigured` fails. -/
def Unconfigured (op : Nat) (s : State) : Prop := (op ≤ 4 ∨ op = 8) ∧ s.saValid = false

/-- The check `BadCount` fails. -/
def CountOutOfRange (op count : Nat) (s : State) : Prop :=
  (op = 1 ∨ op = 3) ∧ (count = 0 ∨ s.cfg.maxReadCount < count)

/-- The check `AccessDenied` fails. -/
def Denied (op : Nat) (access : BitVec 2) (s : State) : Prop :=
  s.cfg.romEnforceAccess = true ∧ ((op = 3 ∧ access = 2) ∨ (op = 4 ∧ access = 0))

/-- `t` is what these checks, made in this order, leave of `s`; where none of them fails, no error is reported. -/
structure Checked (op count : Nat) (access : BitVec 2) (s t : State) : Prop where
  notConfigured : Unconfigured op s → t = Claims.refused 3 s
  badCount : ¬Unconfigured op s → CountOutOfRange op count s → t = Claims.refused 4 s
  accessDenied : ¬Unconfigured op s → ¬CountOutOfRange op count s → Denied op access s → t = Claims.refused 5 s
  passed : ¬Unconfigured op s → ¬CountOutOfRange op count s → ¬Denied op access s → t.err = 0 ∧ t.sub = 0

section
variable {op count : Nat} {access : BitVec 2} {s t : State}

/-- A chain of refusals that follows the order of the checks, each under its own condition. -/
theorem checked_ite {u b d : Prop} [Decidable u] [Decidable b] [Decidable d] (hu : Unconfigured op s ↔ u)
    (hb : CountOutOfRange op count s ↔ b) (hd : Denied op access s ↔ d) (h : t.err = 0 ∧ t.sub = 0) :
    Checked op count access s
      (if u then Claims.refused 3 s else if b then Claims.refused 4 s else if d then Claims.refused 5 s else t) where
  notConfigured u := if_pos (hu.mp u)
  badCount u b := (if_neg (mt hu.mpr u)).trans (if_pos (hb.mp b))
  accessDenied u b d := (if_neg (mt hu.mpr u)).trans ((if_neg (mt hb.mpr b)).trans (if_pos (hd.mp d)))
  passed u b d := by rwa [if_neg (mt hu.mpr u), if_neg (mt hb.mpr b), if_neg (mt hd.mpr d)]

/-- An instruction that `BadCount` and `AccessDenied` do not concern. -/
theorem checked_ite_configured (hop : op = 2 ∨ op = 8) (h : t.err = 0 ∧ t.sub = 0) :
    Checked op count access s (if s.saValid = false then Claims.refused 3 s else t) := by
  refine checked_ite (b := False) (d := False) ?_ ?_ ?_ h
  · exact and_iff_right (by omega)
  · exact iff_false_intro fun ⟨h, _⟩ => by omega
  · exact iff_false_intro fun ⟨_, h⟩ => by omega

/-- An instruction without a check. -/
theorem checked_of_passed (hop : 5 ≤ op) (h8 : op ≠ 8) (h : t.err = 0 ∧ t.sub = 0) : Checked op count access s t := by
  refine checked_ite (u := False) (b := False) (d := False) ?_ ?_ ?_ h
  · exact iff_false_intro fun ⟨h, _⟩ => by omega
  · exact iff_false_intro fun ⟨h, _⟩ => by omega
  · exact iff_false_intro fun ⟨_, h⟩ => by omega

end

/-- A word that decodes is judged by the checks of its instruction alone. -/
theorem checked_runWord {s : State} (hp : s.phase = .idle) {w : BitVec 40} (h1 : 1 ≤ (cmdOp w).toNat)
    (h10 : (cmdOp w).toNat ≤ 0x0A) (hclean : w &&& Claims.reservedMask (cmdOp w).toNat = 0) :
    ∃ t, runWord w s = .next t ∧ Checked (cmdOp w).toNat (cmdB w).toNat
      (Claims.access (Claims.nameAt s.cfg ((cmdA w).extractLsb' 0 4))) s t := by
  obtain ⟨i, hi⟩ := exists_decodeWord h1 h10 hclean
  have hrun : runWord w s = exec i s := by rw [runWord, decode, hi]
  rw [hrun]
  unfold decodeWord at hi
  split at hi <;> rename_i hop
  case h_11 => cases hi
  all_goals rw [hop]
  case h_1 =>
    obtain rfl := Except.ok.inj hi
    exact ⟨_, rdhrOutcome s _ _ hp,
      checked_ite (d := False) (by simp [Unconfigured]) (by simp [CountOutOfRange]) (by simp [Denied]) ⟨rfl, rfl⟩⟩
  case h_2 =>
    obtain rfl := Except.ok.inj hi
    exact ⟨_, wrsrOutcome s _ _ hp, checked_ite_configured (.inl rfl) ⟨rfl, rfl⟩⟩
  case h_3 =>
    obtain ⟨-, rfl⟩ := unlessReserved_eq_ok.mp hi
    exact ⟨_, rdregOutcome s _ _ hp,
      checked_ite (by simp [Unconfigured]) (by simp [CountOutOfRange]) (by simp [Denied]) ⟨rfl, rfl⟩⟩
  case h_4 =>
    obtain ⟨-, rfl⟩ := unlessReserved_eq_ok.mp hi
    exact ⟨_, wrregOutcome s _ _ hp,
      checked_ite (b := False) (by simp [Unconfigured]) (by simp [CountOutOfRange]) (by simp [Denied]) ⟨rfl, rfl⟩⟩
  case h_8 =>
    obtain ⟨-, rfl⟩ := unlessReserved_eq_ok.mp hi
    exact ⟨_, getsaReturnsAddress s hp, checked_ite_configured (.inr rfl) ⟨rfl, rfl⟩⟩
  case h_5 =>
    obtain rfl := Except.ok.inj hi
    exact ⟨_, (settoStoresTimeout s _ hp).2, checked_of_passed (by decide) (by decide) ⟨rfl, rfl⟩⟩
  case h_6 =>
    obtain ⟨-, rfl⟩ := unlessReserved_eq_ok.mp hi
    exact ⟨_, gettoReturnsTimeout s hp, checked_of_passed (by decide) (by decide) ⟨rfl, rfl⟩⟩
  case h_7 =>
    obtain ⟨-, rfl⟩ := unlessReserved_eq_ok.mp hi
    exact ⟨_, setsaStoresAddress s _ hp, checked_of_passed (by decide) (by decide) ⟨rfl, rfl⟩⟩
  case h_9 =>
    obtain ⟨-, rfl⟩ := unlessReserved_eq_ok.mp hi
    exact ⟨_, (lookupReturnsRomEntry s _ hp).1, checked_of_passed (by decide) (by decide) ⟨rfl, rfl⟩⟩
  case h_10 =>
    obtain ⟨-, rfl⟩ := unlessReserved_eq_ok.mp hi
    refine ⟨_, fanregReturnsSpeedRegister s _ hp, checked_of_passed (by decide) (by decide) ?_⟩
    split <;> exact ⟨rfl, rfl⟩

/-- Settles O7: the decoder's two refusals come first, then the checks of the instruction decoded. -/
theorem acceptanceChecksInOrder : Obligations.AcceptanceChecksInOrder := by
  intro s w rest hp hi op count access illegal reserved unconfigured badCount denied
  obtain ⟨hillegal, hreserved⟩ := illegalAndReservedWordsRefused s w rest hp hi
  by_cases hl : illegal
  · exact ⟨_, hillegal hl, by simp [hl]⟩
  have ⟨h1, h10⟩ : 1 ≤ op ∧ op ≤ 0x0A := by simp only [illegal] at hl; omega
  by_cases hr : reserved
  · exact ⟨_, hreserved h1 h10 hr, by simp [hl, hr]⟩
  have hop : op = (cmdOp w).toNat := toNat_ushiftRight_opcode w
  have hcount : count = (cmdB w).toNat := toNat_and_count w
  have haccess : access = Claims.access (Claims.nameAt s.cfg ((cmdA w).extractLsb' 0 4)) := by
    simp only [access, setWidth_ushiftRight_idx]
  obtain ⟨t, hrun, hchecked⟩ := checked_runWord (s := s.withInputs rest) hp (w := w) (hop ▸ h1) (hop ▸ h10)
    (hop ▸ not_not.mp hr)
  rw [← hop, ← hcount, withInputs_cfg, ← haccess] at hchecked
  exact ⟨t, (step_cons hi).trans hrun, fun h => absurd h hl, fun _ h => absurd h hr, fun _ _ => hchecked.notConfigured,
    fun _ _ => hchecked.badCount, fun _ _ => hchecked.accessDenied, fun _ _ => hchecked.passed⟩

end Sys2Proof.Machine
end

section
/-! The reset move: what it leaves of the block, the line and the device (O49; R40, R330). -/

namespace Sys2Proof.Machine

@[simp] theorem resetBlock_txidx (s : State) : s.resetBlock.txidx = 0 := rfl
@[simp] theorem resetBlock_rxbuf (s : State) : s.resetBlock.rxbuf = [] := rfl
@[simp] theorem resetBlock_sub (s : State) : s.resetBlock.sub = 0 := rfl
@[simp] theorem resetBlock_exc (s : State) : s.resetBlock.exc = 0 := rfl
@[simp] theorem resetBlock_linkCause (s : State) : s.resetBlock.linkCause = 0 := rfl
@[simp] theorem resetBlock_rinfo (s : State) : s.resetBlock.rinfo = 0 := rfl

/-- In every phase a scheduled reset resets the block, which waits for the moves that follow it (R330). -/
theorem step_reset {s : State} {rest : List Input} (h : s.inputs = .reset :: rest) :
    step s = .next (s.withInputs rest).resetBlock :=
  step_cons h

/-- Settles O49: whatever the phase, the next state is the block reset, and the laws of `State.resetBlock` give each field. -/
theorem resetGivesResetValues : Obligations.ResetGivesResetValues := by
  intro s rest hreset
  refine ⟨(s.withInputs rest).resetBlock, step_reset hreset, ?_⟩
  simp

end Sys2Proof.Machine
end

section
/-! Encoding and decoding are inverse to each other (O1 to O3). -/

namespace Sys2Proof.Machine

/-! ### Decoding what was encoded (R93 to R102) -/

/-- A read response with a permitted number of values, after its function byte (R95, R96). -/
theorem decodeReadResponse_encoded {c : Config} {vs : List Word} (h1 : 1 ≤ vs.length) (hmax : vs.length ≤ c.maxReadCount)
    (sa bc : Byte) (crc : Word) :
    decodeReadResponse c sa (bc :: (wordsBytes vs ++ le16 crc)) = .ok (.frameRdrsp sa bc vs crc) := by
  have hlen : (wordsBytes vs ++ le16 crc).length = 2 * vs.length + 2 := by simp [le16]
  have hn : (2 * vs.length + 2 - 2) / 2 = vs.length := by omega
  have htake : (wordsBytes vs ++ le16 crc).take (2 * vs.length) = wordsBytes vs := List.take_left' (length_wordsBytes vs)
  simp only [decodeReadResponse, hlen, hn, htake, bytesWords_wordsBytes]
  rw [if_pos ⟨trivial, h1, hmax⟩]
  simp [le16, List.getD_eq_getElem?_getD]

section
variable {c : Config} (hc : c.wf = true)
include hc

theorem decodeResponse_fnWrite (sa : Byte) (rest : List Byte) :
    decodeResponse c (sa :: c.fnWrite :: rest) = decodeWriteResponse sa rest := by
  obtain ⟨hne, -, -⟩ := Config.wf_codes hc
  simp [decodeResponse, hne.symm]

theorem decodeResponse_excFn_fnRead (sa : Byte) (rest : List Byte) :
    decodeResponse c (sa :: excFn c.fnRead :: rest) = decodeException (.frameExcrspRd sa) rest := by
  obtain ⟨-, hread, hwrite⟩ := Config.wf_codes hc
  simp [decodeResponse, excFn_ne hread, excFn_ne hwrite]

theorem decodeResponse_excFn_fnWrite (sa : Byte) (rest : List Byte) :
    decodeResponse c (sa :: excFn c.fnWrite :: rest) = decodeException (.frameExcrspWr sa) rest := by
  obtain ⟨hne, hread, hwrite⟩ := Config.wf_codes hc
  have hexc : excFn c.fnWrite ≠ excFn c.fnRead := fun h => hne (excFn_inj hwrite hread h).symm
  simp [decodeResponse, excFn_ne hread, excFn_ne hwrite, hexc]

end

/-- Settles O1: a command word by its fields, a frame by its function byte and then by its fields. -/
theorem decodeOfEncode : Obligations.DecodeOfEncode := by
  intro c i hc hi
  cases i <;> simp only [encode, decode]
  case rdhr addr count => exact decodeWord_rdhr addr count
  case wrsr addr value => exact decodeWord_wrsr addr value
  case setto | getto | getsa => simp [decodeWord, unlessReserved_eq_ok]
  case rdreg | wrreg | lookup => simp [decodeWord, unlessReserved_eq_ok, high_setWidth_idx]
  case setsa | fanreg => simp [decodeWord, unlessReserved_eq_ok, hi8_setWidth]
  case frameRdreq => simp [decodeRequest, be16, le16]
  case frameWrreq =>
    obtain ⟨hne, -, -⟩ := Config.wf_codes hc
    simp [decodeRequest, be16, le16, hne.symm]
  case frameRdrsp sa bc vs crc =>
    obtain ⟨h1, hmax⟩ : 1 ≤ vs.length ∧ vs.length ≤ c.maxReadCount := by simpa [Instr.wf] using hi
    exact (if_pos rfl).trans (decodeReadResponse_encoded h1 hmax sa bc crc)
  case frameWrrsp sa reg value crc =>
    refine (decodeResponse_fnWrite hc sa _).trans ?_
    simp [decodeWriteResponse, be16, le16]
  case frameExcrspRd sa code crc =>
    refine (decodeResponse_excFn_fnRead hc sa _).trans ?_
    simp [decodeException, le16]
  case frameExcrspWr sa code crc =>
    refine (decodeResponse_excFn_fnWrite hc sa _).trans ?_
    simp [decodeException, le16]

/-! ### Encoding what was decoded (R93 to R103) -/

/-- A word is given by its fields (R101). -/
theorem cmdWord_eq_of_fields {w : BitVec 40} {op : Byte} {a b : Word} (hop : (cmdOp w).toNat = op.toNat) (ha : a = cmdA w)
    (hb : b = cmdB w) : cmdWord op a b = w := by
  rw [← BitVec.eq_of_toNat_eq hop, ha, hb, cmdWord_fields]

/-- What a command word that decodes was read from: each kind of row has its checks of the bits that carry no operand. -/
theorem encode_of_decodeWord_eq_ok {c : Config} {w : BitVec 40} {i : Instr} (h : decodeWord w = .ok i) :
    i.wf c = true ∧ encode c i = .word w := by
  unfold decodeWord at h
  split at h <;> rename_i hop
  case h_11 => cases h
  case h_1 | h_2 =>
    obtain rfl := Except.ok.inj h
    exact ⟨rfl, congrArg Code.word (cmdWord_eq_of_fields hop rfl rfl)⟩
  case h_5 =>
    obtain rfl := Except.ok.inj h
    have hop : 0x05#8 = cmdOp w := BitVec.eq_of_toNat_eq hop.symm
    exact ⟨rfl, congrArg Code.word (by rw [hop, append_cmdArg32])⟩
  case h_3 | h_4 =>
    obtain ⟨hz, rfl⟩ := unlessReserved_eq_ok.mp h
    exact ⟨rfl, congrArg Code.word (cmdWord_eq_of_fields hop (setWidth_low_idx (beq_iff_eq.mp hz)) rfl)⟩
  all_goals
    obtain ⟨hz, rfl⟩ := unlessReserved_eq_ok.mp h
    obtain ⟨ha, hb⟩ := Bool.and_eq_true_iff.mp hz
    rw [beq_iff_eq] at ha hb
    refine ⟨rfl, congrArg Code.word ?_⟩
  case h_6 | h_8 => exact cmdWord_eq_of_fields hop ha.symm hb.symm
  case h_7 | h_10 => exact cmdWord_eq_of_fields hop ha.symm (setWidth_lo8 hb)
  case h_9 => exact cmdWord_eq_of_fields hop (setWidth_low_idx ha) hb.symm

theorem encode_of_decodeRequest_eq_ok {c : Config} {bytes : List Byte} {i : Instr} (h : decodeRequest c bytes = .ok i) :
    i.wf c = true ∧ encode c i = .request bytes := by
  unfold decodeRequest at h
  split at h
  · split_ifs at h with hread hwrite
    · obtain rfl := Except.ok.inj h
      exact ⟨rfl, by simp [encode, be16, le16, hread]⟩
    · obtain rfl := Except.ok.inj h
      exact ⟨rfl, by simp [encode, be16, le16, hwrite]⟩
  · cases h

/-- What a write response that decodes was read from. -/
theorem decodeWriteResponse_eq_ok {sa : Byte} {l : List Byte} {i : Instr} (h : decodeWriteResponse sa l = .ok i) :
    ∃ reg value crc, i = .frameWrrsp sa reg value crc ∧ l = be16 reg ++ be16 value ++ le16 crc := by
  unfold decodeWriteResponse at h
  split at h
  · obtain rfl := Except.ok.inj h
    exact ⟨_, _, _, rfl, by simp [be16, le16]⟩
  · cases h

/-- What an exception response that decodes was read from. -/
theorem decodeException_eq_ok {make : Byte → Word → Instr} {l : List Byte} {i : Instr}
    (h : decodeException make l = .ok i) : ∃ code crc, i = make code crc ∧ l = code :: le16 crc := by
  unfold decodeException at h
  split at h
  · obtain rfl := Except.ok.inj h
    exact ⟨_, _, rfl, by simp [le16]⟩
  · cases h

theorem encode_of_decodeResponse_eq_ok {c : Config} {bytes : List Byte} {i : Instr} (h : decodeResponse c bytes = .ok i) :
    i.wf c = true ∧ encode c i = .response bytes := by
  unfold decodeResponse at h
  split at h
  · split_ifs at h with hread hwrite hexcRead hexcWrite
    · obtain ⟨bc, vs, crc, rfl, h1, hmax, rfl⟩ := decodeReadResponse_eq_ok h
      exact ⟨by simp [Instr.wf, h1, hmax], by simp [encode, hread]⟩
    · obtain ⟨reg, value, crc, rfl, rfl⟩ := decodeWriteResponse_eq_ok h
      exact ⟨rfl, by simp [encode, hwrite]⟩
    · obtain ⟨code, crc, rfl, rfl⟩ := decodeException_eq_ok h
      exact ⟨rfl, by simp [encode, hexcRead]⟩
    · obtain ⟨code, crc, rfl, rfl⟩ := decodeException_eq_ok h
      exact ⟨rfl, by simp [encode, hexcWrite]⟩
  · cases h

/-- Settles O2: each of the three kinds of code by what its decoder reads. -/
theorem encodeOfDecode : Obligations.EncodeOfDecode := by
  intro c k i h
  cases k with
  | word w => exact encode_of_decodeWord_eq_ok h
  | request bytes => exact encode_of_decodeRequest_eq_ok h
  | response bytes => exact encode_of_decodeResponse_eq_ok h

/-- Settles O3: each code is the encoding of the instruction it stands for, so O1 reads it back. -/
theorem sampleCodesDecode : Obligations.SampleCodesDecode := by
  have read (i : Instr) (hi : i.wf (Config.standard true) = true) := decodeOfEncode _ i (Config.wf_standard true) hi
  exact ⟨read (.rdhr 0xFFFE 125) rfl, read (.wrreg 15 0x00AA) rfl, read (.setto 0xFFFFFFFE) rfl, read (.setsa 0xFE) rfl,
    read (.lookup 12) rfl, read (.frameRdreq 0x01 0x0007 4 0xC8F5) rfl, read (.frameWrrsp 0x01 0x0003 100 0x2178) rfl,
    read (.frameExcrspRd 0x01 0x02 0xF1C0) rfl⟩

end Sys2Proof.Machine
end

section
/-! A step runs the instruction that the code at the place of fetch decodes to (O5; R195). -/

namespace Sys2Proof.Machine

section
variable {s : State} {i : Instr}

theorem runWord_of_decode {w : BitVec 40} (h : decode s.cfg (.word w) = .ok i) : runWord w s = exec i s := by
  rw [runWord, h]

theorem runRequest_of_decode (h : decode s.cfg (.request s.txbuf) = .ok i) : runRequest s = exec i s := by
  rw [runRequest, h]

theorem runResponse_of_decode {bytes : List Byte} (h : decode s.cfg (.response bytes) = .ok i) :
    runResponse bytes s = exec i s := by
  rw [runResponse, h]

end

/-- Settles O5: the move is consumed first, which changes neither the parameters nor `TXBUF`; then each place of fetch runs what it
decodes. -/
theorem stepRunsDecodedInstruction : Obligations.StepRunsDecodedInstruction := by
  intro s rest i
  refine ⟨fun w hin hd => ?_, fun hin hd => ?_, fun bytes hin hd => ?_⟩
  · exact (step_cons hin).trans (runWord_of_decode (s := s.withInputs rest) hd)
  · exact (step_cons hin).trans (runRequest_of_decode (s := s.withInputs rest) hd)
  · exact (step_cons hin).trans (runResponse_of_decode (s := s.withInputs rest) hd)

end Sys2Proof.Machine
end
